-- ==== Sys2Proof/Word.lean ====
section
/-! DEFINITION. The word types of the block (00_scope.md rules R10, R18): every value is an unsigned
integer of a stated width, so each is a bit vector and wraps only where a rule says a width. -/

namespace Sys2Proof

/-- A stream byte, a data symbol or an opcode (R10, R75, R101). -/
abbrev Byte := BitVec 8

/-- A 32-bit register, count, weight, code pattern or command word (R10, R47, R100). -/
abbrev Word := BitVec 32

/-- A symbol of the 257-entry code table, 0..256 (R14, R38, R104). -/
abbrev Sym := BitVec 9

end Sys2Proof
end

