-- ==== Sys2Proof/Config.lean ====
section
/-! DEFINITION. What an implementation fixes (00_scope.md rule R9) and the free values: results the
spec gives no value for. A free value is an opaque constant applied to the counter `State.draws`, so no
proof can see what it is. -/

namespace Sys2Proof

/-- The two values `P_EOF_SYM` may take (R9, R11). -/
inductive EofMode where
  /-- `P_EOF_SYM = 254`: compatibility mode, the default; collides with data byte 254. -/
  | compat
  /-- `P_EOF_SYM = 256`: wide mode, 257 distinct symbols. -/
  | wide
  deriving DecidableEq, Repr

/-- The parameters a platform chooses (R9): `P_EOF_SYM` and `P_REG_BASE`. No step changes them.
`P_REG_BASE` is held as a page number, so that its 256-byte alignment (R9) holds by construction. -/
structure Params where
  eofMode : EofMode
  regPage : Nat
  deriving DecidableEq, Repr

/-- `P_EOF_SYM`, the symbol of the end-of-stream leaf (R11). -/
def Params.eofSym (p : Params) : Sym :=
  match p.eofMode with
  | .compat => 254
  | .wide => 256

/-- `P_REG_BASE`, the bus address of the register window (R71). -/
def Params.regBase (p : Params) : Nat := 256 * p.regPage

/-- The parameters `State.reset` is built with: the default `P_EOF_SYM = 254` (R9).
DESIGN CHOICE (log 3): `P_REG_BASE` is OPEN in the spec; page 0 is taken here. No statement rests on it. -/
def Params.standard : Params := { eofMode := .compat, regPage := 0 }

/-- `P_MAX_CODE_LEN` (R9: its only value). -/
def Config.maxCodeLen : Nat := 32

/-- `P_MAX_HDR_PAIRS` (R9: its only value). -/
def Config.maxHdrPairs : Nat := 256

/-- FREE VALUE (R55, U1; log 5): what a register field whose value is unspecified reads as while BUSY = 1. -/
opaque Config.freeRead : Nat → Word

/-- FREE VALUE (R257; log 7): RESULT0 when DEC_STREAM counts one byte past 2^32 - 1; the sum falls outside
the register and the spec states no value. -/
opaque Config.freeCount : Nat → Word

end Sys2Proof
end

