-- ==== Sys2Proof/Syntax.lean ====
section
/-! DEFINITION. The commands of the block: one constructor per row of spec/opcode_table.json
(30_encoding.md rules R101, R107). A command has immediate operands only (R30, R106). -/

namespace Sys2Proof

/-- The SRC operand of TREE_BUILD (R105). -/
inductive TreeSource where
  /-- SRC = 0: build from FREQ, the compressor's side. -/
  | freq
  /-- SRC = 1: build from the leaf list HDR_PARSE left, the expander's side. -/
  | hdr
  deriving DecidableEq, Repr

/-- The 17 commands (R107). -/
inductive Instr where
  | nop
  | softReset
  | freqClear
  | freqAccum (b : Byte)
  | freqRead (b : Byte)
  | treeBuild (src : TreeSource)
  | treeRelease
  | codeDerive
  | codeRead (sym : Sym)
  | hdrEmit
  | hdrParse
  | leafRead (i : Byte)
  | encByte (b : Byte)
  | encEof
  | encFlush
  | decSymbol
  | decStream
  deriving DecidableEq, Repr

/-- The opcode of a command: a row of the opcode map (R107) without its operand. -/
inductive Opcode where
  | nop | softReset
  | freqClear | freqAccum | freqRead
  | treeBuild | treeRelease
  | codeDerive | codeRead
  | hdrEmit | hdrParse | leafRead
  | encByte | encEof | encFlush
  | decSymbol | decStream
  deriving DecidableEq, Repr

/-- The four operand formats (R101). -/
inductive Format where
  /-- no operand: bits 23:0 are 0 (R102) -/
  | N
  /-- byte operand in bits 7:0 (R103) -/
  | B
  /-- symbol operand in bits 8:0, at most 256 (R104) -/
  | S
  /-- tree source in bit 0 (R105) -/
  | T
  deriving DecidableEq, Repr

/-- The opcode of a command. -/
def Instr.opcode : Instr → Opcode
  | .nop => .nop
  | .softReset => .softReset
  | .freqClear => .freqClear
  | .freqAccum _ => .freqAccum
  | .freqRead _ => .freqRead
  | .treeBuild _ => .treeBuild
  | .treeRelease => .treeRelease
  | .codeDerive => .codeDerive
  | .codeRead _ => .codeRead
  | .hdrEmit => .hdrEmit
  | .hdrParse => .hdrParse
  | .leafRead _ => .leafRead
  | .encByte _ => .encByte
  | .encEof => .encEof
  | .encFlush => .encFlush
  | .decSymbol => .decSymbol
  | .decStream => .decStream

end Sys2Proof
end

