-- ==== Sys2Proof/WellFormed.lean ====
section
/-! DEFINITION. Which terms of `Instr` are commands. The types bound every operand but one: a symbol
operand is nine bits wide and must be an index of the 257-entry code table (R104, R108). -/

namespace Sys2Proof

/-- A symbol operand is in 0..256 (R104). -/
def Sym.inTable (s : Sym) : Bool := decide (s.toNat ≤ 256)

/-- A term of `Instr` that some command word encodes (R104, R108). -/
def Instr.wellFormed : Instr → Bool
  | .codeRead sym => Sym.inTable sym
  | .nop => true
  | .softReset => true
  | .freqClear => true
  | .freqAccum _ => true
  | .freqRead _ => true
  | .treeBuild _ => true
  | .treeRelease => true
  | .codeDerive => true
  | .hdrEmit => true
  | .hdrParse => true
  | .leafRead _ => true
  | .encByte _ => true
  | .encEof => true
  | .encFlush => true
  | .decSymbol => true
  | .decStream => true

end Sys2Proof
end

