-- ==== Sys2Proof/Decode.lean ====
section
/-! DEFINITION. Decoding a command word (30_encoding.md rules R100 to R110), total on any 32-bit word and
rejecting by name, and the encoder written from the same tables. -/

namespace Sys2Proof

/-- Why a command word is illegal (R108). The block reports all three alike, as ILLEGAL_COMMAND. -/
inductive DecodeError where
  /-- OPC is not in the opcode map of R107 -/
  | unassignedOpcode
  /-- a bit that the opcode's format requires to be 0 is 1 -/
  | reservedBits
  /-- the format is S and SYM > 256 -/
  | symbolOutOfRange
  deriving DecidableEq, Repr

/-- The opcode map, OPC column (R107). -/
def Opcode.code : Opcode → Byte
  | .nop => 0x01
  | .softReset => 0x02
  | .freqClear => 0x10
  | .freqAccum => 0x11
  | .freqRead => 0x12
  | .treeBuild => 0x20
  | .treeRelease => 0x21
  | .codeDerive => 0x30
  | .codeRead => 0x31
  | .hdrEmit => 0x40
  | .hdrParse => 0x41
  | .leafRead => 0x42
  | .encByte => 0x50
  | .encEof => 0x51
  | .encFlush => 0x52
  | .decSymbol => 0x60
  | .decStream => 0x61

/-- The opcode map, format column (R107). -/
def Opcode.format : Opcode → Format
  | .nop => .N
  | .softReset => .N
  | .freqClear => .N
  | .freqAccum => .B
  | .freqRead => .B
  | .treeBuild => .T
  | .treeRelease => .N
  | .codeDerive => .N
  | .codeRead => .S
  | .hdrEmit => .N
  | .hdrParse => .N
  | .leafRead => .B
  | .encByte => .B
  | .encEof => .N
  | .encFlush => .N
  | .decSymbol => .N
  | .decStream => .N

/-- The opcode map read backwards: every byte not in it is illegal (R107, R109). -/
def Opcode.ofByte (b : Byte) : Option Opcode :=
  match b.toNat with
  | 0x01 => some .nop
  | 0x02 => some .softReset
  | 0x10 => some .freqClear
  | 0x11 => some .freqAccum
  | 0x12 => some .freqRead
  | 0x20 => some .treeBuild
  | 0x21 => some .treeRelease
  | 0x30 => some .codeDerive
  | 0x31 => some .codeRead
  | 0x40 => some .hdrEmit
  | 0x41 => some .hdrParse
  | 0x42 => some .leafRead
  | 0x50 => some .encByte
  | 0x51 => some .encEof
  | 0x52 => some .encFlush
  | 0x60 => some .decSymbol
  | 0x61 => some .decStream
  | _ => none

/-- `w[31:24]`, the opcode byte (R101). -/
def opcField (w : Word) : Byte := w.extractLsb' 24 8

/-- `w[7:0]`, the BYTE operand (R103). -/
def byteField (w : Word) : Byte := w.extractLsb' 0 8

/-- `w[8:0]`, the SYM operand (R104). -/
def symField (w : Word) : Sym := w.extractLsb' 0 9

/-- `w[0]`, the SRC operand (R105). -/
def srcField (w : Word) : TreeSource := if w.getLsbD 0 then .hdr else .freq

/-- Format N: bits 23:0 must be 0 (R102, R110). -/
def decodeN (w : Word) (i : Instr) : Except DecodeError Instr :=
  if w.extractLsb' 0 24 = 0 then .ok i else .error .reservedBits

/-- Format B: bits 23:8 must be 0 (R103, R110). -/
def decodeB (w : Word) (mk : Byte → Instr) : Except DecodeError Instr :=
  if w.extractLsb' 8 16 = 0 then .ok (mk (byteField w)) else .error .reservedBits

/-- Format S: bits 23:9 must be 0 and SYM at most 256 (R104, R110). -/
def decodeS (w : Word) (mk : Sym → Instr) : Except DecodeError Instr :=
  if w.extractLsb' 9 15 = 0 then
    if Sym.inTable (symField w) then .ok (mk (symField w)) else .error .symbolOutOfRange
  else .error .reservedBits

/-- Format T: bits 23:1 must be 0 (R105, R110). -/
def decodeT (w : Word) (mk : TreeSource → Instr) : Except DecodeError Instr :=
  if w.extractLsb' 1 23 = 0 then .ok (mk (srcField w)) else .error .reservedBits

/-- Decode (R110): the opcode alone selects the format, the format says what the other bits must hold. -/
def decode (w : Word) : Except DecodeError Instr :=
  match Opcode.ofByte (opcField w) with
  | none => .error .unassignedOpcode
  | some .nop => decodeN w .nop
  | some .softReset => decodeN w .softReset
  | some .freqClear => decodeN w .freqClear
  | some .freqAccum => decodeB w .freqAccum
  | some .freqRead => decodeB w .freqRead
  | some .treeBuild => decodeT w .treeBuild
  | some .treeRelease => decodeN w .treeRelease
  | some .codeDerive => decodeN w .codeDerive
  | some .codeRead => decodeS w .codeRead
  | some .hdrEmit => decodeN w .hdrEmit
  | some .hdrParse => decodeN w .hdrParse
  | some .leafRead => decodeB w .leafRead
  | some .encByte => decodeB w .encByte
  | some .encEof => decodeN w .encEof
  | some .encFlush => decodeN w .encFlush
  | some .decSymbol => decodeN w .decSymbol
  | some .decStream => decodeN w .decStream

/-- A format N word: the opcode and 24 zero bits (R101, R102). -/
def encodeN (op : Opcode) : Word := (op.code ++ (0 : BitVec 24)).cast (by decide)

/-- A format B word (R101, R103). -/
def encodeB (op : Opcode) (b : Byte) : Word := (op.code ++ ((0 : BitVec 16) ++ b)).cast (by decide)

/-- A format S word (R101, R104). -/
def encodeS (op : Opcode) (s : Sym) : Word := (op.code ++ ((0 : BitVec 15) ++ s)).cast (by decide)

/-- A format T word (R101, R105). -/
def encodeT (op : Opcode) (src : TreeSource) : Word :=
  (op.code ++ ((0 : BitVec 23) ++ (match src with
    | .freq => (0 : BitVec 1)
    | .hdr => (1 : BitVec 1)))).cast (by decide)

/-- The word of a command (R101, R107). -/
def encode : Instr → Word
  | .nop => encodeN .nop
  | .softReset => encodeN .softReset
  | .freqClear => encodeN .freqClear
  | .freqAccum b => encodeB .freqAccum b
  | .freqRead b => encodeB .freqRead b
  | .treeBuild src => encodeT .treeBuild src
  | .treeRelease => encodeN .treeRelease
  | .codeDerive => encodeN .codeDerive
  | .codeRead sym => encodeS .codeRead sym
  | .hdrEmit => encodeN .hdrEmit
  | .hdrParse => encodeN .hdrParse
  | .leafRead i => encodeB .leafRead i
  | .encByte b => encodeB .encByte b
  | .encEof => encodeN .encEof
  | .encFlush => encodeN .encFlush
  | .decSymbol => encodeN .decSymbol
  | .decStream => encodeN .decStream

/-- The word whose table bits are `w`: the bits above `nbits` are 0. Every command is one word (R100), so
the table's numbering is the word's own. -/
def tableWord (nbits w : Nat) : Word := BitVec.ofNat 32 (w % 2 ^ nbits)

/-- The command the decoder reads from a word given by its opcode-table bits. -/
def decodeTableWord (nbits w : Nat) : Option Instr :=
  match decode (tableWord nbits w) with
  | .ok i => some i
  | .error _ => none

end Sys2Proof
end

