-- ==== Sys2Proof/Machine/State.lean ====
section
/-! DEFINITION. The state of the block (10_state.md rule R32), the two byte streams it shares with the
host (R57, R76, R77), the state that exists only inside a command (R56), and the plain data that says what
the host does next. Reset values: R32, R300. -/

namespace Sys2Proof.Machine

/-- One (symbol, weight) entry of the leaf list (R32, R35). -/
structure LeafEntry where
  sym : Byte
  weight : Word
  deriving DecidableEq, Repr

/-- A Huffman tree (R14): branch 0 is `child0`, branch 1 is `child1`. -/
inductive Tree where
  | leaf (sym : Sym) (weight : Word)
  | internal (weight : Word) (child0 child1 : Tree)
  deriving DecidableEq, Repr

/-- One entry of the code table (R38): the low `len` bits of `pat` are the code. -/
structure CodeEntry where
  valid : Bool
  pat : Word
  len : BitVec 6
  deriving DecidableEq, Repr

/-- `{valid: 0, pat: 0, len: 0}` (R32). -/
def CodeEntry.cleared : CodeEntry := { valid := false, pat := 0, len := 0 }

/-- The block's fault kinds (R270). They are recorded in State by the fault entry of R276; they are not
outcomes of a step. -/
inductive FaultKind where
  | ioFailure
  | truncated
  | unsupportedDistribution
  | illegalCommand
  | sequenceError
  | headerOverflow
  | symbolNotInTree
  deriving DecidableEq, Repr

/-- The phases a fault reports (R271). -/
inductive Phase where
  | command
  | count
  | treeBuild
  | codeDerive
  | headerWrite
  | headerRead
  | bitEncode
  | flush
  | bitDecode
  deriving DecidableEq, Repr

/-- Where the running command stands (R56, R78, R80): a command that holds resumes exactly where it
stopped. Meaningful only while BUSY = 1, as CUR_CMD is (R31). -/
inductive Progress where
  /-- accepted (R49), not yet dispatched (R140) -/
  | start
  /-- HDR_PARSE, about to pop a count byte, `nbytes` popped so far (R211) -/
  | hdrCount (nbytes : Nat)
  /-- HDR_PARSE, about to pop the symbol byte of a pair whose count byte is `count` (R211) -/
  | hdrSym (count : Byte) (nbytes : Nat)
  /-- DEC_SYMBOL, about to take a bit at the internal node `node` (R250, R251) -/
  | decSymbol (node : Tree)
  /-- DEC_STREAM, at the head of its loop (R257) -/
  | streamNext
  /-- DEC_STREAM, about to take a bit at the internal node `node` (R257, R251) -/
  | streamAt (node : Tree)
  deriving DecidableEq, Repr

/-- What the host can do to the block, its register window and its streams (R17, R49, R72, R76, R77, R300,
R303). Bus accesses name a host-bus address and a width in bits. -/
inductive HostAction where
  /-- a bus read (R47, R72) -/
  | read (addr width : Nat)
  /-- a bus write (R49, R54, R72) -/
  | write (addr width : Nat) (data : Word)
  /-- append bytes to `inq`, while `in_end = 0` (R76) -/
  | appendIn (bytes : List Byte)
  /-- `in_end <- 1` (R76) -/
  | endIn
  /-- `in_err <- 1` (R76) -/
  | errIn
  /-- remove `n` bytes from the front of `outq` (R77) -/
  | takeOut (n : Nat)
  /-- `out_err <- 1` once `after` more bytes have been pushed; at once where `after` is 0 (R77) -/
  | errOut (after : Nat)
  /-- give the block an IN stream for a run: these bytes, `in_end` as given, `in_err = 0` (R303) -/
  | giveIn (bytes : List Byte) (ended : Bool)
  /-- give the block an OUT stream for a run: empty, `out_err = 0` (R303, R315) -/
  | giveOut
  /-- assert the hardware reset input (R300) -/
  | resetInput
  deriving DecidableEq, Repr

/-- Who takes the next step (R17): the model is one deterministic machine, and the interleaving of its two
agents is plain data in `State.agenda`. -/
inductive Turn where
  | host (a : HostAction)
  | block
  deriving DecidableEq, Repr

/-- The reasons a step stops the machine with a fault. The block's own faults (R270) are NOT among them:
they are recorded in State (R276) and the machine goes on. -/
inductive Fault where
  /-- Raised by a block turn that resumes DEC_STREAM's loop in a state with no tree. Safe: no state that
  satisfies `Inv` is one, since nothing but the block changes TREE while a command runs (R57, R70). -/
  | lostTree
  deriving DecidableEq, Repr

/-- The reasons a step has no successor. -/
inductive Refusal where
  /-- Raised by `exec` for a command with no meaning yet; no arm raises it. Safe. -/
  | notModelled (mnemonic : String)
  /-- Raised by a bus access to the window that is not 32 bits wide or not at a multiple of 4: the host step
  has no successor (R72, U5). Safe: the spec says so. -/
  | unsupportedAccess
  /-- Raised by a bus access whose address is not in the register window: it reaches another device of the
  host bus, whose behaviour the spec does not give (R71). Safe. -/
  | outsideWindow
  /-- Raised by a host that appends to IN after it ended IN: R76 allows appending only while
  `in_end = 0`. Safe. -/
  | appendAfterEnd
  /-- Raised by a host that replaces a stream while a command runs: R303 gives a run its streams before its
  commands are issued. Safe. -/
  | streamGivenWhileBusy
  deriving DecidableEq, Repr

/-- The whole state. Names follow R32; a comment names the rule of each field that is not in its table. -/
structure State where
  /-- the platform's parameters, changed by no step (R9) -/
  params : Params
  freq : Vector Word 256
  leaves : List LeafEntry
  leavesValid : Bool
  tree : Option Tree
  code : Vector CodeEntry 257
  codesValid : Bool
  wrRack : Byte
  wrCnt : BitVec 3
  rdByte : Byte
  rdCnt : BitVec 4
  eos : Bool
  fault : Bool
  fcode : BitVec 4
  fphase : BitVec 4
  fopc : Byte
  ovr : Bool
  busy : Bool
  result0 : Word
  result1 : Word
  /-- the internal latch CUR_CMD (R31; log 12) -/
  curCmd : Word
  /-- where the running command stands (R56, R80; logs 8, 14) -/
  run : Progress
  /-- IN: the bytes the host has supplied (R76) -/
  inq : List Byte
  inEnd : Bool
  inErr : Bool
  /-- OUT: the bytes the host has not yet removed (R77) -/
  outq : List Byte
  outErr : Bool
  /-- MODEL'S OWN (log 9): `some n` means the host sets `out_err` once n + 1 more bytes are pushed (R77) -/
  outErrAfter : Option Nat
  /-- MODEL'S OWN (log 4): the data the last bus read returned to the host -/
  readData : Option Word
  /-- MODEL'S OWN (log 1): whose turn comes next -/
  agenda : List Turn
  /-- MODEL'S OWN (log 5): how many free values have been drawn -/
  draws : Nat
  deriving DecidableEq, Repr

/-- The machine right after reset on a platform with parameters `p` (R32, R300, R301). The streams are
not part of the block (R57): they start empty, neither ended nor in error. DESIGN CHOICE (log 2). So are the values of CUR_CMD and `run` (logs 12,
14) and of the model's own fields (logs 1, 4, 9, 21). -/
def State.resetWith (p : Params) : State where
  params := p
  freq := Vector.replicate 256 0
  leaves := []
  leavesValid := false
  tree := none
  code := Vector.replicate 257 CodeEntry.cleared
  codesValid := false
  wrRack := 0
  wrCnt := 0
  rdByte := 0
  rdCnt := 0
  eos := false
  fault := false
  fcode := 0
  fphase := 0
  fopc := 0
  ovr := false
  busy := false
  result0 := 0
  result1 := 0
  curCmd := 0
  run := .start
  inq := []
  inEnd := false
  inErr := false
  outq := []
  outErr := false
  outErrAfter := none
  readData := none
  agenda := []
  draws := 0

/-- The machine right after reset, with the default parameters (R9, R300). -/
def State.reset : State := State.resetWith Params.standard

end Sys2Proof.Machine
end

