-- ==== Sys2Proof/Machine/Operands.lean ====
section
/-! DEFINITION. The operand forms (30_encoding.md rules R103 to R106) and the accesses to the block's
internal memories they index (20_memory.md rule R70). Operands are zero-extended, never sign-extended. -/

namespace Sys2Proof.Machine

/-- Replace every entry of a table: the "for s in 0..255" loops of R151. -/
def mapTable {n : Nat} (f : Word → Word) (v : Vector Word n) : Vector Word n :=
  ⟨⟨v.toList.map f⟩, by simp⟩

/-- A data byte as a symbol: zero-extended to nine bits (R106). -/
def byteSym (b : Byte) : Sym := b.zeroExtend 9

/-- `s[7:0]` of a symbol (R250). -/
def symByte (s : Sym) : Byte := s.truncate 8

/-- `FREQ[b]` for a byte operand (R103, R152). -/
def freqAt (freq : Vector Word 256) (b : Byte) : Word := freq[b.toNat]'b.isLt

/-- `FREQ[b] <- v` (R151). -/
def freqSet (freq : Vector Word 256) (b : Byte) (v : Word) : Vector Word 256 := freq.set b.toNat v b.isLt

/-- `CODE[s]` for a symbol in 0..256 (R38, R191). Past the table, where no operand of a legal command
reaches (R104), it is the cleared entry (log 18). -/
def codeAt (code : Vector CodeEntry 257) (s : Sym) : CodeEntry :=
  if h : s.toNat < 257 then code[s.toNat] else CodeEntry.cleared

/-- `CODE[s] <- e` (R192). -/
def codeSet (code : Vector CodeEntry 257) (s : Sym) (e : CodeEntry) : Vector CodeEntry 257 :=
  if h : s.toNat < 257 then code.set s.toNat e else code

/-- `LEAVES[i]` for a byte operand used as a list index; `none` when `i >= |LEAVES|` (R103, R214). -/
def leafAt (leaves : List LeafEntry) (i : Byte) : Option LeafEntry := leaves[i.toNat]?

end Sys2Proof.Machine
end

