-- ==== Sys2Proof/Machine/Flags.lean ====
section
/-! DEFINITION. The codes of the fault record (60_exceptions.md rules R270, R271) and the contents of the
host-visible registers (10_state.md rules R47 to R55): every readable field reflects the state element of
the same name. -/

namespace Sys2Proof.Machine

/-- FCODE (R270). -/
def FaultKind.code : FaultKind → BitVec 4
  | .ioFailure => 1
  | .truncated => 2
  | .unsupportedDistribution => 3
  | .illegalCommand => 4
  | .sequenceError => 5
  | .headerOverflow => 6
  | .symbolNotInTree => 7

/-- FPHASE (R271). -/
def Phase.code : Phase → BitVec 4
  | .command => 0
  | .count => 1
  | .treeBuild => 2
  | .codeDerive => 3
  | .headerWrite => 4
  | .headerRead => 5
  | .bitEncode => 6
  | .flush => 7
  | .bitDecode => 8

/-- The phase of each command (R271). -/
def opcodePhase : Opcode → Phase
  | .nop => .command
  | .softReset => .command
  | .freqClear => .count
  | .freqAccum => .count
  | .freqRead => .count
  | .treeBuild => .treeBuild
  | .treeRelease => .treeBuild
  | .codeDerive => .codeDerive
  | .codeRead => .codeDerive
  | .hdrEmit => .headerWrite
  | .hdrParse => .headerRead
  | .leafRead => .headerRead
  | .encByte => .bitEncode
  | .encEof => .bitEncode
  | .encFlush => .flush
  | .decSymbol => .bitDecode
  | .decStream => .bitDecode

/-- A flag as a bit. -/
def flagBit (b : Bool) : BitVec 1 := BitVec.ofBool b

/-- CONFIG (R48): `{0[31:22], MAX_CODE_LEN[21:16], 0[15:9], EOF_SYM[8:0]}`. -/
def configWord (p : Params) : Word :=
  ((0 : BitVec 10) ++ (BitVec.ofNat 6 Config.maxCodeLen ++ ((0 : BitVec 7) ++ p.eofSym))).cast (by decide)

/-- TREE_VALID, a derived bit (R36). -/
def treeValid (s : State) : Bool := s.tree.isSome

/-- LEAF_COUNT (R50). -/
def leafCount (s : State) : BitVec 9 := BitVec.ofNat 9 s.leaves.length

/-- STATUS (R50), read while BUSY = 0: `{0[31:25], LEAF_COUNT[24:16], RD_CNT[15:12], 0[11], WR_CNT[10:8], 0[7], OVR,
LEAVES_VALID, CODES_VALID, TREE_VALID, EOS, FAULT, BUSY}`. -/
def statusWord (s : State) : Word :=
  ((0 : BitVec 7) ++ (leafCount s ++ (s.rdCnt ++ ((0 : BitVec 1) ++ (s.wrCnt ++ ((0 : BitVec 1) ++ (flagBit s.ovr ++
    (flagBit s.leavesValid ++ (flagBit s.codesValid ++ (flagBit (treeValid s) ++ (flagBit s.eos ++ (flagBit s.fault ++
      flagBit s.busy)))))))))))).cast (by decide)

/-- FAULTINFO (R52), read while BUSY = 0: `{0[31:16], FOPC, FPHASE, FCODE}`, 0 while FAULT = 0. -/
def faultInfoWord (s : State) : Word :=
  if s.fault then ((0 : BitVec 16) ++ (s.fopc ++ (s.fphase ++ s.fcode))).cast (by decide) else 0

/-- STATUS read while BUSY = 1 (R55): BUSY, FAULT and OVR read true, reserved bits read 0 (R53), and every
other field is the free draw `d`. -/
def busyStatusWord (s : State) (d : Word) : Word :=
  ((0 : BitVec 7) ++ (d.extractLsb' 16 9 ++ (d.extractLsb' 12 4 ++ ((0 : BitVec 1) ++ (d.extractLsb' 8 3 ++
    ((0 : BitVec 1) ++ (flagBit s.ovr ++ (d.extractLsb' 2 4 ++ (flagBit s.fault ++ flagBit s.busy))))))))).cast (by decide)

/-- FAULTINFO read while BUSY = 1 (R55): a free draw `d` but for the reserved bits, which read 0 (R53). -/
def busyFaultInfoWord (d : Word) : Word := ((0 : BitVec 16) ++ d.extractLsb' 0 16).cast (by decide)

/-- RESULT1 of CODE_READ (R51, R191): bit 31 = valid, bits 5:0 = len. -/
def codeInfoWord (e : CodeEntry) : Word := (flagBit e.valid ++ ((0 : BitVec 25) ++ e.len)).cast (by decide)

end Sys2Proof.Machine
end

