-- ==== Sys2Proof/Machine/Ops.lean ====
section
/-! DEFINITION. The shared operations: ending a command, the fault entry (60_exceptions.md rule R276),
reset (70_reset_and_hazards.md rule R300), the byte streams (20_memory.md rules R78, R79) and the bit packer
and unpacker (R82, R83). The pseudocode primitives are R13's. -/

namespace Sys2Proof.Machine

/-- How a piece of a command ends: it goes on with a value, or the command stops here, because it has
faulted (R276) or holds (R78); the state is then the one the step leaves. -/
inductive Flow (α : Type) where
  | ok (a : α) (s : State)
  | stop (s : State)

/-- `BUSY <- 0`: the command is complete (R45, R140). -/
def complete (s : State) : State := { s with busy := false, run := .start }

/-- The command keeps BUSY = 1 and stands at `p` (R45, R78, R80). -/
def hold (p : Progress) (s : State) : State := { s with busy := true, run := p }

/-- `RESULT0 <- r0; RESULT1 <- r1` (R46). -/
def setResults (r0 r1 : Word) (s : State) : State := { s with result0 := r0, result1 := r1 }

/-- `raise F(ph)`, the fault entry: the first fault is recorded, owned resources are released and the command
ends (R276). There is no vector and no handler; the way back is a reset (R277). -/
def raise (k : FaultKind) (ph : Phase) (s : State) : State :=
  { s with
    fault := true
    fcode := k.code
    fphase := ph.code
    fopc := opcField s.curCmd
    tree := none
    codesValid := false
    leavesValid := false
    busy := false
    run := .start }

/-- `Reset()` (R300), the way back from a fault: every element of R32 to its reset value; CONFIG, the streams
and CUR_CMD are unchanged. -/
def applyReset (s : State) : State :=
  { s with
    freq := Vector.replicate 256 0
    leaves := []
    leavesValid := false
    tree := none
    code := Vector.replicate 257 CodeEntry.cleared
    codesValid := false
    wrRack := 0
    wrCnt := 0
    rdByte := 0
    rdCnt := 0
    eos := false
    fault := false
    fcode := 0
    fphase := 0
    fopc := 0
    ovr := false
    busy := false
    result0 := 0
    result1 := 0
    run := .start }

/-- What a step answers once the last piece of a command has ended. -/
def finish : Flow Unit → Host.Outcome State Fault Refusal
  | .ok _ s => .next (complete s)
  | .stop s => .next s

/-- PopIn with `inq = []` (R78): an error wins over an end, and otherwise the command holds at `p`. -/
def starve (ph : Phase) (p : Progress) (s : State) : State :=
  if s.inErr then raise .ioFailure ph s
  else if s.inEnd then raise .truncated ph s
  else hold p s

/-- PopIn (R78): bytes already in `inq` are delivered before an error or an end takes effect. -/
def popIn (ph : Phase) (p : Progress) (s : State) : Flow Byte :=
  match s.inq with
  | b :: rest => .ok b { s with inq := rest }
  | [] => .stop (starve ph p s)

/-- Append one byte to OUT (R79), counting down to an `out_err` the host is about to set (R77). -/
def emit (b : Byte) (s : State) : State :=
  { s with
    outq := s.outq ++ [b]
    outErr := s.outErr || s.outErrAfter == some 0
    outErrAfter := match s.outErrAfter with
      | some (n + 1) => some n
      | _ => none }

/-- PushOut (R79). OUT is unbounded, as R81 allows (log 10). -/
def pushOut (ph : Phase) (b : Byte) (s : State) : Flow Unit :=
  if s.outErr then .stop (raise .ioFailure ph s) else .ok () (emit b s)

/-- PushOut of each byte in turn (R88). -/
def pushAll (ph : Phase) : List Byte → State → Flow Unit
  | [], s => .ok () s
  | b :: bs, s =>
    match pushOut ph b s with
    | .ok _ s1 => pushAll ph bs s1
    | .stop s1 => .stop s1

/-- The rack with bit `x` packed at the position `WR_CNT` leaves free: `WR_RACK | (x << (7 - WR_CNT))` (R82). -/
def packBit (rack : Byte) (cnt : BitVec 3) (x : Bool) : Byte :=
  rack ||| ((BitVec.ofBool x).zeroExtend 8 <<< (7 - cnt.toNat))

/-- The rack after the first two lines of PutBit: the bit is packed and `WR_CNT <- WR_CNT + 1` (R82). WR_CNT is three
bits wide (R32), so the eighth bit leaves it 0. DEDUCED (log 6). -/
def packed (x : Bool) (s : State) : State :=
  { s with wrRack := packBit s.wrRack s.wrCnt x, wrCnt := s.wrCnt + 1 }

/-- PutBit (R82). When the eighth bit's PushOut fails, WR_RACK and WR_CNT stay as the packer left them (R230, R276). -/
def putBit (ph : Phase) (x : Bool) (s : State) : Flow Unit :=
  if s.wrCnt = 7 then
    match pushOut ph (packed x s).wrRack (packed x s) with
    | .ok _ s1 => .ok () { s1 with wrRack := 0, wrCnt := 0 }
    | .stop s1 => .stop s1
  else .ok () (packed x s)

/-- PutBits (R82): the low `len` bits of `pat`, most significant first. -/
def putBits (ph : Phase) (pat : Word) : Nat → State → Flow Unit
  | 0, s => .ok () s
  | n + 1, s =>
    match putBit ph (pat.getLsbD n) s with
    | .ok _ s1 => putBits ph pat n s1
    | .stop s1 => .stop s1

/-- The part of GetBit after RD_BYTE holds a bit: `x <- RD_BYTE[RD_CNT - 1]; RD_CNT <- RD_CNT - 1` (R83). -/
def takeBit (s : State) : Flow Bool :=
  .ok (s.rdByte.getLsbD (s.rdCnt.toNat - 1)) { s with rdCnt := s.rdCnt - 1 }

/-- GetBit (R83): a fresh byte is popped when the current one is exhausted. -/
def getBit (ph : Phase) (p : Progress) (s : State) : Flow Bool :=
  if s.rdCnt = 0 then
    match popIn ph p s with
    | .ok b s1 => takeBit { s1 with rdByte := b, rdCnt := 8 }
    | .stop s1 => .stop s1
  else takeBit s

end Sys2Proof.Machine
end

