-- ==== Sys2Proof/Machine/CodeTable.lean ====
section
/-! DEFINITION. The code table deriver (43_code_table.md rules R190 to R199). -/

namespace Sys2Proof.Machine

/-- The greatest leaf depth (R193). -/
def treeDepth : Tree → Nat
  | .leaf _ _ => 0
  | .internal _ c0 c1 => 1 + max (treeDepth c0) (treeDepth c1)

/-- Derive (R192): pre-order, child0 first; a write replaces whatever the entry held. -/
def derive : Tree → Word → BitVec 6 → Vector CodeEntry 257 → Vector CodeEntry 257
  | .leaf s _, pat, len, code => codeSet code s { valid := true, pat := pat, len := len }
  | .internal _ c0 c1, pat, len, code =>
    derive c1 ((pat <<< 1) ||| 1) (len + 1) (derive c0 (pat <<< 1) (len + 1) code)

/-- CODE after CODE_DERIVE of `t` (R190): every entry is cleared first. -/
def deriveTable (t : Tree) : Vector CodeEntry 257 := derive t 0 0 (Vector.replicate 257 CodeEntry.cleared)

/-- The number of valid entries (R190). -/
def validCount (code : Vector CodeEntry 257) : Nat := code.toList.countP (·.valid)

/-- The largest code length of a valid entry (R190). -/
def longestCode (code : Vector CodeEntry 257) : Nat :=
  code.toList.foldl (fun m e => if e.valid then max m e.len.toNat else m) 0

/-- CODE_DERIVE (R190): the depth is checked before anything is written, and nothing is truncated (R194). -/
def execCodeDerive (s : State) : Host.Outcome State Fault Refusal :=
  match s.tree with
  | none => .next (raise .sequenceError .codeDerive s)
  | some t =>
    if Config.maxCodeLen < treeDepth t then .next (raise .unsupportedDistribution .codeDerive s)
    else
      .next (complete (setResults (BitVec.ofNat 32 (validCount (deriveTable t)))
        (BitVec.ofNat 32 (longestCode (deriveTable t))) { s with code := deriveTable t, codesValid := true }))

/-- CODE_READ (R191). There is no CODES_VALID precondition. A symbol past 256 is no command's operand (R104);
such a term, which the decoder never gives, takes the illegal command's fault (R108; log 16). -/
def execCodeRead (sym : Sym) (s : State) : Host.Outcome State Fault Refusal :=
  if Sym.inTable sym then
    .next (complete (setResults (codeAt s.code sym).pat (codeInfoWord (codeAt s.code sym)) s))
  else .next (raise .illegalCommand .command s)

end Sys2Proof.Machine
end

