-- ==== Sys2Proof/Machine/Control.lean ====
section
/-! DEFINITION. The control commands (40_control.md rules R141, R142). -/

namespace Sys2Proof.Machine

/-- NOP (R141): BUSY goes 1 then 0, and nothing else changes. -/
def execNop (s : State) : Host.Outcome State Fault Refusal := .next (complete s)

/-- SOFT_RESET (R142): Reset, then BUSY <- 0. The streams are unchanged. -/
def execSoftReset (s : State) : Host.Outcome State Fault Refusal := .next (complete (applyReset s))

end Sys2Proof.Machine
end

