-- ==== Sys2Proof/Machine/DecoderStreamer.lean ====
section
/-! DEFINITION. The decoder streamer (46_decoder_streamer.md rules R250 to R258). -/

namespace Sys2Proof.Machine

/-- DecodeOne from a node (R251): 0 descends to child0, 1 to child1. `at_ n` is where the command stands if it
has to wait for a byte at the internal node `n` (R78). -/
def walk (at_ : Tree → Progress) : Tree → State → Flow Sym
  | .leaf sym _, s => .ok sym s
  | .internal w c0 c1, s =>
    match getBit .bitDecode (at_ (.internal w c0 c1)) s with
    | .ok true s1 => walk at_ c1 s1
    | .ok false s1 => walk at_ c0 s1
    | .stop s1 => .stop s1

/-- DEC_SYMBOL once DecodeOne has ended (R250). -/
def symbolDone (r : Flow Sym) : Host.Outcome State Fault Refusal :=
  match r with
  | .stop s => .next s
  | .ok sym s =>
    if sym = s.params.eofSym then
      .next (complete { s with result0 := sym.zeroExtend 32, eos := true })
    else finish (pushOut .bitDecode (symByte sym) { s with result0 := sym.zeroExtend 32 })

/-- DEC_SYMBOL (R250). -/
def execDecSymbol (s : State) : Host.Outcome State Fault Refusal :=
  match s.tree with
  | none => .next (raise .sequenceError .bitDecode s)
  | some t =>
    if s.eos then .next (raise .sequenceError .bitDecode s) else symbolDone (walk .decSymbol t s)

/-- DEC_SYMBOL resumes at the node where it waited for a byte (R80). -/
def resumeSymbol (node : Tree) (s : State) : Host.Outcome State Fault Refusal :=
  symbolDone (walk .decSymbol node s)

/-- `RESULT0 <- RESULT0 + 1` (R257); past 2^32 - 1 the sum does not fit and is a free value (log 7). -/
def countOutput (s : State) : State :=
  if s.result0 = BitVec.allOnes 32 then
    { s with result0 := Config.freeCount s.draws, draws := s.draws + 1 }
  else { s with result0 := s.result0 + 1 }

/-- One turn of DEC_STREAM's loop once DecodeOne has ended (R257). After a pushed byte the command stands at the
head of its loop and goes on in the block's next turn, as R80 allows. -/
def streamDone (r : Flow Sym) : Host.Outcome State Fault Refusal :=
  match r with
  | .stop s => .next s
  | .ok sym s =>
    if sym = s.params.eofSym then .next (complete { s with eos := true })
    else
      match pushOut .bitDecode (symByte sym) s with
      | .ok _ s1 => .next (hold .streamNext (countOutput s1))
      | .stop s1 => .next s1

/-- DEC_STREAM (R257): the preconditions, `RESULT0 <- 0`, and the first turn of the loop. -/
def execDecStream (s : State) : Host.Outcome State Fault Refusal :=
  match s.tree with
  | none => .next (raise .sequenceError .bitDecode s)
  | some t =>
    if s.eos then .next (raise .sequenceError .bitDecode s)
    else streamDone (walk .streamAt t { s with result0 := 0 })

/-- DEC_STREAM's next turn, from the head of its loop (R257). -/
def resumeStreamNext (s : State) : Host.Outcome State Fault Refusal :=
  match s.tree with
  | none => .fault .lostTree
  | some t => streamDone (walk .streamAt t s)

/-- DEC_STREAM resumes at the node where it waited for a byte (R80). -/
def resumeStreamAt (node : Tree) (s : State) : Host.Outcome State Fault Refusal :=
  streamDone (walk .streamAt node s)

end Sys2Proof.Machine
end

