-- ==== Sys2Proof/Machine/EncoderStreamer.lean ====
section
/-! DEFINITION. The encoder streamer (45_encoder_streamer.md rules R230 to R235). -/

namespace Sys2Proof.Machine

/-- Write the code of symbol `sym` (R230, R231): both preconditions come before any bit is packed (R274). -/
def encodeSym (sym : Sym) (s : State) : Host.Outcome State Fault Refusal :=
  if s.codesValid then
    if (codeAt s.code sym).valid then
      finish (putBits .bitEncode (codeAt s.code sym).pat (codeAt s.code sym).len.toNat s)
    else .next (raise .symbolNotInTree .bitEncode s)
  else .next (raise .sequenceError .bitEncode s)

/-- ENC_BYTE (R230). RESULT registers are unchanged. -/
def execEncByte (b : Byte) (s : State) : Host.Outcome State Fault Refusal := encodeSym (byteSym b) s

/-- ENC_EOF (R231). It does not flush. -/
def execEncEof (s : State) : Host.Outcome State Fault Refusal := encodeSym s.params.eofSym s

/-- ENC_FLUSH (R232): a partly filled rack goes out with its low bits 0; on IO_FAILURE the rack is unchanged. -/
def execEncFlush (s : State) : Host.Outcome State Fault Refusal :=
  if s.wrCnt = 0 then .next (complete s)
  else
    match pushOut .flush s.wrRack s with
    | .ok _ s1 => .next (complete { s1 with wrRack := 0, wrCnt := 0 })
    | .stop s1 => .next s1

end Sys2Proof.Machine
end

