-- ==== Sys2Proof/Machine/FrequencyAccumulator.lean ====
section
/-! DEFINITION. The frequency accumulator (41_frequency_accumulator.md rules R150 to R158). -/

namespace Sys2Proof.Machine

/-- The scaling map of a nonzero count: `(c + 1) div 2` (R151, R12); a zero count stays 0. -/
def scaleCount (c : Word) : Word := if c = 0 then 0 else (c + 1) / 2

/-- `FREQ[b] <- FREQ[b] + 1` (R151). -/
def bump (freq : Vector Word 256) (b : Byte) : Vector Word 256 := freqSet freq b (freqAt freq b + 1)

/-- Scaling fires when the incremented count is exactly 256 (R151). -/
def scalingFires (freq : Vector Word 256) (b : Byte) : Bool := freqAt freq b + 1 == 256

/-- FREQ after counting one byte: the increment and the global rescale it may trigger are one mutation
(R151, R157). -/
def countByte (freq : Vector Word 256) (b : Byte) : Vector Word 256 :=
  if scalingFires freq b then mapTable scaleCount (bump freq b) else bump freq b

/-- FREQ_CLEAR (R150). -/
def execFreqClear (s : State) : Host.Outcome State Fault Refusal :=
  .next (complete { s with freq := Vector.replicate 256 0 })

/-- FREQ_ACCUM (R151): RESULT0 is the new count, RESULT1 whether scaling fired. -/
def execFreqAccum (b : Byte) (s : State) : Host.Outcome State Fault Refusal :=
  .next (complete (setResults (freqAt (countByte s.freq b) b) ((flagBit (scalingFires s.freq b)).zeroExtend 32)
    { s with freq := countByte s.freq b }))

/-- FREQ_READ (R152): RESULT0 only. -/
def execFreqRead (b : Byte) (s : State) : Host.Outcome State Fault Refusal :=
  .next (complete { s with result0 := freqAt s.freq b })

end Sys2Proof.Machine
end

