-- ==== Sys2Proof/Machine/HeaderCodec.lean ====
section
/-! DEFINITION. The frequency header codec (44_header_codec.md rules R210 to R216; the format is 30_encoding.md
rule R121). -/

namespace Sys2Proof.Machine

/-- The pairs of the header: `(FREQ[s][7:0], s)` for every `s` in ascending order with `FREQ[s] > 0` (R210). -/
def headerPairs (freq : Vector Word 256) : List (Byte × Byte) :=
  (List.range 256).filterMap fun k =>
    if freqAt freq (BitVec.ofNat 8 k) = 0 then none
    else some ((freqAt freq (BitVec.ofNat 8 k)).truncate 8, BitVec.ofNat 8 k)

/-- The bytes of a header: each pair's count, then its symbol; the sentinel last (R121, R210). -/
def headerBytes (pairs : List (Byte × Byte)) : List Byte :=
  pairs.flatMap (fun p => [p.1, p.2]) ++ [0]

/-- HDR_EMIT (R210): header bytes do not pass through the packer, so the rack must be empty (R86). -/
def execHdrEmit (s : State) : Host.Outcome State Fault Refusal :=
  if s.wrCnt = 0 then
    match pushAll .headerWrite (headerBytes (headerPairs s.freq)) s with
    | .ok _ s1 =>
      .next (complete (setResults (BitVec.ofNat 32 (headerPairs s.freq).length)
        (BitVec.ofNat 32 (2 * (headerPairs s.freq).length + 1)) s1))
    | .stop s1 => .next s1
  else .next (raise .sequenceError .headerWrite s)

/-- How HDR_PARSE's loop (R211) leaves the bytes at hand: LEAVES, the bytes popped so far, what is left of IN. -/
inductive HdrScan where
  /-- the sentinel was popped -/
  | sentinel (leaves : List LeafEntry) (nbytes : Nat) (rest : List Byte)
  /-- a nonzero count byte was popped with LEAVES full -/
  | overflow (leaves : List LeafEntry) (rest : List Byte)
  /-- IN ran out where a count byte is expected -/
  | wantCount (leaves : List LeafEntry) (nbytes : Nat)
  /-- IN ran out where the symbol byte of the pair counted `count` is expected -/
  | wantSym (leaves : List LeafEntry) (count : Byte) (nbytes : Nat)
  deriving DecidableEq, Repr

/-- `(s, c)` as HDR_PARSE stores it (R211). -/
def parsedLeaf (sym count : Byte) : LeafEntry := { sym := sym, weight := count.zeroExtend 32 }

/-- The loop of HDR_PARSE (R211) over the bytes of IN, from a count byte on. -/
def scanHeader : List Byte → List LeafEntry → Nat → HdrScan
  | [], leaves, n => .wantCount leaves n
  | c :: rest, leaves, n =>
    if c = 0 then .sentinel leaves (n + 1) rest
    else if leaves.length = Config.maxHdrPairs then .overflow leaves rest
    else
      match rest with
      | [] => .wantSym leaves c (n + 1)
      | sym :: rest1 => scanHeader rest1 (leaves ++ [parsedLeaf sym c]) (n + 2)

/-- The state HDR_PARSE leaves once its loop has used the bytes at hand (R211, R78). -/
def settleScan (r : HdrScan) (s : State) : State :=
  match r with
  | .sentinel leaves n rest =>
    complete (setResults (BitVec.ofNat 32 leaves.length) (BitVec.ofNat 32 n)
      { s with inq := rest, leaves := leaves, leavesValid := true })
  | .overflow leaves rest => raise .headerOverflow .headerRead { s with inq := rest, leaves := leaves }
  | .wantCount leaves n => starve .headerRead (.hdrCount n) { s with inq := [], leaves := leaves }
  | .wantSym leaves c n => starve .headerRead (.hdrSym c n) { s with inq := [], leaves := leaves }

/-- HDR_PARSE (R211): unconsumed bits are discarded, the tree is released, and the loop starts. -/
def execHdrParse (s : State) : Host.Outcome State Fault Refusal :=
  .next (settleScan (scanHeader s.inq [] 0)
    { s with rdCnt := 0, tree := none, eos := false, leaves := [], leavesValid := false })

/-- HDR_PARSE resumes where it waited for a count byte (R80). -/
def resumeHdrCount (n : Nat) (s : State) : Host.Outcome State Fault Refusal :=
  .next (settleScan (scanHeader s.inq s.leaves n) s)

/-- HDR_PARSE resumes where it waited for the symbol byte of a pair (R80). -/
def resumeHdrSym (c : Byte) (n : Nat) (s : State) : Host.Outcome State Fault Refusal :=
  match s.inq with
  | [] => .next (starve .headerRead (.hdrSym c n) s)
  | sym :: rest => .next (settleScan (scanHeader rest (s.leaves ++ [parsedLeaf sym c]) (n + 1)) s)

/-- LEAF_READ (R214): an index past the end reads weight 0 and symbol 0. -/
def execLeafRead (i : Byte) (s : State) : Host.Outcome State Fault Refusal :=
  if s.leavesValid then
    match leafAt s.leaves i with
    | some l => .next (complete (setResults l.weight (l.sym.zeroExtend 32) s))
    | none => .next (complete (setResults 0 0 s))
  else .next (raise .sequenceError .headerRead s)

end Sys2Proof.Machine
end

