-- ==== Sys2Proof/Machine/TreeBuilder.lean ====
section
/-! DEFINITION. The tree builder (42_tree_builder.md rules R170 to R187). -/

namespace Sys2Proof.Machine

/-- The weight field of either form of a tree (R14). -/
def treeWeight : Tree → Word
  | .leaf _ w => w
  | .internal w _ _ => w

/-- FreqLeaves (R171): the symbols with a nonzero count, in ascending order. -/
def freqLeaves (freq : Vector Word 256) : List LeafEntry :=
  (List.range 256).filterMap fun k =>
    if freqAt freq (BitVec.ofNat 8 k) = 0 then none
    else some { sym := BitVec.ofNat 8 k, weight := freqAt freq (BitVec.ofNat 8 k) }

/-- A priority-queue entry (R172): the insertion sequence number and a tree. -/
structure QEntry where
  seq : Nat
  tree : Tree
  deriving DecidableEq, Repr

/-- `(weight, seq)` of `a` is lexicographically below that of `b` (R173). -/
def QEntry.before (a b : QEntry) : Bool :=
  decide ((treeWeight a.tree).toNat < (treeWeight b.tree).toNat) ||
    (treeWeight a.tree == treeWeight b.tree && decide (a.seq < b.seq))

/-- ExtractMin of a queue given as a first entry and the others (R173): the entry with the least key, and
what is left. -/
def extractMin (e : QEntry) : List QEntry → QEntry × List QEntry
  | [] => (e, [])
  | e1 :: q =>
    let (m, rest) := extractMin e1 q
    if e.before m then (e, e1 :: q) else (m, e :: rest)

/-- The merge loop (R172) of a queue given as a first entry and the others. A queue of n + 1 entries takes n
merges (R178), so the first argument, the length of the rest, counts them down. -/
def mergeLoop : Nat → Nat → QEntry → List QEntry → Tree
  | 0, _, e, _ => e.tree
  | n + 1, seq, e, q =>
    match extractMin e q with
    | (a, []) => a.tree
    | (a, e1 :: q1) =>
      let (b, q2) := extractMin e1 q1
      let m : QEntry :=
        { seq := seq, tree := .internal (treeWeight a.tree + treeWeight b.tree) a.tree b.tree }
      match q2 with
      | [] => m.tree
      | e2 :: q3 => mergeLoop n (seq + 1) e2 (q3 ++ [m])

/-- The leaf of a LEAVES entry (R172). -/
def leafNode (l : LeafEntry) : Tree := .leaf (byteSym l.sym) l.weight

/-- The end-of-stream node: weight fixed at 1 (R172). -/
def eofNode (eof : Sym) : Tree := .leaf eof 1

/-- The initial queue of BuildTree (R172): the leaves in list order, the end-of-stream node last, numbered
from `seq`. -/
def initialQueue (eof : Sym) : Nat → List LeafEntry → List QEntry
  | seq, [] => [{ seq := seq, tree := eofNode eof }]
  | seq, l :: ls => { seq := seq, tree := leafNode l } :: initialQueue eof (seq + 1) ls

/-- BuildTree (R172). -/
def buildTree (eof : Sym) (leaves : List LeafEntry) : Tree :=
  match initialQueue eof 0 leaves with
  | [] => eofNode eof
  | e :: q => mergeLoop q.length (leaves.length + 1) e q

/-- The part of TREE_BUILD after LEAVES is settled (R170). -/
def buildFrom (s : State) : State :=
  setResults (treeWeight (buildTree s.params.eofSym s.leaves)) (BitVec.ofNat 32 (s.leaves.length + 1))
    { s with
      tree := some (buildTree s.params.eofSym s.leaves)
      code := Vector.replicate 257 CodeEntry.cleared
      codesValid := false
      eos := false }

/-- TREE_BUILD (R170). -/
def execTreeBuild (src : TreeSource) (s : State) : Host.Outcome State Fault Refusal :=
  match src with
  | .hdr =>
    if s.leavesValid then .next (complete (buildFrom s)) else .next (raise .sequenceError .treeBuild s)
  | .freq => .next (complete (buildFrom { s with leaves := freqLeaves s.freq, leavesValid := true }))

/-- TREE_RELEASE (R174): CODE, CODES_VALID, LEAVES, LEAVES_VALID and EOS are unchanged. -/
def execTreeRelease (s : State) : Host.Outcome State Fault Refusal := .next (complete { s with tree := none })

end Sys2Proof.Machine
end

