-- ==== Sys2Proof/Machine/Dispatch.lean ====
section
/-! DEFINITION. The meaning of each command, one arm per constructor of `Instr` (40_control.md rule R140, "run
the rule of d with its operand"). -/

namespace Sys2Proof.Machine

def exec (i : Instr) (s : State) : Host.Outcome State Fault Refusal :=
  match i with
  | .nop => Sys2Proof.Machine.execNop s
  | .softReset => Sys2Proof.Machine.execSoftReset s
  | .freqClear => Sys2Proof.Machine.execFreqClear s
  | .freqAccum b => Sys2Proof.Machine.execFreqAccum b s
  | .freqRead b => Sys2Proof.Machine.execFreqRead b s
  | .treeBuild src => Sys2Proof.Machine.execTreeBuild src s
  | .treeRelease => Sys2Proof.Machine.execTreeRelease s
  | .codeDerive => Sys2Proof.Machine.execCodeDerive s
  | .codeRead sym => Sys2Proof.Machine.execCodeRead sym s
  | .hdrEmit => Sys2Proof.Machine.execHdrEmit s
  | .hdrParse => Sys2Proof.Machine.execHdrParse s
  | .leafRead idx => Sys2Proof.Machine.execLeafRead idx s
  | .encByte b => Sys2Proof.Machine.execEncByte b s
  | .encEof => Sys2Proof.Machine.execEncEof s
  | .encFlush => Sys2Proof.Machine.execEncFlush s
  | .decSymbol => Sys2Proof.Machine.execDecSymbol s
  | .decStream => Sys2Proof.Machine.execDecStream s

end Sys2Proof.Machine
end

