-- ==== Sys2Proof/Machine/HostBus.lean ====
section
/-! DEFINITION. What the host does: the register window (10_state.md rules R47 to R55, 20_memory.md rules R71 to
R73), the streams (R76, R77, R303) and the hardware reset input (R300). -/

namespace Sys2Proof.Machine

/-- The access lies in the register window `P_REG_BASE .. P_REG_BASE + 0xFF` (R71). -/
def inWindow (p : Params) (addr : Nat) : Bool := decide (p.regBase ≤ addr) && decide (addr < p.regBase + 256)

/-- The offset of a bus address in the window (R47). -/
def windowOffset (p : Params) (addr : Nat) : Nat := addr - p.regBase

/-- 32 bits wide at a multiple of 4 (R72). -/
def supportedAccess (offset width : Nat) : Bool := width == 32 && offset % 4 == 0

/-- A register read of a field that is unspecified while BUSY = 1 draws a free value (R55). -/
def drawRead (f : Word → Word) (s : State) : State :=
  { s with readData := some (f (Config.freeRead s.draws)), draws := s.draws + 1 }

/-- The read returns `w`; it has no other effect (R73). -/
def returnRead (w : Word) (s : State) : State := { s with readData := some w }

/-- A read of the register at an aligned offset (R47 to R55): a read of CMD or of a reserved offset returns 0. -/
def readRegister (offset : Nat) (s : State) : State :=
  match offset with
  | 0x00 => returnRead (configWord s.params) s
  | 0x04 => returnRead 0 s
  | 0x08 => if s.busy then drawRead (busyStatusWord s) s else returnRead (statusWord s) s
  | 0x0C => if s.busy then drawRead id s else returnRead s.result0 s
  | 0x10 => if s.busy then drawRead id s else returnRead s.result1 s
  | 0x14 => if s.busy then drawRead busyFaultInfoWord s else returnRead (faultInfoWord s) s
  | _ => returnRead 0 s

/-- `CUR_CMD <- value; BUSY <- 1`: the word is accepted, and the block's next turn executes it (R49). -/
def acceptCommand (w : Word) (s : State) : State := { s with curCmd := w, busy := true, run := .start }

/-- A write to CMD (R49): with BUSY = 1 the word is discarded and OVR is set (R44, R280). -/
def writeCommand (w : Word) (s : State) : State :=
  if s.busy then { s with ovr := true } else acceptCommand w s

/-- A write to the register at an aligned offset: only CMD is writable, other writes are ignored (R53, R54). -/
def writeRegister (offset : Nat) (w : Word) (s : State) : State :=
  match offset with
  | 0x04 => writeCommand w s
  | _ => s

/-- A bus access: refused outside the window, or of a width or alignment the block gives no meaning (R71, R72). -/
def busAccess (addr width : Nat) (f : Nat → State → State) (s : State) : Host.Outcome State Fault Refusal :=
  if inWindow s.params addr then
    if supportedAccess (windowOffset s.params addr) width then .next (f (windowOffset s.params addr) s)
    else .refused .unsupportedAccess
  else .refused .outsideWindow

/-- The host sets `out_err` at once, or once `n` more bytes have been pushed (R77; log 9). -/
def scheduleOutErr (n : Nat) (s : State) : State :=
  match n with
  | 0 => { s with outErr := true, outErrAfter := none }
  | k + 1 => { s with outErrAfter := some k }

/-- One host action. -/
def hostTurn (a : HostAction) (s : State) : Host.Outcome State Fault Refusal :=
  match a with
  | .read addr width => busAccess addr width readRegister s
  | .write addr width data => busAccess addr width (fun offset => writeRegister offset data) s
  | .appendIn bytes => if s.inEnd then .refused .appendAfterEnd else .next { s with inq := s.inq ++ bytes }
  | .endIn => .next { s with inEnd := true }
  | .errIn => .next { s with inErr := true }
  | .takeOut n => .next { s with outq := s.outq.drop n }
  | .errOut n => .next (scheduleOutErr n s)
  | .giveIn bytes ended =>
    if s.busy then .refused .streamGivenWhileBusy
    else .next { s with inq := bytes, inEnd := ended, inErr := false }
  | .giveOut =>
    if s.busy then .refused .streamGivenWhileBusy
    else .next { s with outq := [], outErr := false, outErrAfter := none }
  | .resetInput => .next (applyReset s)

end Sys2Proof.Machine
end

