-- ==== Sys2Proof/Machine/Sequencer.lean ====
section
/-! DEFINITION. Command dispatch (40_control.md rule R140), the block's turns and the machine's turns (00_scope.md
rule R17). -/

namespace Sys2Proof.Machine

/-- The only word honoured while FAULT = 1: SOFT_RESET's (R140, R277). -/
def softResetWord : Word := 0x02000000

/-- `Execute(w)` of the accepted word (R140; log 17). -/
def dispatch (s : State) : Host.Outcome State Fault Refusal :=
  if s.fault && s.curCmd != softResetWord then .next (complete s)
  else
    match decode s.curCmd with
    | .error _ => .next (raise .illegalCommand .command s)
    | .ok i => exec i s

/-- The block's turn: an accepted word is dispatched, a command in progress goes on where it stands (R80), and
with BUSY = 0 the block is idle and holds all state (R287). -/
def blockTurn (s : State) : Host.Outcome State Fault Refusal :=
  if s.busy then
    match s.run with
    | .start => dispatch s
    | .hdrCount n => resumeHdrCount n s
    | .hdrSym c n => resumeHdrSym c n s
    | .decSymbol node => resumeSymbol node s
    | .streamNext => resumeStreamNext s
    | .streamAt node => resumeStreamAt node s
  else .next s

/-- The machine's next turn: the agenda's first entry, or the block's turn once the agenda is empty, so that a
block step that stays enabled is eventually taken (R314). -/
def turn (s : State) : Host.Outcome State Fault Refusal :=
  match s.agenda with
  | [] => blockTurn s
  | .block :: rest => blockTurn { s with agenda := rest }
  | .host a :: rest => hostTurn a { s with agenda := rest }

/-- The agenda with the block's turn next. An empty agenda has it next already. -/
def blockNext : List Turn → List Turn
  | [] => []
  | t :: ts => .block :: t :: ts

end Sys2Proof.Machine
end

