-- ==== Sys2Proof/Machine/Step.lean ====
section
/-! DEFINITION. One step of the machine, and the state in which a given command word runs next. -/

namespace Sys2Proof.Machine

/-- One step: a turn of the block or of the host (R17). -/
def step (s : State) : Host.Outcome State Fault Refusal := turn s

/-- `s` with a command word accepted (R49) and the block's turn next, so that the next step executes exactly that
word. The block fetches nothing (R31): this stands for the host's write to CMD (log 1). -/
def State.withFetchWord (s : State) (nbits w : Nat) : State :=
  { acceptCommand (tableWord nbits w) s with agenda := blockNext s.agenda }

end Sys2Proof.Machine
end

