-- ==== Sys2Proof/Machine/Assembler.lean ====
section
/-! DEFINITION. The assembler's view of the commands: the syntax of a line (30_encoding.md rule R111), the
pseudo-instructions (R112) and the two run sequences (70_reset_and_hazards.md rules R304, R305). -/

namespace Sys2Proof.Machine

/-- The pseudo-instructions (R112); they have no opcode of their own. -/
inductive Pseudo where
  | count (bs : List Byte)
  | encodeBytes (bs : List Byte)
  | prepareEncode
  | finishEncode
  | expand
  | compress (bs : List Byte)
  deriving DecidableEq, Repr

/-- `COUNT` (R112). -/
def countPass (bs : List Byte) : List Instr := bs.map .freqAccum

/-- `ENCODE` (R112). -/
def emitPass (bs : List Byte) : List Instr := bs.map .encByte

/-- `PREPARE_ENCODE` (R112). -/
def prepareEncode : List Instr := [.treeBuild .freq, .hdrEmit, .codeDerive, .treeRelease]

/-- `FINISH_ENCODE` (R112). -/
def finishEncode : List Instr := [.encEof, .encFlush]

/-- `EXPAND` (R112), the expansion run of R305 with its optional TREE_RELEASE. -/
def expandRun : List Instr := [.hdrParse, .treeBuild .hdr, .decStream, .treeRelease]

/-- `COMPRESS` (R112), the compression run of R304 with its optional commands. -/
def compressRun (bs : List Byte) : List Instr :=
  .freqClear :: (countPass bs ++ prepareEncode ++ emitPass bs ++ finishEncode)

/-- The commands a pseudo-instruction stands for (R112). -/
def expansion : Pseudo → List Instr
  | .count bs => countPass bs
  | .encodeBytes bs => emitPass bs
  | .prepareEncode => prepareEncode
  | .finishEncode => finishEncode
  | .expand => expandRun
  | .compress bs => compressRun bs

/-- The mnemonics (R107). -/
def mnemonics : List (List Char × Opcode) :=
  [("NOP".toList, .nop), ("SOFT_RESET".toList, .softReset), ("FREQ_CLEAR".toList, .freqClear),
    ("FREQ_ACCUM".toList, .freqAccum), ("FREQ_READ".toList, .freqRead), ("TREE_BUILD".toList, .treeBuild),
    ("TREE_RELEASE".toList, .treeRelease), ("CODE_DERIVE".toList, .codeDerive), ("CODE_READ".toList, .codeRead),
    ("HDR_EMIT".toList, .hdrEmit), ("HDR_PARSE".toList, .hdrParse), ("LEAF_READ".toList, .leafRead),
    ("ENC_BYTE".toList, .encByte), ("ENC_EOF".toList, .encEof), ("ENC_FLUSH".toList, .encFlush),
    ("DEC_SYMBOL".toList, .decSymbol), ("DEC_STREAM".toList, .decStream)]

/-- An operand as it is written (R111). -/
inductive Operand where
  | num (n : Nat)
  | chr (c : Char)
  | eof
  | freq
  | hdr
  deriving DecidableEq, Repr

/-- The value of a digit, in decimal or hexadecimal. -/
def digitValue (hex : Bool) (c : Char) : Option Nat :=
  if '0' ≤ c ∧ c ≤ '9' then some (c.toNat - '0'.toNat)
  else if hex then
    if 'a' ≤ c ∧ c ≤ 'f' then some (c.toNat - 'a'.toNat + 10)
    else if 'A' ≤ c ∧ c ≤ 'F' then some (c.toNat - 'A'.toNat + 10)
    else none
  else none

/-- The number a nonempty row of digits stands for, after the value `acc` of the digits before it. -/
def digitsValue (hex : Bool) (acc : Nat) : List Char → Option Nat
  | [] => some acc
  | c :: cs =>
    match digitValue hex c with
    | some d => digitsValue hex ((if hex then 16 else 10) * acc + d) cs
    | none => none

/-- A word that is an operand: a number (decimal, or hexadecimal after `0x`), `EOF`, `freq` or `hdr` (R111). -/
def wordOperand (w : List Char) : Option Operand :=
  if w = "EOF".toList then some .eof
  else if w = "freq".toList then some .freq
  else if w = "hdr".toList then some .hdr
  else
    match w with
    | [] => none
    | '0' :: 'x' :: [] => none
    | '0' :: 'x' :: ds => (digitsValue true 0 ds).map .num
    | ds => (digitsValue false 0 ds).map .num

/-- A character a word is made of. -/
def wordChar (c : Char) : Bool := c.isAlphanum || c == '_'

/-- Blank space between words; the spec gives none but the blank. DESIGN CHOICE (log 11). -/
def dropBlanks (cs : List Char) : List Char := cs.dropWhile fun c => c == ' ' || c == '\t'

/-- The first operand of a row of characters, and the rest. A character literal is `'A'` (R111). -/
def firstOperand (cs : List Char) : Option (Operand × List Char) :=
  match cs with
  | '\'' :: c :: '\'' :: rest => some (.chr c, rest)
  | _ => (wordOperand (cs.takeWhile wordChar)).map fun o => (o, cs.dropWhile wordChar)

/-- The operands of a line, separated by commas, up to its end or its comment (R111, R112). The first argument
bounds their number by the length of the line. -/
def operands : Nat → List Char → Option (List Operand)
  | 0, _ => none
  | n + 1, cs =>
    match firstOperand (dropBlanks cs) with
    | none => none
    | some (o, rest) =>
      match dropBlanks rest with
      | [] => some [o]
      | ';' :: _ => some [o]
      | ',' :: more => (operands n more).map (o :: ·)
      | _ => none

/-- A B-format operand: a number 0..255 or a character's ASCII byte (R111). -/
def byteOperand : Operand → Option Byte
  | .num n => if n < 256 then some (BitVec.ofNat 8 n) else none
  | .chr c => if c.toNat < 128 then some (BitVec.ofNat 8 c.toNat) else none
  | .eof => none
  | .freq => none
  | .hdr => none

/-- An S-format operand: a number 0..256, or `EOF`, meaning `P_EOF_SYM` (R111). A character literal is read as
in format B: the spec's vectors write `CODE_READ 'A'`. DEDUCED (log 11). -/
def symOperand (p : Params) : Operand → Option Sym
  | .num n => if n ≤ 256 then some (BitVec.ofNat 9 n) else none
  | .chr c => if c.toNat < 128 then some (BitVec.ofNat 9 c.toNat) else none
  | .eof => some p.eofSym
  | .freq => none
  | .hdr => none

/-- A T-format operand (R111). -/
def srcOperand : Operand → Option TreeSource
  | .freq => some .freq
  | .hdr => some .hdr
  | .num _ => none
  | .chr _ => none
  | .eof => none

/-- The command with a given opcode and operands (R111). -/
def command (p : Params) (op : Opcode) (os : List Operand) : Option Instr :=
  match op, os with
  | .nop, [] => some .nop
  | .softReset, [] => some .softReset
  | .freqClear, [] => some .freqClear
  | .freqAccum, [o] => (byteOperand o).map .freqAccum
  | .freqRead, [o] => (byteOperand o).map .freqRead
  | .treeBuild, [o] => (srcOperand o).map .treeBuild
  | .treeRelease, [] => some .treeRelease
  | .codeDerive, [] => some .codeDerive
  | .codeRead, [o] => (symOperand p o).map .codeRead
  | .hdrEmit, [] => some .hdrEmit
  | .hdrParse, [] => some .hdrParse
  | .leafRead, [o] => (byteOperand o).map .leafRead
  | .encByte, [o] => (byteOperand o).map .encByte
  | .encEof, [] => some .encEof
  | .encFlush, [] => some .encFlush
  | .decSymbol, [] => some .decSymbol
  | .decStream, [] => some .decStream
  | _, _ => none

/-- The byte operands of a pseudo-instruction (R112). -/
def byteOperands : List Operand → Option (List Byte)
  | [] => some []
  | o :: os =>
    match byteOperand o, byteOperands os with
    | some b, some bs => some (b :: bs)
    | _, _ => none

/-- The pseudo-instruction a word names, with its operands (R112). -/
def pseudoOf (w : List Char) (os : List Operand) : Option Pseudo :=
  if w = "COUNT".toList then (byteOperands os).map .count
  else if w = "ENCODE".toList then (byteOperands os).map .encodeBytes
  else if w = "COMPRESS".toList then (byteOperands os).map .compress
  else if w = "PREPARE_ENCODE".toList ∧ os = [] then some .prepareEncode
  else if w = "FINISH_ENCODE".toList ∧ os = [] then some .finishEncode
  else if w = "EXPAND".toList ∧ os = [] then some .expand
  else none

/-- The commands of one line (R111, R112): none for a blank line or a comment, one for a command, the expansion
for a pseudo-instruction; `none` where the line is not in the syntax. -/
def assembleLine (p : Params) (line : List Char) : Option (List Instr) :=
  let cs := dropBlanks line
  let word := cs.takeWhile wordChar
  let rest := dropBlanks (cs.dropWhile wordChar)
  let args : Option (List Operand) :=
    match rest with
    | [] => some []
    | ';' :: _ => some []
    | _ => operands rest.length rest
  match word, args with
  | [], some [] => some []
  | _, none => none
  | w, some os =>
    match mnemonics.lookup w with
    | some op => (command p op os).map ([·])
    | none => (pseudoOf w os).map expansion

end Sys2Proof.Machine
end

