-- ==== Sys2Proof/Safety.lean ====
section
/-! DEFINITION. The terms claims are stated in: what the spec calls a code, a payload's bits, a legal word, a
clean launch and a successful run, and the invariant of the machine. Nothing here is used by the machine. -/

namespace Sys2Proof.Machine

/-! Trees and codes -/

/-- The leaves of a tree, child0's before child1's: symbol and weight (R36, R178). -/
def treeLeaves : Tree → List (Sym × Word)
  | .leaf s w => [(s, w)]
  | .internal _ c0 c1 => treeLeaves c0 ++ treeLeaves c1

/-- The number of internal nodes (R37, R178). -/
def internalCount : Tree → Nat
  | .leaf _ _ => 0
  | .internal _ c0 c1 => internalCount c0 + internalCount c1 + 1

/-- Every internal node's weight is the sum of its children's weights (R37). -/
def WeightsAdd : Tree → Prop
  | .leaf _ _ => True
  | .internal w c0 c1 => w = treeWeight c0 + treeWeight c1 ∧ WeightsAdd c0 ∧ WeightsAdd c1

/-- A leaf, not an internal node (R14). -/
def isLeaf : Tree → Bool
  | .leaf _ _ => true
  | .internal _ _ _ => false

/-- The root-to-leaf paths in pre-order, with the symbol each ends at: `false` is branch 0, `true` branch 1
(R84, R123). -/
def treePaths : Tree → List (Sym × List Bool)
  | .leaf s _ => [(s, [])]
  | .internal _ c0 c1 =>
    (treePaths c0).map (fun p => (p.1, false :: p.2)) ++ (treePaths c1).map (fun p => (p.1, true :: p.2))

/-- The node the branches `bits` lead to, if they do not pass a leaf. -/
def nodeAt : Tree → List Bool → Option Tree
  | t, [] => some t
  | .leaf _ _, _ :: _ => none
  | .internal _ c0 c1, b :: bs => if b then nodeAt c1 bs else nodeAt c0 bs

/-- The low `n` bits of a value, most significant first (R82). -/
def lowBits {w : Nat} (v : BitVec w) : Nat → List Bool
  | 0 => []
  | n + 1 => v.getLsbD n :: lowBits v n

/-- The code of a CODE entry as its bit string (R15, R38). -/
def entryBits (e : CodeEntry) : List Bool := lowBits e.pat e.len.toNat

/-- The bits of a stream byte in the order they are packed and unpacked: bit 7 first (R85). -/
def byteBits (b : Byte) : List Bool := lowBits b 8

/-- The entry a code's bits are recorded as (R38): valid, with the bits in the low `len` bits of the pattern and
zeros above. -/
def Records (e : CodeEntry) (bits : List Bool) : Prop :=
  e.valid = true ∧ e.len.toNat = bits.length ∧ entryBits e = bits ∧ e.pat.toNat < 2 ^ bits.length

/-! The streams -/

/-- The bits the unpacker will deliver from what it holds and IN holds (R83). -/
def unreadBits (s : State) : List Bool := lowBits s.rdByte s.rdCnt.toNat ++ s.inq.flatMap byteBits

/-- From `s` to `t` some bytes were popped from IN, in order, and RD_BYTE is the last of them, or is unchanged if none
was (R78, R83). -/
def Popped (s t : State) : Prop :=
  ∃ bytes : List Byte, s.inq = bytes ++ t.inq ∧ t.rdByte = bytes.getLastD s.rdByte

/-- The bits held in the rack (R40). -/
def rackBits (s : State) : List Bool := (byteBits s.wrRack).take s.wrCnt.toNat

/-- The bits on OUT and in the rack, in the order they were packed (R82, R88). -/
def writtenBits (s : State) : List Bool := s.outq.flatMap byteBits ++ rackBits s

/-- The bits of the rack not yet filled are 0: `WR_RACK[7 - WR_CNT : 0] = 0` (R40). -/
def RackPadded (s : State) : Prop := ∀ k, k < 8 - s.wrCnt.toNat → s.wrRack.getLsbD k = false

/-- OUT takes at least `n` more bytes before any error (R77, R79); it takes no bytes in any state. -/
def OutAccepts (n : Nat) (s : State) : Prop :=
  0 < n → s.outErr = false ∧ ∀ k, s.outErrAfter = some k → n ≤ k + 1

/-- OUT takes exactly `n` more bytes: the host has put it in error, or will once they are pushed (R77, R79). -/
def OutFailsAfter (n : Nat) (s : State) : Prop :=
  (n = 0 ∧ s.outErr = true) ∨ (s.outErr = false ∧ s.outErrAfter = some (n - 1) ∧ 0 < n)

/-- The bits of a payload: the codes of the bytes in order, then the end-of-stream code (R122). -/
def payloadBits (s : State) (bytes : List Byte) : List Bool :=
  bytes.flatMap (fun b => entryBits (codeAt s.code (byteSym b))) ++ entryBits (codeAt s.code s.params.eofSym)

/-- The header of a leaf list: each pair's count byte, then its symbol; the sentinel last (R121). -/
def headerOf (leaves : List LeafEntry) : List Byte :=
  leaves.flatMap (fun l => [l.weight.truncate 8, l.sym]) ++ [0]

/-! Command words -/

/-- The word is illegal (R108). -/
def IllegalWord (w : Word) : Prop :=
  (∀ op : Opcode, op.code ≠ w.extractLsb' 24 8) ∨
  ∃ op : Opcode, op.code = w.extractLsb' 24 8 ∧
    ((op.format = .N ∧ w.extractLsb' 0 24 ≠ 0) ∨
     (op.format = .B ∧ w.extractLsb' 8 16 ≠ 0) ∨
     (op.format = .S ∧ (w.extractLsb' 9 15 ≠ 0 ∨ 256 < (w.extractLsb' 0 9).toNat)) ∨
     (op.format = .T ∧ w.extractLsb' 1 23 ≠ 0))

/-- The faults a command can raise, other than ILLEGAL_COMMAND (R272). -/
def mayRaise : Opcode → List FaultKind
  | .nop => []
  | .softReset => []
  | .freqClear => []
  | .freqAccum => []
  | .freqRead => []
  | .treeBuild => [.sequenceError]
  | .treeRelease => []
  | .codeDerive => [.sequenceError, .unsupportedDistribution]
  | .codeRead => []
  | .hdrEmit => [.sequenceError, .ioFailure]
  | .hdrParse => [.ioFailure, .truncated, .headerOverflow]
  | .leafRead => [.sequenceError]
  | .encByte => [.sequenceError, .symbolNotInTree, .ioFailure]
  | .encEof => [.sequenceError, .symbolNotInTree, .ioFailure]
  | .encFlush => [.ioFailure]
  | .decSymbol => [.sequenceError, .truncated, .ioFailure]
  | .decStream => [.sequenceError, .truncated, .ioFailure]

/-! Runs -/

/-- The meanings of a list of commands, one after the other (R88). -/
def execAll : List Instr → State → Host.Outcome State Fault Refusal
  | [], s => .next s
  | i :: is, s =>
    match exec i s with
    | .next s1 => execAll is s1
    | .fault r => .fault r
    | .refused r => .refused r

/-- `n` turns of the block. -/
def blockTurns : Nat → State → Host.Outcome State Fault Refusal
  | 0, s => .next s
  | n + 1, s =>
    match blockTurn s with
    | .next s1 => blockTurns n s1
    | .fault r => .fault r
    | .refused r => .refused r

/-- The host writes the word of `i` and the block takes one turn: the whole command, but for a DEC_STREAM that
goes on or a command that holds (R49, R80, R140). -/
def issue (i : Instr) (s : State) : Host.Outcome State Fault Refusal := blockTurn (acceptCommand (encode i) s)

/-- A list of commands issued one after the other. -/
def issueAll : List Instr → State → Host.Outcome State Fault Refusal
  | [], s => .next s
  | i :: is, s =>
    match issue i s with
    | .next s1 => issueAll is s1
    | .fault r => .fault r
    | .refused r => .refused r

/-- The clean launch state of a run with this input (R315). -/
structure CleanLaunch (p : Params) (input : List Byte) (s : State) : Prop where
  params : s.params = p
  inReset : applyReset s = s
  inBytes : s.inq = input
  inEnd : s.inEnd = true
  inErr : s.inErr = false
  outBytes : s.outq = []
  outErr : s.outErr = false
  outErrAfter : s.outErrAfter = none

/-- FAULT = 0 and OVR = 0, the premises of a claim about a run's outcome (R315). -/
def Succeeded (s : State) : Prop := s.fault = false ∧ s.ovr = false

/-! The invariant -/

/-- A LEAVES entry has a weight in 1..255 (R35, R212); its symbol is a byte by type. -/
def LeafEntry.Ok (l : LeafEntry) : Prop := 1 ≤ l.weight.toNat ∧ l.weight.toNat ≤ 255

/-- A CODE entry is cleared, or valid with a code of at most 32 bits (R38, R194). -/
def CodeEntry.Ok (e : CodeEntry) : Prop :=
  (e.valid = false → e = CodeEntry.cleared) ∧ e.len.toNat ≤ Config.maxCodeLen ∧ e.pat.toNat < 2 ^ e.len.toNat

/-- A decoder waits for a byte at an internal node of TREE, with every bit of RD_BYTE consumed (R83, R251). -/
def WaitsAt (node : Tree) (s : State) : Prop :=
  s.fault = false ∧ s.eos = false ∧ s.rdCnt = 0 ∧ isLeaf node = false ∧
    ∃ t bits, s.tree = some t ∧ nodeAt t bits = some node

/-- HDR_PARSE is in its loop: the tree is released and LEAVES is being filled (R211). -/
def Parsing (s : State) : Prop :=
  s.fault = false ∧ s.eos = false ∧ s.rdCnt = 0 ∧ s.tree = none ∧ s.leavesValid = false

/-- The command a position belongs to (R56). -/
def Progress.command : Progress → Option Instr
  | .start => none
  | .hdrCount _ => some .hdrParse
  | .hdrSym _ _ => some .hdrParse
  | .decSymbol _ => some .decSymbol
  | .streamNext => some .decStream
  | .streamAt _ => some .decStream

/-- Where a running command stands agrees with the rest of the state (R56, R80). -/
def ProgressOk (s : State) : Prop :=
  match s.run with
  | .start => True
  | .hdrCount n => Parsing s ∧ n = 2 * s.leaves.length
  | .hdrSym c n => Parsing s ∧ c ≠ 0 ∧ s.leaves.length < Config.maxHdrPairs ∧ n = 2 * s.leaves.length + 1
  | .decSymbol node => WaitsAt node s
  | .streamNext => s.fault = false ∧ s.eos = false ∧ s.tree.isSome = true
  | .streamAt node => WaitsAt node s

/-- The invariant of the machine: what the spec says always holds of its state elements. -/
structure Inv (s : State) : Prop where
  /-- every FREQ entry is in 0..255 (R34) -/
  counts : ∀ b, (freqAt s.freq b).toNat ≤ 255
  /-- LEAVES has at most 256 entries (R32) -/
  leavesLength : s.leaves.length ≤ Config.maxHdrPairs
  /-- LEAVES entries (R35, R212) -/
  leavesOk : ∀ l ∈ s.leaves, l.Ok
  /-- a TREE that is present is the one LEAVES gives, and LEAVES is complete (R37, R170, R177, R276) -/
  treeBuilt : ∀ t, s.tree = some t → s.leavesValid = true ∧ t = buildTree s.params.eofSym s.leaves
  /-- CODE entries (R38) -/
  codeOk : ∀ sym, (codeAt s.code sym).Ok
  /-- in compatibility mode nothing writes CODE[256] (R38, R196) -/
  codeLast : s.params.eofMode = .compat → codeAt s.code 256 = CodeEntry.cleared
  /-- valid codes have one for the end-of-stream symbol (R172, R231) -/
  codeEof : s.codesValid = true → (codeAt s.code s.params.eofSym).valid = true
  /-- the unfilled bits of the rack are 0 (R40); after a failed push FAULT = 1 and the full rack stays (R230; log 6) -/
  rack : s.fault = false → RackPadded s
  /-- RD_CNT is in 0..8 (R32) -/
  unread : s.rdCnt.toNat ≤ 8
  /-- with no fault recorded the record is 0 (R270, R300) -/
  noFault : s.fault = false → s.fcode = 0 ∧ s.fphase = 0 ∧ s.fopc = 0
  /-- a recorded fault is one of R270 in a phase of R271, and resources are released (R276, R277, U8) -/
  faulted : s.fault = true → (∃ k : FaultKind, s.fcode = k.code) ∧ (∃ ph : Phase, s.fphase = ph.code) ∧
    s.tree = none ∧ s.codesValid = false ∧ s.leavesValid = false
  /-- the running command's position (R56) -/
  progress : s.busy = true → ProgressOk s
  /-- CUR_CMD holds the running command (R31) -/
  command : s.busy = true → ∀ i, s.run.command = some i → decode s.curCmd = .ok i

end Sys2Proof.Machine
end

