-- ==== Sys2Proof/Certificates/Slice0/Obligations.lean ====
section
/-! DEFINITION. The statements about the model, for the provers. Each docstring names the rules of spec/ it
formalises, or says which of the model's choices it rests on. -/

open Sys2Proof Sys2Proof.Machine

/-! ## Encoding -/

/-- The words of R107, R111 and section 2.1 of 95_test_vectors.md, one or more for every family, written out. -/
def Obligations.WordsDecodeAsTabulated : Prop :=
  decode 0x01000000 = .ok .nop ∧ decode 0x02000000 = .ok .softReset ∧
  decode 0x10000000 = .ok .freqClear ∧ decode 0x11000041 = .ok (.freqAccum 0x41) ∧
  decode 0x20000001 = .ok (.treeBuild .hdr) ∧ decode 0x21000000 = .ok .treeRelease ∧
  decode 0x310000FE = .ok (.codeRead 254) ∧ decode 0x31000100 = .ok (.codeRead 256) ∧
  decode 0x42000001 = .ok (.leafRead 1) ∧ decode 0x50000043 = .ok (.encByte 0x43) ∧
  decode 0x61000000 = .ok .decStream ∧
  decode 0x00000000 = .error .unassignedOpcode ∧ decode 0x11000141 = .error .reservedBits ∧
  decode 0x31000101 = .error .symbolOutOfRange ∧ decode 0x20000002 = .error .reservedBits

/-- Decoding the encoding of a well-formed command gives it back, with every operand at every value (R101 to
R107): no bit of an encoding is dropped. -/
def Obligations.DecodeOfEncode : Prop :=
  ∀ i : Instr, i.wellFormed = true → decode (encode i) = .ok i

/-- A word that decodes is the encoding of exactly the command it decodes to, which is well-formed: every legal
word has one meaning (R101, R110). -/
def Obligations.EncodeOfDecode : Prop :=
  ∀ (w : Word) (i : Instr), decode w = .ok i → i.wellFormed = true ∧ encode i = w

/-- R108: the decoder refuses exactly the illegal words, and an accepted illegal word raises ILLEGAL_COMMAND with
phase COMMAND and changes no other state than the fault entry does (R276). -/
def Obligations.IllegalWordsRaiseIllegalCommand : Prop :=
  (∀ w : Word, IllegalWord w ↔ ∃ e, decode w = .error e) ∧
  ∀ s : State, s.busy = true → s.run = .start → s.fault = false → IllegalWord s.curCmd →
    blockTurn s = .next { s with
      fault := true, fcode := 4, fphase := 0, fopc := s.curCmd.extractLsb' 24 8,
      tree := none, codesValid := false, leavesValid := false, busy := false, run := .start }

/-! ## Dispatch, the register window and reset -/

/-- When the accepted word decodes to `i` and it is the block's turn, a step is `exec i`: in a state with no fault
recorded, and for SOFT_RESET in every state (R140). The agenda entry that gave the block its turn is used up.
`withFetchWord` makes such a state. -/
def Obligations.StepRunsTheDecodedCommand : Prop :=
  (∀ (s : State) (i : Instr), s.busy = true → s.run = .start → decode s.curCmd = .ok i →
    (s.fault = false ∨ i = .softReset) →
    (s.agenda = [] → step s = exec i s) ∧
    (∀ rest, s.agenda = .block :: rest → step s = exec i { s with agenda := rest })) ∧
  (∀ (s : State) (w : Word) (i : Instr), decode w = .ok i → (s.fault = false ∨ i = .softReset) →
    step (s.withFetchWord 32 w.toNat) = exec i { s with curCmd := w, busy := true, run := .start })

/-- R140, R277: while FAULT = 1 an accepted word other than 0x02000000 is discarded: BUSY goes to 0 and no other
state changes, whatever the word, legal or not. -/
def Obligations.FaultedBlockDiscardsCommands : Prop :=
  ∀ s : State, s.busy = true → s.run = .start → s.fault = true → s.curCmd ≠ 0x02000000 →
    blockTurn s = .next { s with busy := false, run := .start }

/-- R49, R44, R280: a 32-bit write to CMD with BUSY = 0 is accepted; with BUSY = 1 it is discarded, sets OVR and
leaves all other state unchanged, FAULT and the fault record among it. A read of CMD returns 0. -/
def Obligations.CmdWriteIsAcceptedOrOverruns : Prop :=
  ∀ (s : State) (v : Word),
    (s.busy = false →
      hostTurn (.write (s.params.regBase + 0x04) 32 v) s =
        .next { s with curCmd := v, busy := true, run := .start }) ∧
    (s.busy = true →
      hostTurn (.write (s.params.regBase + 0x04) 32 v) s = .next { s with ovr := true }) ∧
    hostTurn (.read (s.params.regBase + 0x04) 32) s = .next { s with readData := some 0 }

/-- R53, R54: a write to any aligned offset of the window but CMD's is ignored, and a read of a reserved offset
returns 0; neither has another effect. -/
def Obligations.OnlyCmdIsWritable : Prop :=
  ∀ (s : State) (offset : Nat) (v : Word), offset < 256 → offset % 4 = 0 →
    (offset ≠ 0x04 → hostTurn (.write (s.params.regBase + offset) 32 v) s = .next s) ∧
    (0x18 ≤ offset →
      hostTurn (.read (s.params.regBase + offset) 32) s = .next { s with readData := some 0 })

/-- R72: an access of another width or at an unaligned offset is refused: the host step has no successor. -/
def Obligations.UnsupportedAccessesAreRefused : Prop :=
  ∀ (s : State) (offset width : Nat) (v : Word), offset < 256 → (width ≠ 32 ∨ offset % 4 ≠ 0) →
    hostTurn (.read (s.params.regBase + offset) width) s = .refused .unsupportedAccess ∧
    hostTurn (.write (s.params.regBase + offset) width v) s = .refused .unsupportedAccess

/-- R48: CONFIG holds P_EOF_SYM in bits 8:0, P_MAX_CODE_LEN in bits 21:16 and zeros elsewhere, in both modes,
whatever the block is doing: 0x002000FE with the default, 0x00200100 in wide mode. A write to it is ignored. -/
def Obligations.ConfigReadsItsConstant : Prop :=
  ∀ (s : State) (v : Word),
    (∃ w : Word, hostTurn (.read s.params.regBase 32) s = .next { s with readData := some w } ∧
      w.extractLsb' 0 9 = s.params.eofSym ∧ w.extractLsb' 9 7 = 0 ∧
      w.extractLsb' 16 6 = BitVec.ofNat 6 32 ∧ w.extractLsb' 22 10 = 0 ∧
      (s.params.eofMode = .compat → w = 0x002000FE) ∧ (s.params.eofMode = .wide → w = 0x00200100)) ∧
    hostTurn (.write s.params.regBase 32 v) s = .next s

/-- R50: what STATUS reads while BUSY = 0, field by field; LEAF_COUNT is the length of LEAVES, which is at most
256 (R32). The read has no other effect (R73), and a write is ignored. -/
def Obligations.StatusReflectsTheState : Prop :=
  ∀ s : State, s.busy = false → s.leaves.length ≤ 256 →
    (∃ w : Word, hostTurn (.read (s.params.regBase + 0x08) 32) s = .next { s with readData := some w } ∧
      w.getLsbD 0 = s.busy ∧ w.getLsbD 1 = s.fault ∧ w.getLsbD 2 = s.eos ∧
      w.getLsbD 3 = s.tree.isSome ∧ w.getLsbD 4 = s.codesValid ∧ w.getLsbD 5 = s.leavesValid ∧
      w.getLsbD 6 = s.ovr ∧ w.getLsbD 7 = false ∧ w.extractLsb' 8 3 = s.wrCnt ∧ w.getLsbD 11 = false ∧
      w.extractLsb' 12 4 = s.rdCnt ∧ (w.extractLsb' 16 9).toNat = s.leaves.length ∧
      w.extractLsb' 25 7 = 0) ∧
    ∀ v : Word, hostTurn (.write (s.params.regBase + 0x08) 32 v) s = .next s

/-- R52, R51: what FAULTINFO, RESULT0 and RESULT1 read while BUSY = 0; FAULTINFO reads 0 while FAULT = 0. The reads
have no other effect (R73), and writes to the three are ignored. -/
def Obligations.FaultInfoAndResultsReflectTheState : Prop :=
  ∀ s : State, s.busy = false →
    (∃ w : Word, hostTurn (.read (s.params.regBase + 0x14) 32) s = .next { s with readData := some w } ∧
      (s.fault = false → w = 0) ∧
      (s.fault = true → w.extractLsb' 0 4 = s.fcode ∧ w.extractLsb' 4 4 = s.fphase ∧
        w.extractLsb' 8 8 = s.fopc ∧ w.extractLsb' 16 16 = 0)) ∧
    hostTurn (.read (s.params.regBase + 0x0C) 32) s = .next { s with readData := some s.result0 } ∧
    hostTurn (.read (s.params.regBase + 0x10) 32) s = .next { s with readData := some s.result1 } ∧
    ∀ (offset : Nat) (v : Word), (offset = 0x0C ∨ offset = 0x10 ∨ offset = 0x14) →
      hostTurn (.write (s.params.regBase + offset) 32 v) s = .next s

/-- R55: while BUSY = 1 a read of STATUS completes and gives the true BUSY, FAULT and OVR, and reads of RESULT0,
RESULT1 and FAULTINFO complete. What the other fields are is a free value (log 5): the statement says nothing of
them. That the reserved bits read 0 then too, bits 7, 11 and 31:25 of STATUS and bits 31:16 of FAULTINFO, is the
model's reading (log 5, DEDUCED, unsafe): R55 leaves FAULTINFO unspecified as a whole. Only the model's count of
free values moves. -/
def Obligations.BusyReadsKeepTheTrueBits : Prop :=
  ∀ s : State, s.busy = true →
    (∃ w : Word, hostTurn (.read (s.params.regBase + 0x08) 32) s =
        .next { s with readData := some w, draws := s.draws + 1 } ∧
      w.getLsbD 0 = true ∧ w.getLsbD 1 = s.fault ∧ w.getLsbD 6 = s.ovr ∧ w.getLsbD 7 = false ∧
      w.getLsbD 11 = false ∧ w.extractLsb' 25 7 = 0) ∧
    (∀ offset, offset = 0x0C ∨ offset = 0x10 ∨ offset = 0x14 →
      ∃ w : Word, hostTurn (.read (s.params.regBase + offset) 32) s =
        .next { s with readData := some w, draws := s.draws + 1 } ∧
        (offset = 0x14 → w.extractLsb' 16 16 = 0))

/-- R300, R142: SOFT_RESET and the hardware reset input both set every state element of R32 to its reset value and
leave the streams and the parameters as they were; STATUS, RESULT0, RESULT1 and FAULTINFO then read 0
(R301). It holds in every state, a faulted or a busy one too; a running command is abandoned. (What becomes of the latch
CUR_CMD the spec does not say: log 12. The statement says nothing of it.) -/
def Obligations.BothResetsClearTheBlock : Prop :=
  ∀ s : State, ∃ f : Vector Word 256, ∃ tbl : Vector CodeEntry 257, ∃ cmd : Word,
    (∀ k (h : k < 256), f[k] = 0) ∧ (∀ k (h : k < 257), tbl[k] = { valid := false, pat := 0, len := 0 }) ∧
    ∃ t : State,
      t = { s with
        freq := f, leaves := [], leavesValid := false, tree := none, code := tbl, codesValid := false,
        wrRack := 0, wrCnt := 0, rdByte := 0, rdCnt := 0, eos := false, fault := false, fcode := 0,
        fphase := 0, fopc := 0, ovr := false, busy := false, result0 := 0, result1 := 0, curCmd := cmd, run := .start } ∧
      exec .softReset s = .next t ∧ hostTurn .resetInput s = .next t ∧
      statusWord t = 0 ∧ faultInfoWord t = 0

/-! ## Control and the frequency accumulator -/

/-- R141, R150, R152: NOP changes nothing but BUSY; FREQ_CLEAR zeroes FREQ and nothing else; FREQ_READ copies
FREQ[b] to RESULT0 and leaves FREQ and RESULT1 unchanged. Each completes in every state. -/
def Obligations.NopFreqClearAndFreqReadComplete : Prop :=
  ∀ s : State,
    exec .nop s = .next { s with busy := false, run := .start } ∧
    (∃ f : Vector Word 256, (∀ k (h : k < 256), f[k] = 0) ∧
      exec .freqClear s = .next { s with freq := f, busy := false, run := .start }) ∧
    ∀ b : Byte, exec (.freqRead b) s =
      .next { s with result0 := s.freq[b.toNat]'b.isLt, busy := false, run := .start }

/-- R151, R157: FREQ_ACCUM completes in every state. Without scaling one entry is incremented. When the incremented
count is exactly 256, every nonzero entry of the table, the incremented one among them, becomes (count + 1) div 2.
RESULT0 is the new count, RESULT1 whether scaling fired, and nothing else changes but BUSY. -/
def Obligations.FreqAccumCountsAndRescales : Prop :=
  ∀ (s : State) (b : Byte), ∃ f : Vector Word 256, ∃ r1 : Word,
    exec (.freqAccum b) s = .next { s with
      freq := f, result0 := f[b.toNat]'b.isLt, result1 := r1, busy := false, run := .start } ∧
    (freqAt s.freq b + 1 ≠ 256 → r1 = 0 ∧
      ∀ c : Byte, freqAt f c = if c = b then freqAt s.freq b + 1 else freqAt s.freq c) ∧
    (freqAt s.freq b + 1 = 256 → r1 = 1 ∧ freqAt f b = 128 ∧
      ∀ c : Byte, c ≠ b →
        freqAt f c = if freqAt s.freq c = 0 then 0 else (freqAt s.freq c + 1) / 2)

/-- R153: after any FREQ_ACCUM every entry is at most 255 and no entry that was positive is 0, from a table whose
entries are at most 255 (R34). -/
def Obligations.ScalingKeepsCountsSmallAndPositive : Prop :=
  ∀ (s t : State) (b : Byte), (∀ c, (freqAt s.freq c).toNat ≤ 255) → exec (.freqAccum b) s = .next t →
    (∀ c, (freqAt t.freq c).toNat ≤ 255) ∧ (∀ c, 0 < (freqAt s.freq c).toNat → 0 < (freqAt t.freq c).toNat)

/-- R154: if FREQ[a] >= FREQ[b] before a scaling, that still holds after it (3 and 4 both become 2). Entries are at
most 255 before the command (R34) and the incremented one is 256 at the scaling. -/
def Obligations.ScalingIsMonotone : Prop :=
  (∀ (s t : State) (v a b : Byte), (∀ c, (freqAt s.freq c).toNat ≤ 255) → exec (.freqAccum v) s = .next t →
    t.result1 = 1 → freqAt (bump s.freq v) b ≤ freqAt (bump s.freq v) a → freqAt t.freq b ≤ freqAt t.freq a) ∧
  scaleCount 3 = 2 ∧ scaleCount 4 = 2

/-- R158: n copies of one byte value counted from a zeroed table: the final count in closed form, and how many of
the n commands reported a scaling event. -/
def Obligations.RepeatedByteClosedForm : Prop :=
  ∀ (s : State) (v : Byte) (n : Nat), (∀ c, freqAt s.freq c = 0) →
    ∃ t : State, execAll (List.replicate n (.freqAccum v)) s = .next t ∧
      (freqAt t.freq v).toNat = (if n < 256 then n else 128 + (n - 256) % 128) ∧
      ((List.range n).filter fun k =>
          match execAll (List.replicate (k + 1) (.freqAccum v)) s with
          | .next u => u.result1 == 1
          | .fault _ => false
          | .refused _ => false).length = (if n < 256 then 0 else 1 + (n - 256) / 128)

/-! ## The tree builder -/

/-- R171: FreqLeaves lists exactly the symbols with a nonzero count, each with its count, in ascending order; each
weight is in 1..255 when the counts are at most 255 (R34). -/
def Obligations.FreqLeavesAscend : Prop :=
  ∀ freq : Vector Word 256,
    (∀ l : LeafEntry, l ∈ freqLeaves freq ↔ l.weight = freqAt freq l.sym ∧ l.weight ≠ 0) ∧
    (freqLeaves freq).Pairwise (fun a b => a.sym.toNat < b.sym.toNat) ∧
    ((∀ b, (freqAt freq b).toNat ≤ 255) → ∀ l ∈ freqLeaves freq, 1 ≤ l.weight.toNat ∧ l.weight.toNat ≤ 255)

/-- R170: TREE_BUILD completes, from FREQ in every state and from LEAVES when LEAVES_VALID = 1. It stores the leaf
list and the tree, clears CODE, CODES_VALID and EOS, and gives the root's weight and the number of leaves. Nothing
else changes but BUSY. With SRC = 1 and LEAVES_VALID = 0 it raises SEQUENCE_ERROR in phase TREE_BUILD. -/
def Obligations.TreeBuildCompletes : Prop :=
  ∀ s : State, ∃ tbl : Vector CodeEntry 257, (∀ k (h : k < 257), tbl[k] = { valid := false, pat := 0, len := 0 }) ∧
    exec (.treeBuild .freq) s = .next { s with
      leaves := freqLeaves s.freq, leavesValid := true,
      tree := some (buildTree s.params.eofSym (freqLeaves s.freq)),
      code := tbl, codesValid := false, eos := false,
      result0 := treeWeight (buildTree s.params.eofSym (freqLeaves s.freq)),
      result1 := BitVec.ofNat 32 ((freqLeaves s.freq).length + 1), busy := false, run := .start } ∧
    (s.leavesValid = true → exec (.treeBuild .hdr) s = .next { s with
      tree := some (buildTree s.params.eofSym s.leaves), code := tbl, codesValid := false, eos := false,
      result0 := treeWeight (buildTree s.params.eofSym s.leaves),
      result1 := BitVec.ofNat 32 (s.leaves.length + 1), busy := false, run := .start }) ∧
    (s.leavesValid = false → exec (.treeBuild .hdr) s = .next { s with
      fault := true, fcode := 5, fphase := 2, fopc := s.curCmd.extractLsb' 24 8,
      tree := none, codesValid := false, leavesValid := false, busy := false, run := .start })

/-- R173: ExtractMin takes the entry with the least key (weight, sequence number) and leaves the others: nothing is
lost or made up, and every entry left comes after it when the sequence numbers are distinct. -/
def Obligations.ExtractMinTakesTheLeastKey : Prop :=
  ∀ (e m : QEntry) (q rest : List QEntry), extractMin e q = (m, rest) →
    (m :: rest).Perm (e :: q) ∧
    (((e :: q).map (·.seq)).Nodup → ∀ x ∈ rest,
      (treeWeight m.tree).toNat < (treeWeight x.tree).toNat ∨
        (treeWeight m.tree = treeWeight x.tree ∧ m.seq < x.seq))

/-- R37, R178: the tree TREE_BUILD stores from a state that satisfies the invariant has exactly the entries of LEAVES
and one end-of-stream leaf of weight 1 as its leaves, |LEAVES| internal nodes, each of the summed weight of its
children; its root weighs 1 more than the sum of the weights, at most 65281 (R179), so no sum wrapped; and the root
is a leaf exactly when LEAVES is empty (R175). -/
def Obligations.BuiltTreeShape : Prop :=
  ∀ (s t : State) (src : TreeSource) (root : Tree), Inv s → exec (.treeBuild src) s = .next t →
    t.tree = some root →
    (treeLeaves root).Perm (t.leaves.map (fun l => (byteSym l.sym, l.weight)) ++ [(t.params.eofSym, 1)]) ∧
    internalCount root = t.leaves.length ∧ WeightsAdd root ∧
    (treeWeight root).toNat = 1 + (t.leaves.map (fun l => l.weight.toNat)).sum ∧
    (treeWeight root).toNat ≤ 65281 ∧ (isLeaf root = true ↔ t.leaves = [])

/-- R176 (and R175 for no symbol): the tree of one data symbol, by the tie rule: a lighter end-of-stream node is
extracted first, a tie goes to the symbol. Either way both codes are 1 bit long. -/
def Obligations.OneSymbolTree : Prop :=
  ∀ (eof : Sym) (l : LeafEntry), 1 ≤ l.weight.toNat → l.weight.toNat ≤ 255 →
    (1 < l.weight.toNat → buildTree eof [l] =
      .internal (l.weight + 1) (.leaf eof 1) (.leaf (l.sym.zeroExtend 9) l.weight)) ∧
    (l.weight.toNat = 1 → buildTree eof [l] =
      .internal (l.weight + 1) (.leaf (l.sym.zeroExtend 9) 1) (.leaf eof 1)) ∧
    (∀ p ∈ treePaths (buildTree eof [l]), p.2.length = 1) ∧ buildTree eof [] = .leaf eof 1

/-- R174: TREE_RELEASE completes in every state, with or without a tree, and changes only TREE (and BUSY): CODE,
CODES_VALID, LEAVES, LEAVES_VALID and EOS are unchanged. -/
def Obligations.TreeReleaseOnlyReleases : Prop :=
  ∀ s : State, exec .treeRelease s = .next { s with tree := none, busy := false, run := .start }

/-! ## The code table deriver -/

/-- R190, R192, R196: with a tree no deeper than 32 and with symbols of the table CODE_DERIVE completes; CODE[sym]
records the path of the last leaf labelled `sym` in pre-order and is cleared where no leaf is. RESULT0 counts the
valid entries and RESULT1 is the greatest length. Nothing else changes but CODES_VALID and BUSY. -/
def Obligations.CodeDeriveRecordsThePaths : Prop :=
  ∀ (s : State) (root : Tree), s.tree = some root → treeDepth root ≤ 32 →
    (∀ p ∈ treePaths root, p.1.toNat ≤ 256) →
    ∃ c : Vector CodeEntry 257, ∃ r0 r1 : Word,
      exec .codeDerive s = .next { s with
        code := c, codesValid := true, result0 := r0, result1 := r1, busy := false, run := .start } ∧
      (∀ sym : Sym, sym.toNat ≤ 256 →
        match (treePaths root).reverse.find? (fun p => p.1 == sym) with
        | some p => Records (codeAt c sym) p.2
        | none => codeAt c sym = { valid := false, pat := 0, len := 0 }) ∧
      r0.toNat = ((List.range 257).filter fun k => (codeAt c (BitVec.ofNat 9 k)).valid).length ∧
      (∀ sym : Sym, (codeAt c sym).valid = true → (codeAt c sym).len.toNat ≤ r1.toNat) ∧
      (∃ sym : Sym, (codeAt c sym).valid = true ∧ (codeAt c sym).len.toNat = r1.toNat)

/-- R190, R194: CODE_DERIVE with no tree raises SEQUENCE_ERROR and on a tree deeper than 32 raises
UNSUPPORTED_DISTRIBUTION, both in phase CODE_DERIVE; on either fault CODE is not written. -/
def Obligations.CodeDeriveRefusesWithoutWriting : Prop :=
  ∀ s : State,
    (s.tree = none → exec .codeDerive s = .next { s with
      fault := true, fcode := 5, fphase := 3, fopc := s.curCmd.extractLsb' 24 8,
      tree := none, codesValid := false, leavesValid := false, busy := false, run := .start }) ∧
    (∀ root, s.tree = some root → 32 < treeDepth root → exec .codeDerive s = .next { s with
      fault := true, fcode := 3, fphase := 3, fopc := s.curCmd.extractLsb' 24 8,
      tree := none, codesValid := false, leavesValid := false, busy := false, run := .start })

/-- R197, R123: no leaf's path is a beginning of another leaf's path, in any tree. Derived from R192 and R196: after a CODE_DERIVE from a state that satisfies the invariant, no valid entry's code is a beginning of
another symbol's code, in both modes (in compatibility mode entries, not leaves, are compared: R196). -/
def Obligations.CodesArePrefixFree : Prop :=
  (∀ root : Tree, (treePaths root).Pairwise fun a b => ¬ (a.2 <+: b.2) ∧ ¬ (b.2 <+: a.2)) ∧
  ∀ (s t : State), Inv s → exec .codeDerive s = .next t → t.codesValid = true →
    ∀ a b : Sym, a ≠ b → (codeAt t.code a).valid = true → (codeAt t.code b).valid = true →
      ¬ (entryBits (codeAt t.code a) <+: entryBits (codeAt t.code b))

/-- R198: over the leaves of any tree the sum of 2^(-len) is exactly 1, the one-leaf tree among them; and after a
CODE_DERIVE of a tree whose leaves have distinct labels (R196 is the other case) so is the sum over the valid
entries. Both sums are multiplied by 2^n, n the depth or 32, to stay whole. -/
def Obligations.KraftEquality : Prop :=
  (∀ root : Tree, ((treePaths root).map fun p => 2 ^ (treeDepth root - p.2.length)).sum = 2 ^ treeDepth root) ∧
  ∀ (s t : State) (root : Tree), s.tree = some root → (∀ p ∈ treePaths root, p.1.toNat ≤ 256) →
    ((treePaths root).map (·.1)).Nodup → exec .codeDerive s = .next t → t.codesValid = true →
    ((List.range 257).map fun k =>
      if (codeAt t.code (BitVec.ofNat 9 k)).valid then 2 ^ (32 - (codeAt t.code (BitVec.ofNat 9 k)).len.toNat)
      else 0).sum = 2 ^ 32

/-- R191: CODE_READ completes for every symbol of the table, whatever CODES_VALID is: RESULT0 is the pattern, bit 31
of RESULT1 the valid bit, bits 5:0 the length and the 25 bits between 0. Nothing else changes but BUSY. -/
def Obligations.CodeReadReadsTheEntry : Prop :=
  ∀ (s : State) (sym : Sym) (h : sym.toNat ≤ 256),
    ∃ r1 : Word, exec (.codeRead sym) s = .next { s with
        result0 := (s.code[sym.toNat]'(by omega)).pat, result1 := r1, busy := false, run := .start } ∧
      r1.getLsbD 31 = (s.code[sym.toNat]'(by omega)).valid ∧ r1.extractLsb' 6 25 = 0 ∧
      r1.extractLsb' 0 6 = (s.code[sym.toNat]'(by omega)).len

/-! ## The frequency header codec -/

/-- R210, R121: with an empty rack and an OUT that takes 2n + 1 bytes, HDR_EMIT completes: the pairs of the n nonzero
counts in ascending symbol order, count first, then the sentinel, are appended to OUT; FREQ and everything else but
the result registers and BUSY is unchanged. (An error the host has set to come later comes closer.) -/
def Obligations.HdrEmitWritesTheHeader : Prop :=
  ∀ s : State, s.wrCnt = 0 → OutAccepts (2 * (freqLeaves s.freq).length + 1) s →
    ∃ (err : Bool) (after : Option Nat),
      exec .hdrEmit s = .next { s with
        outq := s.outq ++ headerOf (freqLeaves s.freq), outErr := err, outErrAfter := after,
        result0 := BitVec.ofNat 32 (freqLeaves s.freq).length,
        result1 := BitVec.ofNat 32 (2 * (freqLeaves s.freq).length + 1), busy := false, run := .start } ∧
      (s.outErrAfter = none → err = s.outErr ∧ after = none)

/-- R210, R275: HDR_EMIT with bits in the rack raises SEQUENCE_ERROR in phase HEADER_WRITE and pushes nothing. With
an empty rack and an OUT that fails after n bytes, n below the header's length, it raises IO_FAILURE in that phase
and the n bytes pushed before stay in OUT. -/
def Obligations.HdrEmitFaults : Prop :=
  ∀ s : State,
    (s.wrCnt ≠ 0 → exec .hdrEmit s = .next { s with
      fault := true, fcode := 5, fphase := 4, fopc := s.curCmd.extractLsb' 24 8,
      tree := none, codesValid := false, leavesValid := false, busy := false, run := .start }) ∧
    (∀ n, s.wrCnt = 0 → n < 2 * (freqLeaves s.freq).length + 1 → OutFailsAfter n s →
      exec .hdrEmit s = .next { s with
        outq := s.outq ++ (headerOf (freqLeaves s.freq)).take n, outErr := true,
        outErrAfter := if n = 0 then s.outErrAfter else none,
        fault := true, fcode := 1, fphase := 4, fopc := s.curCmd.extractLsb' 24 8,
        tree := none, codesValid := false, leavesValid := false, busy := false, run := .start })

/-- R211, R213: HDR_PARSE of a header of at most 256 pairs completes: LEAVES holds the pairs as read and in the order
read, exactly the header's bytes are consumed, unread bits are discarded and the tree is released. CODE and
CODES_VALID and everything else not named are unchanged. -/
def Obligations.HdrParseReadsAHeader : Prop :=
  ∀ (s : State) (leaves : List LeafEntry) (rest : List Byte), leaves.length ≤ 256 → (∀ l ∈ leaves, l.Ok) →
    s.inq = headerOf leaves ++ rest →
    exec .hdrParse s = .next { s with
      inq := rest, leaves := leaves, leavesValid := true, tree := none, eos := false, rdCnt := 0,
      result0 := BitVec.ofNat 32 leaves.length, result1 := BitVec.ofNat 32 (2 * leaves.length + 1),
      busy := false, run := .start }

/-- R211, R275: HDR_PARSE that reads a nonzero count byte after 256 pairs raises HEADER_OVERFLOW in phase HEADER_READ
before the symbol byte is read; the 256 entries stay in LEAVES. -/
def Obligations.HdrParseOverflows : Prop :=
  ∀ (s : State) (leaves : List LeafEntry) (c : Byte) (rest : List Byte), leaves.length = 256 →
    (∀ l ∈ leaves, l.Ok) → c ≠ 0 → s.inq = (headerOf leaves).dropLast ++ c :: rest →
    exec .hdrParse s = .next { s with
      inq := rest, leaves := leaves, eos := false, rdCnt := 0,
      fault := true, fcode := 6, fphase := 5, fopc := s.curCmd.extractLsb' 24 8,
      tree := none, codesValid := false, leavesValid := false, busy := false, run := .start }

/-- R211, R78, R275: HDR_PARSE on a header cut off at any byte: the whole pairs read stay in LEAVES, and it raises
IO_FAILURE if IN is in error, TRUNCATED if IN has ended, and otherwise holds with BUSY = 1 where it stopped: at a count
byte, or at the symbol byte of the pair whose count byte was read, with the bytes read so far counted. -/
def Obligations.HdrParseOnACutHeader : Prop :=
  ∀ (s : State) (leaves : List LeafEntry) (odd : List Byte), leaves.length ≤ 256 → (∀ l ∈ leaves, l.Ok) →
    (odd = [] ∨ (leaves.length < 256 ∧ ∃ c : Byte, c ≠ 0 ∧ odd = [c])) →
    s.inq = (headerOf leaves).dropLast ++ odd →
    ((s.inErr = true ∨ s.inEnd = true) → exec .hdrParse s = .next { s with
      inq := [], leaves := leaves, eos := false, rdCnt := 0,
      fault := true, fcode := if s.inErr then 1 else 2, fphase := 5, fopc := s.curCmd.extractLsb' 24 8,
      tree := none, codesValid := false, leavesValid := false, busy := false, run := .start }) ∧
    (s.inErr = false → s.inEnd = false → ∃ p, exec .hdrParse s = .next { s with
        inq := [], leaves := leaves, eos := false, rdCnt := 0, tree := none, leavesValid := false,
        busy := true, run := p } ∧
      (odd = [] → p = .hdrCount (2 * leaves.length)) ∧
      (∀ c, odd = [c] → p = .hdrSym c (2 * leaves.length + 1)))

/-- R215, R177: the bytes HDR_EMIT wrote, given to HDR_PARSE on another block, give back the leaf list FreqLeaves of
the emitting side, entry for entry and in order, and TREE_BUILD on both sides then stores the same tree, from which
CODE_DERIVE derives the same codes. -/
def Obligations.HeaderRoundTrip : Prop :=
  ∀ (s t u v : State) (rest : List Byte), Inv s → s.params.eofMode = u.params.eofMode →
    exec .hdrEmit s = .next t → t.fault = false →
    u.inq = t.outq.drop s.outq.length ++ rest → exec .hdrParse u = .next v →
    v.leaves = freqLeaves s.freq ∧ v.leavesValid = true ∧ v.inq = rest ∧
    ∃ a b : State, exec (.treeBuild .freq) s = .next a ∧ exec (.treeBuild .hdr) v = .next b ∧ a.tree = b.tree ∧
      ∀ c d : State, exec .codeDerive a = .next c → exec .codeDerive b = .next d →
        c.code = d.code ∧ c.codesValid = d.codesValid

/-- R216, R212: from a state whose counts are at most 255 every pair of the header HDR_EMIT writes has a count byte
in 1..255, which is the whole count, so no count byte equals the sentinel. -/
def Obligations.HeaderCountsAreNeverTheSentinel : Prop :=
  ∀ (s : State), (∀ c, (freqAt s.freq c).toNat ≤ 255) →
    headerBytes (headerPairs s.freq) = headerOf (freqLeaves s.freq) ∧
    ∀ p ∈ headerPairs s.freq, p.1 ≠ 0 ∧ (freqAt s.freq p.2).toNat = p.1.toNat

/-- R214: LEAF_READ completes when LEAVES_VALID = 1, past the end with 0 and 0; otherwise it raises SEQUENCE_ERROR in
phase HEADER_READ and leaves the results unchanged. -/
def Obligations.LeafReadReadsTheList : Prop :=
  ∀ (s : State) (i : Byte),
    (∀ h : i.toNat < s.leaves.length, s.leavesValid = true → exec (.leafRead i) s = .next { s with
      result0 := s.leaves[i.toNat].weight, result1 := s.leaves[i.toNat].sym.zeroExtend 32,
      busy := false, run := .start }) ∧
    (s.leaves.length ≤ i.toNat → s.leavesValid = true → exec (.leafRead i) s = .next { s with
      result0 := 0, result1 := 0, busy := false, run := .start }) ∧
    (s.leavesValid = false → exec (.leafRead i) s = .next { s with
      fault := true, fcode := 5, fphase := 5, fopc := s.curCmd.extractLsb' 24 8,
      tree := none, codesValid := false, leavesValid := false, busy := false, run := .start })

/-! ## The encoder streamer -/

/-- R230, R231, R82, R84, R85: with valid codes, a code for the symbol, a rack whose unfilled bits are 0 and an OUT
that takes the whole bytes, ENC_BYTE and ENC_EOF complete: the code's bits, most significant first, follow the bits
already written; (WR_CNT + len) div 8 bytes are pushed; the unfilled bits of the rack are 0 again; and nothing else
changes but BUSY. A code of length 0 writes nothing (R195). -/
def Obligations.EncodingAppendsTheCode : Prop :=
  ∀ (s : State) (i : Instr) (sym : Sym),
    ((∃ b : Byte, i = .encByte b ∧ sym = b.zeroExtend 9) ∨ (i = .encEof ∧ sym = s.params.eofSym)) →
    s.codesValid = true → (codeAt s.code sym).valid = true → RackPadded s →
    OutAccepts ((s.wrCnt.toNat + (codeAt s.code sym).len.toNat) / 8) s →
    ∃ (out : List Byte) (rack : Byte) (cnt : BitVec 3) (err : Bool) (after : Option Nat) (t : State),
      t = { s with
        outq := s.outq ++ out, wrRack := rack, wrCnt := cnt, outErr := err, outErrAfter := after,
        busy := false, run := .start } ∧
      exec i s = .next t ∧
      out.length = (s.wrCnt.toNat + (codeAt s.code sym).len.toNat) / 8 ∧
      writtenBits t = writtenBits s ++ entryBits (codeAt s.code sym) ∧ RackPadded t ∧
      (s.outErrAfter = none → err = s.outErr ∧ after = none)

/-- R230, R231, R274: CODES_VALID = 0 raises SEQUENCE_ERROR, and with valid codes a symbol without a code raises
SYMBOL_NOT_IN_TREE, both in phase BIT_ENCODE and before any bit is packed, whatever OUT's error state is. -/
def Obligations.EncodingPreconditions : Prop :=
  ∀ (s : State) (i : Instr) (sym : Sym),
    ((∃ b : Byte, i = .encByte b ∧ sym = b.zeroExtend 9) ∨ (i = .encEof ∧ sym = s.params.eofSym)) →
    (s.codesValid = false ∨ (codeAt s.code sym).valid = false) →
    exec i s = .next { s with
      fault := true, fcode := if s.codesValid then 7 else 5, fphase := 6, fopc := s.curCmd.extractLsb' 24 8,
      tree := none, codesValid := false, leavesValid := false, busy := false, run := .start }

/-- R230, R275, R82: when OUT fails after n bytes, n below the number of bytes the code fills, those n bytes stay in
OUT, IO_FAILURE is raised in phase BIT_ENCODE, and the bits packed before the failing push stay in WR_RACK: the full
rack. Everything else the fault entry does not name is unchanged. That WR_CNT is 0 is the model's reading of "as the
packer left them" in three bits (log 6, DEDUCED, unsafe). -/
def Obligations.EncodingIntoAFailedOut : Prop :=
  ∀ (s : State) (i : Instr) (sym : Sym) (n : Nat),
    ((∃ b : Byte, i = .encByte b ∧ sym = b.zeroExtend 9) ∨ (i = .encEof ∧ sym = s.params.eofSym)) →
    s.codesValid = true → (codeAt s.code sym).valid = true → RackPadded s → OutFailsAfter n s →
    n < (s.wrCnt.toNat + (codeAt s.code sym).len.toNat) / 8 →
    ∃ (out : List Byte) (rack : Byte),
      exec i s = .next { s with
        outq := s.outq ++ out, outErr := true, outErrAfter := if n = 0 then s.outErrAfter else none,
        wrRack := rack, wrCnt := 0,
        fault := true, fcode := 1, fphase := 6, fopc := s.curCmd.extractLsb' 24 8,
        tree := none, codesValid := false, leavesValid := false, busy := false, run := .start } ∧
      out.length = n ∧
      out.flatMap byteBits ++ byteBits rack = (rackBits s ++ entryBits (codeAt s.code sym)).take (8 * (n + 1))

/-- R232, R87: ENC_FLUSH with an empty rack writes nothing; otherwise it pushes the rack, whose unfilled low bits are
the zero padding, and empties it; if OUT is in error it raises IO_FAILURE in phase FLUSH with the rack unchanged. -/
def Obligations.FlushWritesThePaddedRack : Prop :=
  ∀ s : State,
    (s.wrCnt = 0 → exec .encFlush s = .next { s with busy := false, run := .start }) ∧
    (s.wrCnt ≠ 0 → s.outErr = false → RackPadded s →
      ∃ (err : Bool) (after : Option Nat),
        exec .encFlush s = .next { s with
          outq := s.outq ++ [s.wrRack], wrRack := 0, wrCnt := 0, outErr := err, outErrAfter := after,
          busy := false, run := .start } ∧
        byteBits s.wrRack = rackBits s ++ List.replicate (8 - s.wrCnt.toNat) false ∧
        (s.outErrAfter = none → err = s.outErr ∧ after = none)) ∧
    (s.wrCnt ≠ 0 → s.outErr = true → exec .encFlush s = .next { s with
      fault := true, fcode := 1, fphase := 7, fopc := s.curCmd.extractLsb' 24 8,
      tree := none, codesValid := false, leavesValid := false, busy := false, run := .start })

/-- R122, R233: from an empty rack, with valid codes for the bytes and the end-of-stream symbol and an OUT that takes
the payload, ENC_BYTE of each byte, ENC_EOF and ENC_FLUSH append exactly the payload: the codes in order, the
end-of-stream code, and zero bits up to a whole byte. The rack is empty at the end and nothing else changes. -/
def Obligations.EncodingPassWritesThePayload : Prop :=
  ∀ (s : State) (bytes : List Byte), s.codesValid = true → s.wrCnt = 0 → RackPadded s →
    (∀ b ∈ bytes, (codeAt s.code (b.zeroExtend 9)).valid = true) → (codeAt s.code s.params.eofSym).valid = true →
    OutAccepts (((payloadBits s bytes).length + 7) / 8) s →
    ∃ (out : List Byte) (err : Bool) (after : Option Nat),
      execAll (bytes.map .encByte ++ [.encEof, .encFlush]) s = .next { s with
        outq := s.outq ++ out, wrRack := 0, wrCnt := 0, outErr := err, outErrAfter := after,
        busy := false, run := .start } ∧
      out.flatMap byteBits = payloadBits s bytes ++
        List.replicate ((8 - (payloadBits s bytes).length % 8) % 8) false ∧
      out.length = ((payloadBits s bytes).length + 7) / 8 ∧
      (s.outErrAfter = none → err = s.outErr ∧ after = none)

/-! ## The decoder streamer -/

/-- R250, R251, R253: with a tree, EOS = 0 and unread bits that begin with the path of a leaf, DEC_SYMBOL completes:
it reads exactly that path and pops no byte beyond it (R83, R255), RESULT0 is the leaf's symbol, and the symbol goes to OUT, or sets EOS if it is the
end-of-stream symbol. Nothing else changes but BUSY. The one-leaf tree reads no bit. If OUT is in error the PushOut
raises IO_FAILURE in phase BIT_DECODE, with RESULT0 and the bits read as they are then (R275). -/
def Obligations.DecSymbolReadsOneCode : Prop :=
  ∀ (s : State) (root : Tree) (sym : Sym) (path more : List Bool), s.tree = some root → s.eos = false →
    s.rdCnt.toNat ≤ 8 → (sym, path) ∈ treePaths root → unreadBits s = path ++ more →
    ∃ (byte : Byte) (cnt : BitVec 4) (rest : List Byte),
      (sym = s.params.eofSym → exec .decSymbol s = .next { s with
        rdByte := byte, rdCnt := cnt, inq := rest, result0 := sym.zeroExtend 32, eos := true,
        busy := false, run := .start }) ∧
      (sym ≠ s.params.eofSym → s.outErr = false → ∃ (err : Bool) (after : Option Nat),
        exec .decSymbol s = .next { s with
          rdByte := byte, rdCnt := cnt, inq := rest, result0 := sym.zeroExtend 32,
          outq := s.outq ++ [sym.truncate 8], outErr := err, outErrAfter := after,
          busy := false, run := .start } ∧
        (s.outErrAfter = none → err = s.outErr ∧ after = none)) ∧
      (sym ≠ s.params.eofSym → s.outErr = true → exec .decSymbol s = .next { s with
        rdByte := byte, rdCnt := cnt, inq := rest, result0 := sym.zeroExtend 32,
        fault := true, fcode := 1, fphase := 8, fopc := s.curCmd.extractLsb' 24 8,
        tree := none, codesValid := false, leavesValid := false, busy := false, run := .start }) ∧
      lowBits byte cnt.toNat ++ rest.flatMap byteBits = more ∧
      (∃ bytes, s.inq = bytes ++ rest ∧ byte = bytes.getLastD s.rdByte) ∧ (path ≠ [] → cnt.toNat ≤ 7) ∧
      (path = [] → byte = s.rdByte ∧ cnt = s.rdCnt ∧ rest = s.inq)

/-- R250, R257, R274: DEC_SYMBOL and DEC_STREAM with no tree, or with EOS = 1, raise SEQUENCE_ERROR in phase
BIT_DECODE and change nothing else. -/
def Obligations.DecodingPreconditions : Prop :=
  ∀ (s : State) (i : Instr), (i = .decSymbol ∨ i = .decStream) → (s.tree = none ∨ s.eos = true) →
    exec i s = .next { s with
      fault := true, fcode := 5, fphase := 8, fopc := s.curCmd.extractLsb' 24 8,
      tree := none, codesValid := false, leavesValid := false, busy := false, run := .start }

/-- R252, R78: when the unread bits run out at an internal node, DEC_SYMBOL raises IO_FAILURE if IN is in error,
TRUNCATED if IN has ended, both in phase BIT_DECODE, and otherwise holds with BUSY = 1; no byte is pushed. -/
def Obligations.DecSymbolOnACutCode : Prop :=
  ∀ (s : State) (root node : Tree), s.tree = some root → s.eos = false → s.rdCnt.toNat ≤ 8 →
    nodeAt root (unreadBits s) = some node → isLeaf node = false →
      ((s.inErr = true ∨ s.inEnd = true) → exec .decSymbol s = .next { s with
        rdByte := s.inq.getLastD s.rdByte, rdCnt := 0, inq := [],
        fault := true, fcode := if s.inErr then 1 else 2, fphase := 8, fopc := s.curCmd.extractLsb' 24 8,
        tree := none, codesValid := false, leavesValid := false, busy := false, run := .start }) ∧
      (s.inErr = false → s.inEnd = false → exec .decSymbol s = .next { s with
        rdByte := s.inq.getLastD s.rdByte, rdCnt := 0, inq := [], busy := true, run := .decSymbol node })

/-- R254: in compatibility mode no decoding step from a state of the invariant writes the data byte 254, neither the
first step of DEC_SYMBOL or DEC_STREAM nor a later turn of a command in progress: DecodeOne's 254 always ends the
stream, whichever of two leaves labelled 254 it came from. -/
def Obligations.CompatibilityDecoderNeverWrites254 : Prop :=
  ∀ (s t : State) (out : List Byte), Inv s → s.params.eofMode = .compat →
    (exec .decSymbol s = .next t ∨ exec .decStream s = .next t ∨
      (s.busy = true ∧ s.run ≠ .start ∧ blockTurn s = .next t)) →
    t.outq = s.outq ++ out → (254 : Byte) ∉ out

/-- R257, R258: with a tree, EOS = 0, an OUT that takes the symbols, and unread bits that are the codes of `syms`
(none of them the end-of-stream symbol), then the end-of-stream code, then anything: DEC_STREAM runs, and within as
many further turns of the block as there are symbols it completes, with the symbols pushed in order, EOS set,
RESULT0 their number and the rest unread, no byte of it popped (R83, R255). That a symbol is a turn is the model's
choice (log 8, as R80 allows). RESULT0 of 2^32 symbols or more is a free value (log 7). -/
def Obligations.DecStreamDecodesToTheEnd : Prop :=
  ∀ (s : State) (root : Tree) (syms : List (Sym × List Bool)) (last : List Bool) (more : List Bool),
    s.tree = some root → s.eos = false → s.rdCnt.toNat ≤ 8 → OutAccepts syms.length s →
    (∀ p ∈ syms, p ∈ treePaths root ∧ p.1 ≠ s.params.eofSym) → (s.params.eofSym, last) ∈ treePaths root →
    unreadBits s = syms.flatMap (·.2) ++ (last ++ more) →
    ∃ u t : State, exec .decStream s = .next u ∧ blockTurns syms.length u = .next t ∧
      t.outq = s.outq ++ syms.map (fun p => p.1.truncate 8) ∧ unreadBits t = more ∧
      Popped s t ∧ (last ≠ [] → t.rdCnt.toNat ≤ 7) ∧ (last = [] → t.rdCnt = s.rdCnt ∧ t.inq = s.inq) ∧
      (syms.length < 2 ^ 32 → t.result0 = BitVec.ofNat 32 syms.length ∧ t.draws = s.draws) ∧
      (s.outErrAfter = none → t.outErr = s.outErr ∧ t.outErrAfter = none) ∧
      t = { s with
        rdByte := t.rdByte, rdCnt := t.rdCnt, inq := t.inq, outq := t.outq, outErr := t.outErr,
        outErrAfter := t.outErrAfter, result0 := t.result0, draws := t.draws, eos := true, busy := false,
        run := .start }

/-- R256, R257, R252: a decoding command cannot spin. Once the host has ended IN or put it in error, a running
DEC_STREAM ends within one block turn for every unread bit and one more, by the end-of-stream symbol or by a fault.
When the payload runs out inside a code, the symbols before it stay in OUT, RESULT0 is their number, and it raises
IO_FAILURE if IN is in error, TRUNCATED if IN has ended, both in phase BIT_DECODE, and otherwise holds. When OUT
fails after n of the symbols, those stay in OUT, RESULT0 is n, and it raises IO_FAILURE in that phase. Turns are
log 8's; RESULT0 of 2^32 symbols or more is a free value (log 7). -/
def Obligations.DecStreamEndsOnAFiniteInput : Prop :=
  (∀ s : State, Inv s → s.busy = true → (s.run = .streamNext ∨ ∃ node, s.run = .streamAt node) →
    (s.inEnd = true ∨ s.inErr = true) →
    ∃ t : State, blockTurns ((unreadBits s).length + 1) s = .next t ∧ t.busy = false ∧
      (t.eos = true ∨ t.fault = true)) ∧
  ∀ (s : State) (root : Tree) (syms : List (Sym × List Bool)) (more : List Bool),
    s.tree = some root → s.eos = false → s.rdCnt.toNat ≤ 8 →
    (∀ p ∈ syms, p ∈ treePaths root ∧ p.1 ≠ s.params.eofSym) → unreadBits s = syms.flatMap (·.2) ++ more →
    (∀ node, nodeAt root more = some node → isLeaf node = false → OutAccepts syms.length s →
      ∃ (u t : State) (err : Bool) (after : Option Nat) (r : Word) (d : Nat),
        exec .decStream s = .next u ∧ blockTurns syms.length u = .next t ∧
        ((s.inErr = true ∨ s.inEnd = true) → t = { s with
          rdByte := s.inq.getLastD s.rdByte, rdCnt := 0, inq := [],
          outq := s.outq ++ syms.map (fun p => p.1.truncate 8), outErr := err, outErrAfter := after,
          result0 := r, draws := d,
          fault := true, fcode := if s.inErr then 1 else 2, fphase := 8, fopc := s.curCmd.extractLsb' 24 8,
          tree := none, codesValid := false, leavesValid := false, busy := false, run := .start }) ∧
        (s.inErr = false → s.inEnd = false → t = { s with
          rdByte := s.inq.getLastD s.rdByte, rdCnt := 0, inq := [],
          outq := s.outq ++ syms.map (fun p => p.1.truncate 8), outErr := err, outErrAfter := after,
          result0 := r, draws := d, busy := true, run := .streamAt node }) ∧
        (syms.length < 2 ^ 32 → r = BitVec.ofNat 32 syms.length ∧ d = s.draws) ∧
        (s.outErrAfter = none → err = s.outErr ∧ after = none)) ∧
    (∀ n, n < syms.length → OutFailsAfter n s →
      ∃ (u t : State), exec .decStream s = .next u ∧ blockTurns n u = .next t ∧
        (n < 2 ^ 32 → t.result0 = BitVec.ofNat 32 n ∧ t.draws = s.draws) ∧
        unreadBits t = (syms.drop (n + 1)).flatMap (·.2) ++ more ∧ Popped s t ∧
        (isLeaf root = false → t.rdCnt.toNat ≤ 7) ∧
        t = { s with
          rdByte := t.rdByte, rdCnt := t.rdCnt, inq := t.inq,
          outq := s.outq ++ (syms.take n).map (fun p => p.1.truncate 8), outErr := true,
          outErrAfter := if n = 0 then s.outErrAfter else none, result0 := t.result0, draws := t.draws,
          fault := true, fcode := 1, fphase := 8, fopc := s.curCmd.extractLsb' 24 8,
          tree := none, codesValid := false, leavesValid := false, busy := false, run := .start })

/-! ## Holding, faults and whole-machine rules -/

/-- R78, R80: while a command holds and IN is empty, neither ended nor in error, a turn of the block changes no
state. -/
def Obligations.HoldingChangesNothing : Prop :=
  ∀ s : State, Inv s → s.busy = true → s.run ≠ .start → s.run ≠ .streamNext → s.inq = [] → s.inEnd = false →
    s.inErr = false → blockTurn s = .next s

/-- R80: a command that holds resumes exactly where it stopped: when it held and the host then supplied `bytes`, the
block's next turn gives what the command gives on all the bytes at once. It holds of every command's first step, and
of a turn of a command in progress, as a DEC_STREAM after its first symbol. -/
def Obligations.HeldCommandsResumeWhereTheyStopped : Prop :=
  ∀ (s u : State) (bytes : List Byte), s.inEnd = false → s.inErr = false → u.busy = true → u.run ≠ .streamNext →
    (∀ i : Instr, exec i s = .next u →
      blockTurn { u with inq := bytes } = exec i { s with inq := s.inq ++ bytes }) ∧
    (s.run ≠ .start → blockTurn s = .next u →
      blockTurn { u with inq := bytes } = blockTurn { s with inq := s.inq ++ bytes })

/-- R271, R272, R276: a command that faults records its own phase and one of the faults R272 gives it, with the opcode
byte of CUR_CMD; the tree is released, CODES_VALID, LEAVES_VALID and BUSY are 0; FREQ, CODE, OVR, RD_BYTE and EOS
keep their values but for HDR_PARSE, which cleared EOS before (R211), and RD_BYTE of a decoder. The same of a fault
that a later turn of a command in progress raises, whose preconditions are not checked again. -/
def Obligations.FaultsAreTheCommandsOwn : Prop :=
  (∀ (i : Instr) (s t : State), i.wellFormed = true → s.fault = false → exec i s = .next t → t.fault = true →
    (∃ k ∈ mayRaise i.opcode, t.fcode = k.code) ∧ t.fphase = (opcodePhase i.opcode).code ∧
    t.fopc = s.curCmd.extractLsb' 24 8 ∧ t.tree = none ∧ t.codesValid = false ∧ t.leavesValid = false ∧
    t.busy = false ∧ t.freq = s.freq ∧ t.code = s.code ∧ t.ovr = s.ovr ∧ t.params = s.params ∧
    (i ≠ .hdrParse → t.eos = s.eos ∧ t.leaves = s.leaves) ∧
    (i ≠ .decSymbol → i ≠ .decStream → t.rdByte = s.rdByte)) ∧
  ∀ (i : Instr) (s t : State), Inv s → s.busy = true → s.run.command = some i → blockTurn s = .next t →
    t.fault = true →
    (∃ k ∈ mayRaise i.opcode, k ≠ .sequenceError ∧ t.fcode = k.code) ∧
    t.fphase = (opcodePhase i.opcode).code ∧ t.fopc = i.opcode.code ∧
    t.tree = none ∧ t.codesValid = false ∧ t.leavesValid = false ∧ t.busy = false ∧
    t.freq = s.freq ∧ t.code = s.code ∧ t.ovr = s.ovr ∧ t.params = s.params ∧ t.eos = s.eos ∧
    t.wrRack = s.wrRack ∧ t.wrCnt = s.wrCnt ∧ t.result1 = s.result1 ∧
    (i = .hdrParse → t.rdByte = s.rdByte ∧ t.result0 = s.result0 ∧ t.outq = s.outq) ∧
    (i ≠ .hdrParse → t.leaves = s.leaves)

/-- R277: from a state of the invariant with a fault recorded, any step but a reset (the hardware input, or the
accepted word 0x02000000) keeps the fault record and every element of the block's state but BUSY, OVR and CUR_CMD.
-/
def Obligations.FaultIsStickyUntilReset : Prop :=
  ∀ s t : State, Inv s → s.fault = true → step s = .next t →
    s.agenda.head? ≠ some (.host .resetInput) → ¬ (s.busy = true ∧ s.curCmd = 0x02000000) →
    t.fault = true ∧ t.fcode = s.fcode ∧ t.fphase = s.fphase ∧ t.fopc = s.fopc ∧
    t.freq = s.freq ∧ t.leaves = s.leaves ∧ t.leavesValid = s.leavesValid ∧ t.tree = s.tree ∧ t.code = s.code ∧
    t.codesValid = s.codesValid ∧ t.wrRack = s.wrRack ∧ t.wrCnt = s.wrCnt ∧ t.rdByte = s.rdByte ∧
    t.rdCnt = s.rdCnt ∧ t.eos = s.eos ∧ t.result0 = s.result0 ∧ t.result1 = s.result1

/-- R70, R33, R36, R38, R76, R77: which commands can write FREQ, CODE, LEAVES and TREE and each stream; a fault
releases the tree (R276). No command writes the parameters or the host's side of a stream, and none but SOFT_RESET
writes OVR. That none, SOFT_RESET among them, writes CUR_CMD is the model's choice (log 12). -/
def Obligations.OnlyTheNamedCommandsWrite : Prop :=
  ∀ (i : Instr) (s t : State), exec i s = .next t →
    (i ≠ .softReset → i ≠ .freqClear → (∀ b, i ≠ .freqAccum b) → t.freq = s.freq) ∧
    (i ≠ .softReset → i ≠ .codeDerive → (∀ src, i ≠ .treeBuild src) → t.code = s.code) ∧
    (i ≠ .softReset → i ≠ .hdrParse → i ≠ .treeBuild .freq → t.leaves = s.leaves) ∧
    (i ≠ .softReset → i ≠ .treeRelease → i ≠ .hdrParse → (∀ src, i ≠ .treeBuild src) →
      t.tree = s.tree ∨ (t.fault = true ∧ t.tree = none)) ∧
    (i ≠ .hdrParse → i ≠ .decSymbol → i ≠ .decStream → t.inq = s.inq) ∧
    (i ≠ .hdrEmit → (∀ b, i ≠ .encByte b) → i ≠ .encEof → i ≠ .encFlush → i ≠ .decSymbol → i ≠ .decStream →
      t.outq = s.outq ∧ t.outErr = s.outErr) ∧
    s.outq <+: t.outq ∧ t.inq <:+ s.inq ∧
    (i ≠ .softReset → t.ovr = s.ovr) ∧ t.params = s.params ∧ t.curCmd = s.curCmd ∧
    t.inEnd = s.inEnd ∧ t.inErr = s.inErr ∧ t.agenda = s.agenda ∧ t.readData = s.readData

/-- R78, R79: PopIn delivers bytes before an error or an end takes effect, an error wins over an end, and otherwise
the command holds; PushOut fails exactly when OUT is in error and otherwise appends one byte. -/
def Obligations.StreamPrimitives : Prop :=
  ∀ (ph : Phase) (p : Progress) (b : Byte) (rest : List Byte) (s : State),
    (s.inq = b :: rest → popIn ph p s = .ok b { s with inq := rest }) ∧
    (s.inq = [] → s.inErr = true → popIn ph p s = .stop (raise .ioFailure ph s)) ∧
    (s.inq = [] → s.inErr = false → s.inEnd = true → popIn ph p s = .stop (raise .truncated ph s)) ∧
    (s.inq = [] → s.inErr = false → s.inEnd = false →
      popIn ph p s = .stop { s with busy := true, run := p }) ∧
    (s.outErr = true → pushOut ph b s = .stop (raise .ioFailure ph s)) ∧
    (s.outErr = false → ∃ err after, pushOut ph b s =
      .ok () { s with outq := s.outq ++ [b], outErr := err, outErrAfter := after } ∧
      (s.outErrAfter = none → err = s.outErr ∧ after = none))

/-- The invariant holds after reset, for every choice of the parameters (R32, R300). -/
def Obligations.InvariantHoldsAtReset : Prop := ∀ p : Params, Inv (State.resetWith p)

/-- Every step of the machine, the block's or the host's, keeps the invariant: counts in 0..255 (R34), LEAVES entries
in range (R35, R212), a tree that is the one LEAVES gives (R37, R177), code entries of at most 32 bits with an
end-of-stream code when valid (R38, R231), a padded rack (R40), RD_CNT in 0..8 (R41), a well-formed fault record
(R270, R271, R276), and a running command whose position agrees with TREE, LEAVES and CUR_CMD (R31, R56). -/
def Obligations.StepKeepsTheInvariant : Prop := ∀ s t : State, Inv s → step s = .next t → Inv t

/-- No step from a state of the invariant ends in a fault of the machine: the block's faults are recorded in State
and the machine goes on (R276), and every command always has an effect. A block turn is never refused. -/
def Obligations.StepNeverFaults : Prop :=
  ∀ s : State, Inv s → (∀ r, step s ≠ .fault r) ∧ (∀ r, blockTurn s ≠ .refused r)

/-- R304, R305, R258: the round trip. From a clean launch the compression run of any bytes (without 254 in
compatibility mode) ends, if it succeeds, with a file on OUT that the expansion run on another clean block expands
to exactly those bytes, with EOS set. The premise that the run succeeds is R315's; only UNSUPPORTED_DISTRIBUTION
could break it (R194). That a symbol of DEC_STREAM is a turn is the model's choice (log 8, as R80 allows). -/
def Obligations.ExpandInvertsCompress : Prop :=
  ∀ (p : Params) (bytes : List Byte) (s t u : State),
    (p.eofMode = .wide ∨ (254 : Byte) ∉ bytes) → CleanLaunch p [] s →
    issueAll (compressRun bytes) s = .next t → Succeeded t → CleanLaunch p t.outq u →
    ∃ v w : State, issueAll [.hdrParse, .treeBuild .hdr, .decStream] u = .next v ∧
      blockTurns bytes.length v = .next w ∧ w.outq = bytes ∧ w.eos = true ∧ w.busy = false ∧ Succeeded w

/-- R76, R77, R303: what the host's actions on the streams do, and that they change nothing else: appending to IN while
it has not ended, ending it, putting it in error, draining OUT, and putting OUT in error at once or once k + 1 more
bytes are pushed; and giving the block new streams while it is idle. The refusals, draining past the end, and the
delayed error's form are the model's choices (logs 9, 15). -/
def Obligations.HostStreamActions : Prop :=
  ∀ (s : State) (bytes : List Byte) (n : Nat) (ended : Bool),
    (s.inEnd = false → hostTurn (.appendIn bytes) s = .next { s with inq := s.inq ++ bytes }) ∧
    (s.inEnd = true → hostTurn (.appendIn bytes) s = .refused .appendAfterEnd) ∧
    hostTurn .endIn s = .next { s with inEnd := true } ∧
    hostTurn .errIn s = .next { s with inErr := true } ∧
    hostTurn (.takeOut n) s = .next { s with outq := s.outq.drop n } ∧
    hostTurn (.errOut 0) s = .next { s with outErr := true, outErrAfter := none } ∧
    (∀ k, ∃ t : State, hostTurn (.errOut (k + 1)) s = .next t ∧ t = { s with outErrAfter := t.outErrAfter } ∧
      ∀ ph, s.outErr = false → bytes.length ≤ k + 1 → ∃ u : State, pushAll ph bytes t = .ok () u ∧
        u = { s with outq := s.outq ++ bytes, outErr := u.outErr, outErrAfter := u.outErrAfter } ∧
        (u.outErr = true ↔ bytes.length = k + 1)) ∧
    (s.busy = false →
      hostTurn (.giveIn bytes ended) s = .next { s with inq := bytes, inEnd := ended, inErr := false } ∧
      hostTurn .giveOut s = .next { s with outq := [], outErr := false, outErrAfter := none }) ∧
    (s.busy = true → hostTurn (.giveIn bytes ended) s = .refused .streamGivenWhileBusy ∧
      hostTurn .giveOut s = .refused .streamGivenWhileBusy)
end

