-- ==== Sys2Proof/Laws/State.lean ====
section
/-! SUPPORT. What each named update of State does to each field, one lemma per field per update, so that no proof
unfolds a record update. -/

namespace Sys2Proof.Machine

/-! complete -/

@[simp] theorem complete_params (s : State) : (complete s).params = s.params := rfl
@[simp] theorem complete_freq (s : State) : (complete s).freq = s.freq := rfl
@[simp] theorem complete_leaves (s : State) : (complete s).leaves = s.leaves := rfl
@[simp] theorem complete_leavesValid (s : State) : (complete s).leavesValid = s.leavesValid := rfl
@[simp] theorem complete_tree (s : State) : (complete s).tree = s.tree := rfl
@[simp] theorem complete_code (s : State) : (complete s).code = s.code := rfl
@[simp] theorem complete_codesValid (s : State) : (complete s).codesValid = s.codesValid := rfl
@[simp] theorem complete_wrRack (s : State) : (complete s).wrRack = s.wrRack := rfl
@[simp] theorem complete_wrCnt (s : State) : (complete s).wrCnt = s.wrCnt := rfl
@[simp] theorem complete_rdByte (s : State) : (complete s).rdByte = s.rdByte := rfl
@[simp] theorem complete_rdCnt (s : State) : (complete s).rdCnt = s.rdCnt := rfl
@[simp] theorem complete_eos (s : State) : (complete s).eos = s.eos := rfl
@[simp] theorem complete_fault (s : State) : (complete s).fault = s.fault := rfl
@[simp] theorem complete_fcode (s : State) : (complete s).fcode = s.fcode := rfl
@[simp] theorem complete_fphase (s : State) : (complete s).fphase = s.fphase := rfl
@[simp] theorem complete_fopc (s : State) : (complete s).fopc = s.fopc := rfl
@[simp] theorem complete_ovr (s : State) : (complete s).ovr = s.ovr := rfl
@[simp] theorem complete_busy (s : State) : (complete s).busy = false := rfl
@[simp] theorem complete_result0 (s : State) : (complete s).result0 = s.result0 := rfl
@[simp] theorem complete_result1 (s : State) : (complete s).result1 = s.result1 := rfl
@[simp] theorem complete_curCmd (s : State) : (complete s).curCmd = s.curCmd := rfl
@[simp] theorem complete_run (s : State) : (complete s).run = .start := rfl
@[simp] theorem complete_inq (s : State) : (complete s).inq = s.inq := rfl
@[simp] theorem complete_inEnd (s : State) : (complete s).inEnd = s.inEnd := rfl
@[simp] theorem complete_inErr (s : State) : (complete s).inErr = s.inErr := rfl
@[simp] theorem complete_outq (s : State) : (complete s).outq = s.outq := rfl
@[simp] theorem complete_outErr (s : State) : (complete s).outErr = s.outErr := rfl
@[simp] theorem complete_outErrAfter (s : State) : (complete s).outErrAfter = s.outErrAfter := rfl
@[simp] theorem complete_readData (s : State) : (complete s).readData = s.readData := rfl
@[simp] theorem complete_agenda (s : State) : (complete s).agenda = s.agenda := rfl
@[simp] theorem complete_draws (s : State) : (complete s).draws = s.draws := rfl

/-! hold -/

@[simp] theorem hold_params (p : Progress) (s : State) : (hold p s).params = s.params := rfl
@[simp] theorem hold_freq (p : Progress) (s : State) : (hold p s).freq = s.freq := rfl
@[simp] theorem hold_leaves (p : Progress) (s : State) : (hold p s).leaves = s.leaves := rfl
@[simp] theorem hold_leavesValid (p : Progress) (s : State) : (hold p s).leavesValid = s.leavesValid := rfl
@[simp] theorem hold_tree (p : Progress) (s : State) : (hold p s).tree = s.tree := rfl
@[simp] theorem hold_code (p : Progress) (s : State) : (hold p s).code = s.code := rfl
@[simp] theorem hold_codesValid (p : Progress) (s : State) : (hold p s).codesValid = s.codesValid := rfl
@[simp] theorem hold_wrRack (p : Progress) (s : State) : (hold p s).wrRack = s.wrRack := rfl
@[simp] theorem hold_wrCnt (p : Progress) (s : State) : (hold p s).wrCnt = s.wrCnt := rfl
@[simp] theorem hold_rdByte (p : Progress) (s : State) : (hold p s).rdByte = s.rdByte := rfl
@[simp] theorem hold_rdCnt (p : Progress) (s : State) : (hold p s).rdCnt = s.rdCnt := rfl
@[simp] theorem hold_eos (p : Progress) (s : State) : (hold p s).eos = s.eos := rfl
@[simp] theorem hold_fault (p : Progress) (s : State) : (hold p s).fault = s.fault := rfl
@[simp] theorem hold_fcode (p : Progress) (s : State) : (hold p s).fcode = s.fcode := rfl
@[simp] theorem hold_fphase (p : Progress) (s : State) : (hold p s).fphase = s.fphase := rfl
@[simp] theorem hold_fopc (p : Progress) (s : State) : (hold p s).fopc = s.fopc := rfl
@[simp] theorem hold_ovr (p : Progress) (s : State) : (hold p s).ovr = s.ovr := rfl
@[simp] theorem hold_busy (p : Progress) (s : State) : (hold p s).busy = true := rfl
@[simp] theorem hold_result0 (p : Progress) (s : State) : (hold p s).result0 = s.result0 := rfl
@[simp] theorem hold_result1 (p : Progress) (s : State) : (hold p s).result1 = s.result1 := rfl
@[simp] theorem hold_curCmd (p : Progress) (s : State) : (hold p s).curCmd = s.curCmd := rfl
@[simp] theorem hold_run (p : Progress) (s : State) : (hold p s).run = p := rfl
@[simp] theorem hold_inq (p : Progress) (s : State) : (hold p s).inq = s.inq := rfl
@[simp] theorem hold_inEnd (p : Progress) (s : State) : (hold p s).inEnd = s.inEnd := rfl
@[simp] theorem hold_inErr (p : Progress) (s : State) : (hold p s).inErr = s.inErr := rfl
@[simp] theorem hold_outq (p : Progress) (s : State) : (hold p s).outq = s.outq := rfl
@[simp] theorem hold_outErr (p : Progress) (s : State) : (hold p s).outErr = s.outErr := rfl
@[simp] theorem hold_outErrAfter (p : Progress) (s : State) : (hold p s).outErrAfter = s.outErrAfter := rfl
@[simp] theorem hold_readData (p : Progress) (s : State) : (hold p s).readData = s.readData := rfl
@[simp] theorem hold_agenda (p : Progress) (s : State) : (hold p s).agenda = s.agenda := rfl
@[simp] theorem hold_draws (p : Progress) (s : State) : (hold p s).draws = s.draws := rfl

/-! setResults -/

@[simp] theorem setResults_params (r0 r1 : Word) (s : State) : (setResults r0 r1 s).params = s.params := rfl
@[simp] theorem setResults_freq (r0 r1 : Word) (s : State) : (setResults r0 r1 s).freq = s.freq := rfl
@[simp] theorem setResults_leaves (r0 r1 : Word) (s : State) : (setResults r0 r1 s).leaves = s.leaves := rfl
@[simp] theorem setResults_leavesValid (r0 r1 : Word) (s : State) : (setResults r0 r1 s).leavesValid = s.leavesValid := rfl
@[simp] theorem setResults_tree (r0 r1 : Word) (s : State) : (setResults r0 r1 s).tree = s.tree := rfl
@[simp] theorem setResults_code (r0 r1 : Word) (s : State) : (setResults r0 r1 s).code = s.code := rfl
@[simp] theorem setResults_codesValid (r0 r1 : Word) (s : State) : (setResults r0 r1 s).codesValid = s.codesValid := rfl
@[simp] theorem setResults_wrRack (r0 r1 : Word) (s : State) : (setResults r0 r1 s).wrRack = s.wrRack := rfl
@[simp] theorem setResults_wrCnt (r0 r1 : Word) (s : State) : (setResults r0 r1 s).wrCnt = s.wrCnt := rfl
@[simp] theorem setResults_rdByte (r0 r1 : Word) (s : State) : (setResults r0 r1 s).rdByte = s.rdByte := rfl
@[simp] theorem setResults_rdCnt (r0 r1 : Word) (s : State) : (setResults r0 r1 s).rdCnt = s.rdCnt := rfl
@[simp] theorem setResults_eos (r0 r1 : Word) (s : State) : (setResults r0 r1 s).eos = s.eos := rfl
@[simp] theorem setResults_fault (r0 r1 : Word) (s : State) : (setResults r0 r1 s).fault = s.fault := rfl
@[simp] theorem setResults_fcode (r0 r1 : Word) (s : State) : (setResults r0 r1 s).fcode = s.fcode := rfl
@[simp] theorem setResults_fphase (r0 r1 : Word) (s : State) : (setResults r0 r1 s).fphase = s.fphase := rfl
@[simp] theorem setResults_fopc (r0 r1 : Word) (s : State) : (setResults r0 r1 s).fopc = s.fopc := rfl
@[simp] theorem setResults_ovr (r0 r1 : Word) (s : State) : (setResults r0 r1 s).ovr = s.ovr := rfl
@[simp] theorem setResults_busy (r0 r1 : Word) (s : State) : (setResults r0 r1 s).busy = s.busy := rfl
@[simp] theorem setResults_result0 (r0 r1 : Word) (s : State) : (setResults r0 r1 s).result0 = r0 := rfl
@[simp] theorem setResults_result1 (r0 r1 : Word) (s : State) : (setResults r0 r1 s).result1 = r1 := rfl
@[simp] theorem setResults_curCmd (r0 r1 : Word) (s : State) : (setResults r0 r1 s).curCmd = s.curCmd := rfl
@[simp] theorem setResults_run (r0 r1 : Word) (s : State) : (setResults r0 r1 s).run = s.run := rfl
@[simp] theorem setResults_inq (r0 r1 : Word) (s : State) : (setResults r0 r1 s).inq = s.inq := rfl
@[simp] theorem setResults_inEnd (r0 r1 : Word) (s : State) : (setResults r0 r1 s).inEnd = s.inEnd := rfl
@[simp] theorem setResults_inErr (r0 r1 : Word) (s : State) : (setResults r0 r1 s).inErr = s.inErr := rfl
@[simp] theorem setResults_outq (r0 r1 : Word) (s : State) : (setResults r0 r1 s).outq = s.outq := rfl
@[simp] theorem setResults_outErr (r0 r1 : Word) (s : State) : (setResults r0 r1 s).outErr = s.outErr := rfl
@[simp] theorem setResults_outErrAfter (r0 r1 : Word) (s : State) : (setResults r0 r1 s).outErrAfter = s.outErrAfter := rfl
@[simp] theorem setResults_readData (r0 r1 : Word) (s : State) : (setResults r0 r1 s).readData = s.readData := rfl
@[simp] theorem setResults_agenda (r0 r1 : Word) (s : State) : (setResults r0 r1 s).agenda = s.agenda := rfl
@[simp] theorem setResults_draws (r0 r1 : Word) (s : State) : (setResults r0 r1 s).draws = s.draws := rfl

/-! raise -/

@[simp] theorem raise_params (k : FaultKind) (ph : Phase) (s : State) : (raise k ph s).params = s.params := rfl
@[simp] theorem raise_freq (k : FaultKind) (ph : Phase) (s : State) : (raise k ph s).freq = s.freq := rfl
@[simp] theorem raise_leaves (k : FaultKind) (ph : Phase) (s : State) : (raise k ph s).leaves = s.leaves := rfl
@[simp] theorem raise_leavesValid (k : FaultKind) (ph : Phase) (s : State) : (raise k ph s).leavesValid = false := rfl
@[simp] theorem raise_tree (k : FaultKind) (ph : Phase) (s : State) : (raise k ph s).tree = none := rfl
@[simp] theorem raise_code (k : FaultKind) (ph : Phase) (s : State) : (raise k ph s).code = s.code := rfl
@[simp] theorem raise_codesValid (k : FaultKind) (ph : Phase) (s : State) : (raise k ph s).codesValid = false := rfl
@[simp] theorem raise_wrRack (k : FaultKind) (ph : Phase) (s : State) : (raise k ph s).wrRack = s.wrRack := rfl
@[simp] theorem raise_wrCnt (k : FaultKind) (ph : Phase) (s : State) : (raise k ph s).wrCnt = s.wrCnt := rfl
@[simp] theorem raise_rdByte (k : FaultKind) (ph : Phase) (s : State) : (raise k ph s).rdByte = s.rdByte := rfl
@[simp] theorem raise_rdCnt (k : FaultKind) (ph : Phase) (s : State) : (raise k ph s).rdCnt = s.rdCnt := rfl
@[simp] theorem raise_eos (k : FaultKind) (ph : Phase) (s : State) : (raise k ph s).eos = s.eos := rfl
@[simp] theorem raise_fault (k : FaultKind) (ph : Phase) (s : State) : (raise k ph s).fault = true := rfl
@[simp] theorem raise_fcode (k : FaultKind) (ph : Phase) (s : State) : (raise k ph s).fcode = k.code := rfl
@[simp] theorem raise_fphase (k : FaultKind) (ph : Phase) (s : State) : (raise k ph s).fphase = ph.code := rfl
@[simp] theorem raise_fopc (k : FaultKind) (ph : Phase) (s : State) : (raise k ph s).fopc = opcField s.curCmd := rfl
@[simp] theorem raise_ovr (k : FaultKind) (ph : Phase) (s : State) : (raise k ph s).ovr = s.ovr := rfl
@[simp] theorem raise_busy (k : FaultKind) (ph : Phase) (s : State) : (raise k ph s).busy = false := rfl
@[simp] theorem raise_result0 (k : FaultKind) (ph : Phase) (s : State) : (raise k ph s).result0 = s.result0 := rfl
@[simp] theorem raise_result1 (k : FaultKind) (ph : Phase) (s : State) : (raise k ph s).result1 = s.result1 := rfl
@[simp] theorem raise_curCmd (k : FaultKind) (ph : Phase) (s : State) : (raise k ph s).curCmd = s.curCmd := rfl
@[simp] theorem raise_run (k : FaultKind) (ph : Phase) (s : State) : (raise k ph s).run = .start := rfl
@[simp] theorem raise_inq (k : FaultKind) (ph : Phase) (s : State) : (raise k ph s).inq = s.inq := rfl
@[simp] theorem raise_inEnd (k : FaultKind) (ph : Phase) (s : State) : (raise k ph s).inEnd = s.inEnd := rfl
@[simp] theorem raise_inErr (k : FaultKind) (ph : Phase) (s : State) : (raise k ph s).inErr = s.inErr := rfl
@[simp] theorem raise_outq (k : FaultKind) (ph : Phase) (s : State) : (raise k ph s).outq = s.outq := rfl
@[simp] theorem raise_outErr (k : FaultKind) (ph : Phase) (s : State) : (raise k ph s).outErr = s.outErr := rfl
@[simp] theorem raise_outErrAfter (k : FaultKind) (ph : Phase) (s : State) : (raise k ph s).outErrAfter = s.outErrAfter := rfl
@[simp] theorem raise_readData (k : FaultKind) (ph : Phase) (s : State) : (raise k ph s).readData = s.readData := rfl
@[simp] theorem raise_agenda (k : FaultKind) (ph : Phase) (s : State) : (raise k ph s).agenda = s.agenda := rfl
@[simp] theorem raise_draws (k : FaultKind) (ph : Phase) (s : State) : (raise k ph s).draws = s.draws := rfl

/-! applyReset -/

@[simp] theorem applyReset_params (s : State) : (applyReset s).params = s.params := rfl
@[simp] theorem applyReset_freq (s : State) : (applyReset s).freq = Vector.replicate 256 0 := rfl
@[simp] theorem applyReset_leaves (s : State) : (applyReset s).leaves = [] := rfl
@[simp] theorem applyReset_leavesValid (s : State) : (applyReset s).leavesValid = false := rfl
@[simp] theorem applyReset_tree (s : State) : (applyReset s).tree = none := rfl
@[simp] theorem applyReset_code (s : State) : (applyReset s).code = Vector.replicate 257 CodeEntry.cleared := rfl
@[simp] theorem applyReset_codesValid (s : State) : (applyReset s).codesValid = false := rfl
@[simp] theorem applyReset_wrRack (s : State) : (applyReset s).wrRack = 0 := rfl
@[simp] theorem applyReset_wrCnt (s : State) : (applyReset s).wrCnt = 0 := rfl
@[simp] theorem applyReset_rdByte (s : State) : (applyReset s).rdByte = 0 := rfl
@[simp] theorem applyReset_rdCnt (s : State) : (applyReset s).rdCnt = 0 := rfl
@[simp] theorem applyReset_eos (s : State) : (applyReset s).eos = false := rfl
@[simp] theorem applyReset_fault (s : State) : (applyReset s).fault = false := rfl
@[simp] theorem applyReset_fcode (s : State) : (applyReset s).fcode = 0 := rfl
@[simp] theorem applyReset_fphase (s : State) : (applyReset s).fphase = 0 := rfl
@[simp] theorem applyReset_fopc (s : State) : (applyReset s).fopc = 0 := rfl
@[simp] theorem applyReset_ovr (s : State) : (applyReset s).ovr = false := rfl
@[simp] theorem applyReset_busy (s : State) : (applyReset s).busy = false := rfl
@[simp] theorem applyReset_result0 (s : State) : (applyReset s).result0 = 0 := rfl
@[simp] theorem applyReset_result1 (s : State) : (applyReset s).result1 = 0 := rfl
@[simp] theorem applyReset_curCmd (s : State) : (applyReset s).curCmd = s.curCmd := rfl
@[simp] theorem applyReset_run (s : State) : (applyReset s).run = .start := rfl
@[simp] theorem applyReset_inq (s : State) : (applyReset s).inq = s.inq := rfl
@[simp] theorem applyReset_inEnd (s : State) : (applyReset s).inEnd = s.inEnd := rfl
@[simp] theorem applyReset_inErr (s : State) : (applyReset s).inErr = s.inErr := rfl
@[simp] theorem applyReset_outq (s : State) : (applyReset s).outq = s.outq := rfl
@[simp] theorem applyReset_outErr (s : State) : (applyReset s).outErr = s.outErr := rfl
@[simp] theorem applyReset_outErrAfter (s : State) : (applyReset s).outErrAfter = s.outErrAfter := rfl
@[simp] theorem applyReset_readData (s : State) : (applyReset s).readData = s.readData := rfl
@[simp] theorem applyReset_agenda (s : State) : (applyReset s).agenda = s.agenda := rfl
@[simp] theorem applyReset_draws (s : State) : (applyReset s).draws = s.draws := rfl

/-! emit -/

@[simp] theorem emit_params (b : Byte) (s : State) : (emit b s).params = s.params := rfl
@[simp] theorem emit_freq (b : Byte) (s : State) : (emit b s).freq = s.freq := rfl
@[simp] theorem emit_leaves (b : Byte) (s : State) : (emit b s).leaves = s.leaves := rfl
@[simp] theorem emit_leavesValid (b : Byte) (s : State) : (emit b s).leavesValid = s.leavesValid := rfl
@[simp] theorem emit_tree (b : Byte) (s : State) : (emit b s).tree = s.tree := rfl
@[simp] theorem emit_code (b : Byte) (s : State) : (emit b s).code = s.code := rfl
@[simp] theorem emit_codesValid (b : Byte) (s : State) : (emit b s).codesValid = s.codesValid := rfl
@[simp] theorem emit_wrRack (b : Byte) (s : State) : (emit b s).wrRack = s.wrRack := rfl
@[simp] theorem emit_wrCnt (b : Byte) (s : State) : (emit b s).wrCnt = s.wrCnt := rfl
@[simp] theorem emit_rdByte (b : Byte) (s : State) : (emit b s).rdByte = s.rdByte := rfl
@[simp] theorem emit_rdCnt (b : Byte) (s : State) : (emit b s).rdCnt = s.rdCnt := rfl
@[simp] theorem emit_eos (b : Byte) (s : State) : (emit b s).eos = s.eos := rfl
@[simp] theorem emit_fault (b : Byte) (s : State) : (emit b s).fault = s.fault := rfl
@[simp] theorem emit_fcode (b : Byte) (s : State) : (emit b s).fcode = s.fcode := rfl
@[simp] theorem emit_fphase (b : Byte) (s : State) : (emit b s).fphase = s.fphase := rfl
@[simp] theorem emit_fopc (b : Byte) (s : State) : (emit b s).fopc = s.fopc := rfl
@[simp] theorem emit_ovr (b : Byte) (s : State) : (emit b s).ovr = s.ovr := rfl
@[simp] theorem emit_busy (b : Byte) (s : State) : (emit b s).busy = s.busy := rfl
@[simp] theorem emit_result0 (b : Byte) (s : State) : (emit b s).result0 = s.result0 := rfl
@[simp] theorem emit_result1 (b : Byte) (s : State) : (emit b s).result1 = s.result1 := rfl
@[simp] theorem emit_curCmd (b : Byte) (s : State) : (emit b s).curCmd = s.curCmd := rfl
@[simp] theorem emit_run (b : Byte) (s : State) : (emit b s).run = s.run := rfl
@[simp] theorem emit_inq (b : Byte) (s : State) : (emit b s).inq = s.inq := rfl
@[simp] theorem emit_inEnd (b : Byte) (s : State) : (emit b s).inEnd = s.inEnd := rfl
@[simp] theorem emit_inErr (b : Byte) (s : State) : (emit b s).inErr = s.inErr := rfl
@[simp] theorem emit_outq (b : Byte) (s : State) : (emit b s).outq = s.outq ++ [b] := rfl
@[simp] theorem emit_outErr (b : Byte) (s : State) : (emit b s).outErr = (s.outErr || s.outErrAfter == some 0) := rfl
@[simp] theorem emit_readData (b : Byte) (s : State) : (emit b s).readData = s.readData := rfl
@[simp] theorem emit_agenda (b : Byte) (s : State) : (emit b s).agenda = s.agenda := rfl
@[simp] theorem emit_draws (b : Byte) (s : State) : (emit b s).draws = s.draws := rfl

/-! acceptCommand -/

@[simp] theorem acceptCommand_params (w : Word) (s : State) : (acceptCommand w s).params = s.params := rfl
@[simp] theorem acceptCommand_freq (w : Word) (s : State) : (acceptCommand w s).freq = s.freq := rfl
@[simp] theorem acceptCommand_leaves (w : Word) (s : State) : (acceptCommand w s).leaves = s.leaves := rfl
@[simp] theorem acceptCommand_leavesValid (w : Word) (s : State) : (acceptCommand w s).leavesValid = s.leavesValid := rfl
@[simp] theorem acceptCommand_tree (w : Word) (s : State) : (acceptCommand w s).tree = s.tree := rfl
@[simp] theorem acceptCommand_code (w : Word) (s : State) : (acceptCommand w s).code = s.code := rfl
@[simp] theorem acceptCommand_codesValid (w : Word) (s : State) : (acceptCommand w s).codesValid = s.codesValid := rfl
@[simp] theorem acceptCommand_wrRack (w : Word) (s : State) : (acceptCommand w s).wrRack = s.wrRack := rfl
@[simp] theorem acceptCommand_wrCnt (w : Word) (s : State) : (acceptCommand w s).wrCnt = s.wrCnt := rfl
@[simp] theorem acceptCommand_rdByte (w : Word) (s : State) : (acceptCommand w s).rdByte = s.rdByte := rfl
@[simp] theorem acceptCommand_rdCnt (w : Word) (s : State) : (acceptCommand w s).rdCnt = s.rdCnt := rfl
@[simp] theorem acceptCommand_eos (w : Word) (s : State) : (acceptCommand w s).eos = s.eos := rfl
@[simp] theorem acceptCommand_fault (w : Word) (s : State) : (acceptCommand w s).fault = s.fault := rfl
@[simp] theorem acceptCommand_fcode (w : Word) (s : State) : (acceptCommand w s).fcode = s.fcode := rfl
@[simp] theorem acceptCommand_fphase (w : Word) (s : State) : (acceptCommand w s).fphase = s.fphase := rfl
@[simp] theorem acceptCommand_fopc (w : Word) (s : State) : (acceptCommand w s).fopc = s.fopc := rfl
@[simp] theorem acceptCommand_ovr (w : Word) (s : State) : (acceptCommand w s).ovr = s.ovr := rfl
@[simp] theorem acceptCommand_busy (w : Word) (s : State) : (acceptCommand w s).busy = true := rfl
@[simp] theorem acceptCommand_result0 (w : Word) (s : State) : (acceptCommand w s).result0 = s.result0 := rfl
@[simp] theorem acceptCommand_result1 (w : Word) (s : State) : (acceptCommand w s).result1 = s.result1 := rfl
@[simp] theorem acceptCommand_curCmd (w : Word) (s : State) : (acceptCommand w s).curCmd = w := rfl
@[simp] theorem acceptCommand_run (w : Word) (s : State) : (acceptCommand w s).run = .start := rfl
@[simp] theorem acceptCommand_inq (w : Word) (s : State) : (acceptCommand w s).inq = s.inq := rfl
@[simp] theorem acceptCommand_inEnd (w : Word) (s : State) : (acceptCommand w s).inEnd = s.inEnd := rfl
@[simp] theorem acceptCommand_inErr (w : Word) (s : State) : (acceptCommand w s).inErr = s.inErr := rfl
@[simp] theorem acceptCommand_outq (w : Word) (s : State) : (acceptCommand w s).outq = s.outq := rfl
@[simp] theorem acceptCommand_outErr (w : Word) (s : State) : (acceptCommand w s).outErr = s.outErr := rfl
@[simp] theorem acceptCommand_outErrAfter (w : Word) (s : State) : (acceptCommand w s).outErrAfter = s.outErrAfter := rfl
@[simp] theorem acceptCommand_readData (w : Word) (s : State) : (acceptCommand w s).readData = s.readData := rfl
@[simp] theorem acceptCommand_agenda (w : Word) (s : State) : (acceptCommand w s).agenda = s.agenda := rfl
@[simp] theorem acceptCommand_draws (w : Word) (s : State) : (acceptCommand w s).draws = s.draws := rfl

/-! returnRead -/

@[simp] theorem returnRead_params (w : Word) (s : State) : (returnRead w s).params = s.params := rfl
@[simp] theorem returnRead_freq (w : Word) (s : State) : (returnRead w s).freq = s.freq := rfl
@[simp] theorem returnRead_leaves (w : Word) (s : State) : (returnRead w s).leaves = s.leaves := rfl
@[simp] theorem returnRead_leavesValid (w : Word) (s : State) : (returnRead w s).leavesValid = s.leavesValid := rfl
@[simp] theorem returnRead_tree (w : Word) (s : State) : (returnRead w s).tree = s.tree := rfl
@[simp] theorem returnRead_code (w : Word) (s : State) : (returnRead w s).code = s.code := rfl
@[simp] theorem returnRead_codesValid (w : Word) (s : State) : (returnRead w s).codesValid = s.codesValid := rfl
@[simp] theorem returnRead_wrRack (w : Word) (s : State) : (returnRead w s).wrRack = s.wrRack := rfl
@[simp] theorem returnRead_wrCnt (w : Word) (s : State) : (returnRead w s).wrCnt = s.wrCnt := rfl
@[simp] theorem returnRead_rdByte (w : Word) (s : State) : (returnRead w s).rdByte = s.rdByte := rfl
@[simp] theorem returnRead_rdCnt (w : Word) (s : State) : (returnRead w s).rdCnt = s.rdCnt := rfl
@[simp] theorem returnRead_eos (w : Word) (s : State) : (returnRead w s).eos = s.eos := rfl
@[simp] theorem returnRead_fault (w : Word) (s : State) : (returnRead w s).fault = s.fault := rfl
@[simp] theorem returnRead_fcode (w : Word) (s : State) : (returnRead w s).fcode = s.fcode := rfl
@[simp] theorem returnRead_fphase (w : Word) (s : State) : (returnRead w s).fphase = s.fphase := rfl
@[simp] theorem returnRead_fopc (w : Word) (s : State) : (returnRead w s).fopc = s.fopc := rfl
@[simp] theorem returnRead_ovr (w : Word) (s : State) : (returnRead w s).ovr = s.ovr := rfl
@[simp] theorem returnRead_busy (w : Word) (s : State) : (returnRead w s).busy = s.busy := rfl
@[simp] theorem returnRead_result0 (w : Word) (s : State) : (returnRead w s).result0 = s.result0 := rfl
@[simp] theorem returnRead_result1 (w : Word) (s : State) : (returnRead w s).result1 = s.result1 := rfl
@[simp] theorem returnRead_curCmd (w : Word) (s : State) : (returnRead w s).curCmd = s.curCmd := rfl
@[simp] theorem returnRead_run (w : Word) (s : State) : (returnRead w s).run = s.run := rfl
@[simp] theorem returnRead_inq (w : Word) (s : State) : (returnRead w s).inq = s.inq := rfl
@[simp] theorem returnRead_inEnd (w : Word) (s : State) : (returnRead w s).inEnd = s.inEnd := rfl
@[simp] theorem returnRead_inErr (w : Word) (s : State) : (returnRead w s).inErr = s.inErr := rfl
@[simp] theorem returnRead_outq (w : Word) (s : State) : (returnRead w s).outq = s.outq := rfl
@[simp] theorem returnRead_outErr (w : Word) (s : State) : (returnRead w s).outErr = s.outErr := rfl
@[simp] theorem returnRead_outErrAfter (w : Word) (s : State) : (returnRead w s).outErrAfter = s.outErrAfter := rfl
@[simp] theorem returnRead_readData (w : Word) (s : State) : (returnRead w s).readData = some w := rfl
@[simp] theorem returnRead_agenda (w : Word) (s : State) : (returnRead w s).agenda = s.agenda := rfl
@[simp] theorem returnRead_draws (w : Word) (s : State) : (returnRead w s).draws = s.draws := rfl

/-! drawRead -/

@[simp] theorem drawRead_params (f : Word → Word) (s : State) : (drawRead f s).params = s.params := rfl
@[simp] theorem drawRead_freq (f : Word → Word) (s : State) : (drawRead f s).freq = s.freq := rfl
@[simp] theorem drawRead_leaves (f : Word → Word) (s : State) : (drawRead f s).leaves = s.leaves := rfl
@[simp] theorem drawRead_leavesValid (f : Word → Word) (s : State) : (drawRead f s).leavesValid = s.leavesValid := rfl
@[simp] theorem drawRead_tree (f : Word → Word) (s : State) : (drawRead f s).tree = s.tree := rfl
@[simp] theorem drawRead_code (f : Word → Word) (s : State) : (drawRead f s).code = s.code := rfl
@[simp] theorem drawRead_codesValid (f : Word → Word) (s : State) : (drawRead f s).codesValid = s.codesValid := rfl
@[simp] theorem drawRead_wrRack (f : Word → Word) (s : State) : (drawRead f s).wrRack = s.wrRack := rfl
@[simp] theorem drawRead_wrCnt (f : Word → Word) (s : State) : (drawRead f s).wrCnt = s.wrCnt := rfl
@[simp] theorem drawRead_rdByte (f : Word → Word) (s : State) : (drawRead f s).rdByte = s.rdByte := rfl
@[simp] theorem drawRead_rdCnt (f : Word → Word) (s : State) : (drawRead f s).rdCnt = s.rdCnt := rfl
@[simp] theorem drawRead_eos (f : Word → Word) (s : State) : (drawRead f s).eos = s.eos := rfl
@[simp] theorem drawRead_fault (f : Word → Word) (s : State) : (drawRead f s).fault = s.fault := rfl
@[simp] theorem drawRead_fcode (f : Word → Word) (s : State) : (drawRead f s).fcode = s.fcode := rfl
@[simp] theorem drawRead_fphase (f : Word → Word) (s : State) : (drawRead f s).fphase = s.fphase := rfl
@[simp] theorem drawRead_fopc (f : Word → Word) (s : State) : (drawRead f s).fopc = s.fopc := rfl
@[simp] theorem drawRead_ovr (f : Word → Word) (s : State) : (drawRead f s).ovr = s.ovr := rfl
@[simp] theorem drawRead_busy (f : Word → Word) (s : State) : (drawRead f s).busy = s.busy := rfl
@[simp] theorem drawRead_result0 (f : Word → Word) (s : State) : (drawRead f s).result0 = s.result0 := rfl
@[simp] theorem drawRead_result1 (f : Word → Word) (s : State) : (drawRead f s).result1 = s.result1 := rfl
@[simp] theorem drawRead_curCmd (f : Word → Word) (s : State) : (drawRead f s).curCmd = s.curCmd := rfl
@[simp] theorem drawRead_run (f : Word → Word) (s : State) : (drawRead f s).run = s.run := rfl
@[simp] theorem drawRead_inq (f : Word → Word) (s : State) : (drawRead f s).inq = s.inq := rfl
@[simp] theorem drawRead_inEnd (f : Word → Word) (s : State) : (drawRead f s).inEnd = s.inEnd := rfl
@[simp] theorem drawRead_inErr (f : Word → Word) (s : State) : (drawRead f s).inErr = s.inErr := rfl
@[simp] theorem drawRead_outq (f : Word → Word) (s : State) : (drawRead f s).outq = s.outq := rfl
@[simp] theorem drawRead_outErr (f : Word → Word) (s : State) : (drawRead f s).outErr = s.outErr := rfl
@[simp] theorem drawRead_outErrAfter (f : Word → Word) (s : State) : (drawRead f s).outErrAfter = s.outErrAfter := rfl
@[simp] theorem drawRead_readData (f : Word → Word) (s : State) : (drawRead f s).readData = some (f (Config.freeRead s.draws)) := rfl
@[simp] theorem drawRead_agenda (f : Word → Word) (s : State) : (drawRead f s).agenda = s.agenda := rfl
@[simp] theorem drawRead_draws (f : Word → Word) (s : State) : (drawRead f s).draws = s.draws + 1 := rfl

end Sys2Proof.Machine
end

