-- ==== Sys2Proof/Laws/Streams.lean ====
section
/-! SUPPORT. The byte streams: everything PopIn, PushOut and a row of PushOuts can do (R78, R79, R88). -/

namespace Sys2Proof.Machine

theorem popIn_cons {ph : Phase} {p : Progress} {s : State} {b : Byte} {rest : List Byte} (h : s.inq = b :: rest) :
    popIn ph p s = .ok b { s with inq := rest } := by
  simp [popIn, h]

theorem popIn_nil {ph : Phase} {p : Progress} {s : State} (h : s.inq = []) :
    popIn ph p s = .stop (starve ph p s) := by
  simp [popIn, h]

/-- PopIn with nothing to pop (R78): one of three ends. -/
theorem starve_cases (ph : Phase) (p : Progress) (s : State) :
    (s.inErr = true ∧ starve ph p s = raise .ioFailure ph s) ∨
    (s.inErr = false ∧ s.inEnd = true ∧ starve ph p s = raise .truncated ph s) ∨
    (s.inErr = false ∧ s.inEnd = false ∧ starve ph p s = hold p s) := by
  unfold starve
  cases s.inErr <;> cases s.inEnd <;> simp

theorem pushOut_failed {ph : Phase} {b : Byte} {s : State} (h : s.outErr = true) :
    pushOut ph b s = .stop (raise .ioFailure ph s) := by
  simp [pushOut, h]

theorem pushOut_ok {ph : Phase} {b : Byte} {s : State} (h : s.outErr = false) :
    pushOut ph b s = .ok () (emit b s) := by
  simp [pushOut, h]

/-- Appending a byte changes the OUT stream and nothing else (R79). -/
theorem emit_frame (b : Byte) (s : State) :
    emit b s = { s with
      outq := s.outq ++ [b], outErr := (emit b s).outErr, outErrAfter := (emit b s).outErrAfter } := rfl

/-- With no error scheduled, none arrives. -/
theorem emit_quiet {b : Byte} {s : State} (ha : s.outErrAfter = none) :
    (emit b s).outErr = s.outErr ∧ (emit b s).outErrAfter = none := by
  simp [emit, ha]

/-- An OUT that takes n + 1 bytes takes n once one is appended. -/
theorem OutAccepts.emit {n : Nat} {s : State} (b : Byte) (h : OutAccepts (n + 1) s) :
    OutAccepts n (emit b s) := by
  intro hn
  obtain ⟨h1, h2⟩ := h (by omega)
  refine ⟨?_, ?_⟩
  · simp only [emit_outErr, h1, Bool.false_or, beq_eq_false_iff_ne]
    intro h; have := h2 0 h; omega
  · intro k hk
    simp only [Machine.emit] at hk
    split at hk
    · rename_i m hm
      have := h2 _ hm
      simp only [Option.some.injEq] at hk; omega
    · simp at hk

theorem OutAccepts.mono {n m : Nat} {s : State} (h : OutAccepts n s) (hm : m ≤ n) : OutAccepts m s := by
  intro hpos
  obtain ⟨h1, h2⟩ := h (by omega)
  exact ⟨h1, fun k hk => Nat.le_trans hm (h2 k hk)⟩

/-- Whether OUT takes n bytes depends on its error state alone. -/
theorem OutAccepts.congr {n : Nat} {s t : State} (h : OutAccepts n s) (h1 : t.outErr = s.outErr)
    (h2 : t.outErrAfter = s.outErrAfter) : OutAccepts n t := by
  unfold OutAccepts; rw [h1, h2]; exact h

/-- An OUT that takes all the bytes takes them in order, and only OUT changes (R88). -/
theorem pushAll_ok (ph : Phase) (bs : List Byte) (s : State) (h : OutAccepts bs.length s) :
    ∃ err after, pushAll ph bs s = .ok () { s with
        outq := s.outq ++ bs, outErr := err, outErrAfter := after } ∧
      (s.outErrAfter = none → err = s.outErr ∧ after = none) := by
  induction bs generalizing s with
  | nil => exact ⟨s.outErr, s.outErrAfter, by simp [pushAll], fun ha => ⟨rfl, ha⟩⟩
  | cons b bs ih =>
    obtain ⟨err, after, h1, h2⟩ := ih (emit b s) (h.emit b)
    refine ⟨err, after, ?_, fun ha => ?_⟩
    · rw [pushAll, pushOut_ok (h (by simp)).1]
      simp only [h1]
      simp [emit]
    · have := h2 (emit_quiet ha).2
      rwa [(emit_quiet ha).1] at this

/-- An OUT that fails after n bytes takes exactly those and the command ends with IO_FAILURE (R79, R275). -/
theorem pushAll_failed (ph : Phase) (bs : List Byte) (s : State) (n : Nat) (hn : n < bs.length)
    (h : OutFailsAfter n s) :
    pushAll ph bs s = .stop (raise .ioFailure ph { s with
      outq := s.outq ++ bs.take n, outErr := true, outErrAfter := if n = 0 then s.outErrAfter else none }) := by
  induction bs generalizing s n with
  | nil => simp at hn
  | cons b bs ih =>
    rcases h with ⟨rfl, h⟩ | ⟨h, ha, h0⟩
    · rw [pushAll, pushOut_failed h]; simp [← h]
    · obtain ⟨m, rfl⟩ : ∃ m, n = m + 1 := ⟨n - 1, by omega⟩
      have hm : m < bs.length := by simpa using hn
      have key : OutFailsAfter m (emit b s) := by
        cases m with
        | zero => left; simp [ha]
        | succ k => right; simp [h, ha, emit]
      rw [pushAll, pushOut_ok h]
      simp only [ih (emit b s) m hm key]
      cases m <;> simp [emit, ha]

end Sys2Proof.Machine
end

