-- ==== Sys2Proof/Laws/BitStream.lean ====
section
/-! SUPPORT. The bit packer and unpacker: what PutBit, PutBits and GetBit do to the bits written and unread
(R82 to R85). -/

namespace Sys2Proof.Machine

@[simp] theorem lowBits_length {w : Nat} (v : BitVec w) (n : Nat) : (lowBits v n).length = n := by
  induction n with
  | zero => rfl
  | succ n ih => simp [lowBits, ih]

@[simp] theorem byteBits_length (b : Byte) : (byteBits b).length = 8 := lowBits_length b 8

/-- Bit i of a stream byte's bits is bit 7 - i of the byte (R85). -/
theorem byteBits_getElem (b : Byte) (i : Nat) (h : i < (byteBits b).length) :
    (byteBits b)[i] = b.getLsbD (7 - i) := by
  simp only [byteBits_length] at h
  have e : byteBits b = [b.getLsbD 7, b.getLsbD 6, b.getLsbD 5, b.getLsbD 4, b.getLsbD 3, b.getLsbD 2,
    b.getLsbD 1, b.getLsbD 0] := rfl
  simp only [e]
  interval_cases i <;> rfl

/-- Packing sets one bit of the rack (R82). -/
theorem packBit_getLsbD (rack : Byte) (cnt : BitVec 3) (x : Bool) (k : Nat) :
    (packBit rack cnt x).getLsbD k = (rack.getLsbD k || (x && decide (k = 7 - cnt.toNat))) := by
  have hc := cnt.isLt
  rcases Nat.lt_or_ge k 8 with hk | hk
  · cases x
    · simp [packBit]
    · simp only [packBit, BitVec.getLsbD_or, BitVec.getLsbD_shiftLeft, hk, Bool.true_and]
      congr 1
      rw [BitVec.getLsbD_setWidth]
      by_cases h : k = 7 - cnt.toNat
      · simp [h]
      · by_cases h2 : k < 7 - cnt.toNat
        · simp [h, h2]
        · have h3 : 0 < k - (7 - cnt.toNat) := by omega
          simp [h, h2]
          omega
  · rw [BitVec.getLsbD_of_ge _ _ hk, BitVec.getLsbD_of_ge _ _ hk]
    have : ¬ (k = 7 - cnt.toNat) := by omega
    simp [this]

/-- The first cnt + 1 bits of the rack after packing bit x at position cnt. -/
theorem packBit_take (rack : Byte) (cnt : BitVec 3) (x : Bool)
    (h : rack.getLsbD (7 - cnt.toNat) = false) :
    (byteBits (packBit rack cnt x)).take (cnt.toNat + 1) = (byteBits rack).take cnt.toNat ++ [x] := by
  have hc := cnt.isLt
  apply List.ext_getElem
  · simp; omega
  · intro i h1 h2
    have hi : i < cnt.toNat + 1 := by simp at h1; omega
    rw [List.getElem_take, byteBits_getElem, packBit_getLsbD]
    rcases Nat.lt_or_ge i cnt.toNat with hlt | hge
    · have : ¬ (7 - i = 7 - cnt.toNat) := by omega
      rw [List.getElem_append_left (by simp; omega), List.getElem_take, byteBits_getElem]
      simp [this]
    · have e : i = cnt.toNat := by omega
      subst e
      rw [List.getElem_append_right (by simp)]
      simp [h]

/-- PutBit with a padded rack, on an OUT that takes the byte if one is full: bit `x` follows the bits written, and
only the rack and OUT change (R82). -/
theorem putBit_ok (ph : Phase) (x : Bool) (s : State) (hp : RackPadded s)
    (ho : OutAccepts ((s.wrCnt.toNat + 1) / 8) s) :
    ∃ out t, putBit ph x s = .ok () t ∧
      t = { s with
        outq := s.outq ++ out, wrRack := t.wrRack, wrCnt := t.wrCnt, outErr := t.outErr,
        outErrAfter := t.outErrAfter } ∧
      out.flatMap byteBits ++ rackBits t = rackBits s ++ [x] ∧ RackPadded t ∧
      8 * out.length + t.wrCnt.toNat = s.wrCnt.toNat + 1 ∧
      (∀ n, OutAccepts (n + out.length) s → OutAccepts n t) ∧
      (s.outErrAfter = none → t.outErr = s.outErr ∧ t.outErrAfter = none) := by
  have hc := s.wrCnt.isLt
  have hbit : s.wrRack.getLsbD (7 - s.wrCnt.toNat) = false := hp _ (by omega)
  by_cases h7 : s.wrCnt = 7
  · have e7 : s.wrCnt.toNat = 7 := by simp [h7]
    rw [e7] at ho
    have hpush := pushOut_ok (ph := ph) (b := (packed x s).wrRack) (s := packed x s) (ho (by omega)).1
    refine ⟨[packBit s.wrRack s.wrCnt x], _, by rw [putBit, if_pos h7, hpush], rfl, ?_, ?_, ?_, ?_, ?_⟩
    · have := packBit_take s.wrRack s.wrCnt x hbit
      rw [e7, List.take_of_length_le (by simp)] at this
      simp [rackBits, this, e7]
    · intro k _; simp
    · simp [e7]
    · intro n hn
      exact (OutAccepts.emit (s := s) (packBit s.wrRack s.wrCnt x) hn).congr rfl rfl
    · intro ha
      exact ⟨(emit_quiet (b := packBit s.wrRack s.wrCnt x) (s := s) ha).1, (emit_quiet (s := s) (b := 0) ha).2⟩
  · have hne : s.wrCnt.toNat ≠ 7 := fun h => h7 (BitVec.eq_of_toNat_eq (by simpa using h))
    have hlt : s.wrCnt.toNat + 1 < 8 := by omega
    have hadd : (s.wrCnt + 1).toNat = s.wrCnt.toNat + 1 := by
      simp [BitVec.toNat_add]; omega
    refine ⟨[], _, by rw [putBit, if_neg h7], by simp [packed], ?_, ?_, ?_, ?_, ?_⟩
    · simp only [packed, rackBits, hadd, List.flatMap_nil, List.nil_append]
      exact packBit_take s.wrRack s.wrCnt x hbit
    · intro k hk
      simp only [packed, hadd] at hk
      have : ¬ (k = 7 - s.wrCnt.toNat) := by omega
      simp [packed, packBit_getLsbD, this, hp k (by omega)]
    · show 8 * 0 + (s.wrCnt + 1).toNat = _
      omega
    · intro n hn
      exact OutAccepts.congr (s := s) (by simpa using hn) rfl rfl
    · intro ha
      exact ⟨rfl, ha⟩

/-- PutBits (R82): the low `n` bits of `pat`, most significant first, follow the bits written; the number of bytes
pushed is (WR_CNT + n) div 8. -/
theorem putBits_ok (ph : Phase) (pat : Word) (n : Nat) (s : State) (hp : RackPadded s)
    (ho : OutAccepts ((s.wrCnt.toNat + n) / 8) s) :
    ∃ out t, putBits ph pat n s = .ok () t ∧
      t = { s with
        outq := s.outq ++ out, wrRack := t.wrRack, wrCnt := t.wrCnt, outErr := t.outErr,
        outErrAfter := t.outErrAfter } ∧
      out.flatMap byteBits ++ rackBits t = rackBits s ++ lowBits pat n ∧ RackPadded t ∧
      8 * out.length + t.wrCnt.toNat = s.wrCnt.toNat + n ∧
      (s.outErrAfter = none → t.outErr = s.outErr ∧ t.outErrAfter = none) := by
  induction n generalizing s with
  | zero => exact ⟨[], s, rfl, by simp, by simp [lowBits], hp, by simp, fun ha => ⟨rfl, ha⟩⟩
  | succ n ih =>
    obtain ⟨o1, t1, e1, f1, b1, p1, c1, a1, q1⟩ := putBit_ok ph (pat.getLsbD n) s hp (ho.mono (by omega))
    have ho1 : OutAccepts ((t1.wrCnt.toNat + n) / 8) t1 := a1 _ (ho.mono (by omega))
    obtain ⟨o2, t2, e2, f2, b2, p2, c2, q2⟩ := ih t1 p1 ho1
    refine ⟨o1 ++ o2, t2, ?_, ?_, ?_, p2, ?_, fun ha => ?_⟩
    · simp only [putBits, e1, e2]
    · rw [f2, f1]; simp
    · rw [List.flatMap_append, List.append_assoc, b2, ← List.append_assoc, b1]
      simp [lowBits]
    · simp only [List.length_append]; omega
    · obtain ⟨u1, u2⟩ := q1 ha
      obtain ⟨v1, v2⟩ := q2 u2
      exact ⟨v1.trans u1, v2⟩

/-- PutBits into an OUT that fails after `m` bytes, m below the number it would push: exactly those bytes are pushed,
and IO_FAILURE is raised with the full rack and WR_CNT as the packer left them (R82, R230, R275). -/
theorem putBits_failed (ph : Phase) (pat : Word) (n : Nat) (s : State) (m : Nat) (hp : RackPadded s)
    (hm : m < (s.wrCnt.toNat + n) / 8) (hf : OutFailsAfter m s) :
    ∃ out rack, putBits ph pat n s = .stop (raise .ioFailure ph { s with
        outq := s.outq ++ out, wrRack := rack, wrCnt := 0, outErr := true,
        outErrAfter := if m = 0 then s.outErrAfter else none }) ∧
      out.length = m ∧
      out.flatMap byteBits ++ byteBits rack = (rackBits s ++ lowBits pat n).take (8 * (m + 1)) := by
  induction n generalizing s m with
  | zero => have := s.wrCnt.isLt; omega
  | succ n ih =>
    have hc := s.wrCnt.isLt
    have hbit : s.wrRack.getLsbD (7 - s.wrCnt.toNat) = false := hp _ (by omega)
    have hpack := packBit_take s.wrRack s.wrCnt (pat.getLsbD n) hbit
    have hsplit : rackBits s ++ lowBits pat (n + 1) = (rackBits s ++ [pat.getLsbD n]) ++ lowBits pat n := by
      rw [lowBits]; exact List.append_cons _ _ _
    have hcnt : (s.wrCnt + 1).toNat = (s.wrCnt.toNat + 1) % 8 := by simp [BitVec.toNat_add]
    by_cases h7 : s.wrCnt = 7
    · have e7 : s.wrCnt.toNat = 7 := by simp [h7]
      have hl : (rackBits s ++ [pat.getLsbD n]).length = 8 := by simp [rackBits, e7]
      rw [show s.wrCnt.toNat + 1 = 8 by omega, List.take_of_length_le (by simp)] at hpack
      change _ = rackBits s ++ [pat.getLsbD n] at hpack
      rcases hf with ⟨rfl, hf⟩ | ⟨hf, ha, h0⟩
      · refine ⟨[], packBit s.wrRack s.wrCnt (pat.getLsbD n), ?_, rfl, ?_⟩
        · have hpush := pushOut_failed (ph := ph) (b := (packed (pat.getLsbD n) s).wrRack)
            (s := packed (pat.getLsbD n) s) hf
          rw [putBits, putBit, if_pos h7, hpush]
          simp [packed, h7, ← hf]
        · rw [hsplit, hpack, List.flatMap_nil, List.nil_append, List.take_append_of_le_length (by rw [hl]),
            List.take_of_length_le (by rw [hl])]
      · obtain ⟨k, rfl⟩ : ∃ k, m = k + 1 := ⟨m - 1, by omega⟩
        have hpush := pushOut_ok (ph := ph) (b := (packed (pat.getLsbD n) s).wrRack)
          (s := packed (pat.getLsbD n) s) hf
        have hk : OutFailsAfter k { emit (packed (pat.getLsbD n) s).wrRack (packed (pat.getLsbD n) s) with
            wrRack := 0, wrCnt := 0 } := by
          cases k with
          | zero => left; simp [packed, ha]
          | succ j => right; simp [packed, emit, hf, ha]
        obtain ⟨out, rack, g1, g2, g3⟩ := ih _ k (fun _ _ => by simp) (by simp; omega) hk
        refine ⟨packBit s.wrRack s.wrCnt (pat.getLsbD n) :: out, rack, ?_, by simp [g2], ?_⟩
        · rw [putBits, putBit, if_pos h7, hpush]
          simp only [g1]
          cases k <;> simp [packed, emit, ha]
        · have hz : ∀ t : State, t.wrCnt = 0 → rackBits t = [] := fun t h => by simp [rackBits, h]
          rw [hz _ rfl, List.nil_append] at g3
          rw [List.flatMap_cons, List.append_assoc, g3, hpack, hsplit,
            show 8 * (k + 1 + 1) = (rackBits s ++ [pat.getLsbD n]).length + 8 * (k + 1) by rw [hl]; omega,
            List.take_length_add_append]
    · have hne : s.wrCnt.toNat ≠ 7 := fun h => h7 (BitVec.eq_of_toNat_eq (by simpa using h))
      have hadd : (s.wrCnt + 1).toNat = s.wrCnt.toNat + 1 := by omega
      have hp1 : RackPadded (packed (pat.getLsbD n) s) := by
        intro k hk
        simp only [packed, hadd] at hk
        have : ¬ (k = 7 - s.wrCnt.toNat) := by omega
        simp [packed, packBit_getLsbD, this, hp k (by omega)]
      have hr : rackBits (packed (pat.getLsbD n) s) = rackBits s ++ [pat.getLsbD n] := by
        simp only [packed, rackBits, hadd]; exact hpack
      obtain ⟨out, rack, g1, g2, g3⟩ := ih (packed (pat.getLsbD n) s) m hp1
        (by simp only [packed, hadd]; omega) hf
      refine ⟨out, rack, ?_, g2, ?_⟩
      · rw [putBits, putBit, if_neg h7]
        exact g1
      · rw [g3, hr, hsplit]

end Sys2Proof.Machine
end

