-- ==== Sys2Proof/Laws/Frequency.lean ====
section
/-! SUPPORT. The tables FREQ and CODE read after a write, counting a byte, and the leaf list of a table (R151,
R171). -/

namespace Sys2Proof.Machine

@[simp] theorem freqAt_replicate (v : Word) (b : Byte) : freqAt (Vector.replicate 256 v) b = v := by
  simp [freqAt]

@[simp] theorem freqAt_mapTable (f : Word → Word) (v : Vector Word 256) (b : Byte) :
    freqAt (mapTable f v) b = f (freqAt v b) := by
  simp [freqAt, mapTable]

/-- A read after a write gives the value written, and a write leaves every other entry alone. -/
theorem freqAt_freqSet (freq : Vector Word 256) (b c : Byte) (v : Word) :
    freqAt (freqSet freq b v) c = if c = b then v else freqAt freq c := by
  simp only [freqAt, freqSet, Vector.getElem_set]
  by_cases h : c = b
  · simp [h]
  · have : ¬ (b.toNat = c.toNat) := fun e => h (BitVec.eq_of_toNat_eq e.symm)
    simp [h, this]

theorem freqAt_bump (freq : Vector Word 256) (b c : Byte) :
    freqAt (bump freq b) c = if c = b then freqAt freq b + 1 else freqAt freq c := by
  rw [bump, freqAt_freqSet]

/-- FREQ after counting a byte, entry by entry (R151). -/
theorem freqAt_countByte (freq : Vector Word 256) (b c : Byte) :
    freqAt (countByte freq b) c =
      if freqAt freq b + 1 = 256 then scaleCount (if c = b then 256 else freqAt freq c)
      else if c = b then freqAt freq b + 1 else freqAt freq c := by
  unfold countByte scalingFires
  by_cases h : freqAt freq b + 1 = 256
  · rw [if_pos (by simpa using h), if_pos h, freqAt_mapTable, freqAt_bump, h]
  · rw [if_neg (by simpa using h), if_neg h, freqAt_bump]

/-- Two tables with the same entries are the same table. -/
theorem freq_ext {f g : Vector Word 256} (h : ∀ b : Byte, freqAt f b = freqAt g b) : f = g := by
  apply Vector.ext
  intro i hi
  have := h (BitVec.ofNat 8 i)
  have e : i % 256 = i := Nat.mod_eq_of_lt hi
  simpa [freqAt, e] using this

@[simp] theorem codeAt_replicate (e : CodeEntry) (s : Sym) (h : s.toNat < 257) :
    codeAt (Vector.replicate 257 e) s = e := by
  simp [codeAt, h]

@[simp] theorem codeAt_cleared (s : Sym) :
    codeAt (Vector.replicate 257 CodeEntry.cleared) s = CodeEntry.cleared := by
  unfold codeAt; split <;> simp

/-- A read of CODE after a write (R192). -/
theorem codeAt_codeSet (code : Vector CodeEntry 257) (a b : Sym) (e : CodeEntry) (ha : a.toNat < 257) :
    codeAt (codeSet code a e) b = if b = a then e else codeAt code b := by
  simp only [codeAt, codeSet, ha, dite_true]
  by_cases hb : b.toNat < 257
  · simp only [hb, dite_true, Vector.getElem_set]
    by_cases h : b = a
    · simp [h]
    · have : ¬ (a.toNat = b.toNat) := fun e => h (BitVec.eq_of_toNat_eq e.symm)
      simp [h, this]
  · have : b ≠ a := fun e => hb (e ▸ ha)
    simp [hb, this]

/-- FreqLeaves lists exactly the nonzero counts (R171). -/
theorem mem_freqLeaves (freq : Vector Word 256) (l : LeafEntry) :
    l ∈ freqLeaves freq ↔ l.weight = freqAt freq l.sym ∧ l.weight ≠ 0 := by
  simp only [freqLeaves, List.mem_filterMap, List.mem_range]
  constructor
  · rintro ⟨k, _, h⟩
    split at h
    · simp at h
    · simp only [Option.some.injEq] at h
      subst h
      exact ⟨rfl, by assumption⟩
  · rintro ⟨h1, h2⟩
    refine ⟨l.sym.toNat, l.sym.isLt, ?_⟩
    rw [h1] at h2
    simp only [BitVec.ofNat_toNat, BitVec.setWidth_eq, h2, if_false, Option.some.injEq]
    rw [← h1]

/-- FreqLeaves is in ascending symbol order (R171). -/
theorem freqLeaves_ascending (freq : Vector Word 256) :
    (freqLeaves freq).Pairwise (fun a b => a.sym.toNat < b.sym.toNat) := by
  unfold freqLeaves
  rw [List.pairwise_filterMap]
  refine List.Pairwise.imp_of_mem ?_ (List.pairwise_lt_range (n := 256))
  intro a b ha hb hab x hx y hy
  simp only [List.mem_range] at ha hb
  split at hx
  · simp at hx
  · split at hy
    · simp at hy
    · simp only [Option.some.injEq] at hx hy
      subst hx; subst hy
      simp only [BitVec.toNat_ofNat]
      omega

/-- A table has at most 256 leaves. -/
theorem freqLeaves_length (freq : Vector Word 256) : (freqLeaves freq).length ≤ 256 := by
  refine (List.length_filterMap_le _ _).trans ?_
  simp

end Sys2Proof.Machine
end

