-- ==== Sys2Proof/Laws/Trees.lean ====
section
/-! SUPPORT. The priority queue and the merge loop (R172, R173, R178), and the derivation of codes from a tree
(R192). -/

namespace Sys2Proof.Machine

/-- ExtractMin loses nothing and makes nothing up (R173). -/
theorem extractMin_perm (e : QEntry) (q : List QEntry) :
    ((extractMin e q).1 :: (extractMin e q).2).Perm (e :: q) := by
  induction q generalizing e with
  | nil => simp [extractMin]
  | cons e1 q ih =>
    simp only [extractMin]
    split
    · exact List.Perm.refl _
    · exact (List.Perm.swap _ _ _).trans ((ih e1).cons e)

theorem extractMin_length (e : QEntry) (q : List QEntry) : (extractMin e q).2.length = q.length := by
  have := (extractMin_perm e q).length_eq
  simpa using this

/-- `before` is the strict lexicographic order of (weight, seq) (R173). -/
theorem QEntry.before_iff (a b : QEntry) : a.before b = true ↔
    (treeWeight a.tree).toNat < (treeWeight b.tree).toNat ∨
      (treeWeight a.tree = treeWeight b.tree ∧ a.seq < b.seq) := by
  simp [QEntry.before]

theorem QEntry.before_trans {a b c : QEntry} (h1 : a.before b = true) (h2 : b.before c = true) :
    a.before c = true := by
  rw [QEntry.before_iff] at *
  rcases h1 with h1 | ⟨h1, h1'⟩ <;> rcases h2 with h2 | ⟨h2, h2'⟩
  · left; omega
  · left; rw [← h2]; exact h1
  · left; rw [h1]; exact h2
  · right; exact ⟨h1.trans h2, by omega⟩

/-- Keys with distinct sequence numbers are comparable (R173). -/
theorem QEntry.before_total {a b : QEntry} (h : a.seq ≠ b.seq) (hn : a.before b = false) :
    b.before a = true := by
  rw [← Bool.not_eq_true, QEntry.before_iff] at hn
  rw [QEntry.before_iff]
  rcases Nat.lt_trichotomy (treeWeight a.tree).toNat (treeWeight b.tree).toNat with hlt | heq | hgt
  · exact absurd (Or.inl hlt) hn
  · right
    have e := BitVec.eq_of_toNat_eq heq
    refine ⟨e.symm, ?_⟩
    have : ¬ a.seq < b.seq := fun hs => hn (Or.inr ⟨e, hs⟩)
    omega
  · exact Or.inl hgt

/-- ExtractMin takes the entry with the least key (R173). -/
theorem extractMin_least (e : QEntry) (q : List QEntry) (hd : ((e :: q).map (·.seq)).Nodup) :
    ∀ x ∈ (extractMin e q).2, (extractMin e q).1.before x = true := by
  induction q generalizing e with
  | nil => simp [extractMin]
  | cons e1 q ih =>
    have hd' : ((e1 :: q).map (·.seq)).Nodup := (List.nodup_cons.mp hd).2
    have hne : ∀ y ∈ e1 :: q, e.seq ≠ y.seq := by
      intro y hy he
      exact (List.nodup_cons.mp hd).1 (List.mem_map.mpr ⟨y, hy, he.symm⟩)
    have hp := extractMin_perm e1 q
    simp only [extractMin]
    split
    · rename_i hb
      intro x hx
      have hx' : x ∈ (extractMin e1 q).1 :: (extractMin e1 q).2 := hp.mem_iff.mpr hx
      rcases List.mem_cons.mp hx' with rfl | hx2
      · exact hb
      · exact QEntry.before_trans hb (ih e1 hd' x hx2)
    · rename_i hb
      intro x hx
      rcases List.mem_cons.mp hx with rfl | hx2
      · exact QEntry.before_total (hne _ (hp.mem_iff.mp (by simp))) (by simpa using hb)
      · exact ih e1 hd' x hx2

/-- What a queue holds as a whole: its leaves, its internal nodes, and whether its weights add up. -/
def queueLeaves (q : List QEntry) : List (Sym × Word) := q.flatMap fun e => treeLeaves e.tree

def queueInternals (q : List QEntry) : Nat := (q.map fun e => internalCount e.tree).sum

theorem queueLeaves_perm {p q : List QEntry} (h : p.Perm q) : (queueLeaves p).Perm (queueLeaves q) :=
  h.flatMap_right _

theorem queueInternals_perm {p q : List QEntry} (h : p.Perm q) : queueInternals p = queueInternals q :=
  (h.map _).sum_eq

/-- The merge loop keeps the leaves, adds one internal node a merge, and builds only summed weights (R172, R178). -/
theorem mergeLoop_spec (n seq : Nat) (e : QEntry) (q : List QEntry) (hn : q.length = n)
    (hw : ∀ x ∈ e :: q, WeightsAdd x.tree) :
    (treeLeaves (mergeLoop n seq e q)).Perm (queueLeaves (e :: q)) ∧
    internalCount (mergeLoop n seq e q) = queueInternals (e :: q) + n ∧ WeightsAdd (mergeLoop n seq e q) := by
  induction n generalizing seq e q with
  | zero =>
    have : q = [] := List.eq_nil_of_length_eq_zero hn
    subst this
    exact ⟨by simp [mergeLoop, queueLeaves], by simp [mergeLoop, queueInternals], by simpa [mergeLoop] using hw⟩
  | succ n ih =>
    have hl := extractMin_length e q
    have hp := extractMin_perm e q
    rw [mergeLoop]
    generalize hx : extractMin e q = r at *
    obtain ⟨a, r1⟩ := r
    cases r1 with
    | nil => simp at hl; omega
    | cons e1 q1 =>
      have hl1 := extractMin_length e1 q1
      have hp1 := extractMin_perm e1 q1
      simp only at hl hp ⊢
      generalize hy : extractMin e1 q1 = r2 at *
      obtain ⟨b, q2⟩ := r2
      simp only at hl1 hp1 ⊢
      have hall : (a :: b :: q2).Perm (e :: q) := (hp1.cons a).trans hp
      have hwa : ∀ x ∈ a :: b :: q2, WeightsAdd x.tree := fun x h => hw x (hall.mem_iff.mp h)
      have hlen : q2.length = n := by simp at hl; omega
      set m : QEntry := { seq := seq, tree := .internal (treeWeight a.tree + treeWeight b.tree) a.tree b.tree } with hm
      have hwm : WeightsAdd m.tree := ⟨rfl, hwa a (by simp), hwa b (by simp)⟩
      have hL : (queueLeaves (m :: q2)).Perm (queueLeaves (e :: q)) := by
        refine List.Perm.trans ?_ (queueLeaves_perm hall)
        simp [queueLeaves, hm, treeLeaves]
      have hI : queueInternals (m :: q2) = queueInternals (e :: q) + 1 := by
        rw [← queueInternals_perm hall]
        simp only [queueInternals, hm, internalCount, List.map_cons, List.sum_cons]
        omega
      cases q2 with
      | nil =>
        simp only [List.length_nil] at hlen
        subst hlen
        refine ⟨?_, ?_, hwm⟩
        · simpa [queueLeaves] using hL
        · simpa [queueInternals] using hI
      | cons e2 q3 =>
        have hrot : (e2 :: (q3 ++ [m])).Perm (m :: e2 :: q3) := by
          have := List.perm_append_comm (l₁ := e2 :: q3) (l₂ := [m])
          simpa using this
        have hw2 : ∀ x ∈ e2 :: (q3 ++ [m]), WeightsAdd x.tree := by
          intro x hx
          rcases List.mem_cons.mp (hrot.mem_iff.mp hx) with rfl | h
          · exact hwm
          · exact hwa x (by simp at h ⊢; tauto)
        obtain ⟨i1, i2, i3⟩ := ih (seq + 1) e2 (q3 ++ [m]) (by simp at hlen ⊢; omega) hw2
        refine ⟨i1.trans ((queueLeaves_perm hrot).trans hL), ?_, i3⟩
        rw [i2, queueInternals_perm hrot, hI]
        omega

theorem initialQueue_length (eof : Sym) (seq : Nat) (leaves : List LeafEntry) :
    (initialQueue eof seq leaves).length = leaves.length + 1 := by
  induction leaves generalizing seq with
  | nil => rfl
  | cons l ls ih => simp [initialQueue, ih]

theorem initialQueue_leaves (eof : Sym) (seq : Nat) (leaves : List LeafEntry) :
    queueLeaves (initialQueue eof seq leaves) =
      leaves.map (fun l => (byteSym l.sym, l.weight)) ++ [(eof, 1)] := by
  induction leaves generalizing seq with
  | nil => rfl
  | cons l ls ih =>
    simp only [queueLeaves] at ih
    simp [initialQueue, queueLeaves, leafNode, treeLeaves, ih]

theorem initialQueue_internals (eof : Sym) (seq : Nat) (leaves : List LeafEntry) :
    queueInternals (initialQueue eof seq leaves) = 0 := by
  induction leaves generalizing seq with
  | nil => rfl
  | cons l ls ih =>
    simp only [queueInternals] at ih
    simp [initialQueue, queueInternals, leafNode, internalCount, ih]

theorem initialQueue_weights (eof : Sym) (seq : Nat) (leaves : List LeafEntry) :
    ∀ x ∈ initialQueue eof seq leaves, WeightsAdd x.tree := by
  induction leaves generalizing seq with
  | nil => simp [initialQueue, eofNode, WeightsAdd]
  | cons l ls ih =>
    intro x hx
    rcases List.mem_cons.mp hx with rfl | h
    · trivial
    · exact ih _ x h

/-- BuildTree's leaves, internal nodes and weights (R172, R178). -/
theorem buildTree_spec (eof : Sym) (leaves : List LeafEntry) :
    (treeLeaves (buildTree eof leaves)).Perm
      (leaves.map (fun l => (byteSym l.sym, l.weight)) ++ [(eof, 1)]) ∧
    internalCount (buildTree eof leaves) = leaves.length ∧ WeightsAdd (buildTree eof leaves) := by
  unfold buildTree
  have hl := initialQueue_length eof 0 leaves
  have hL := initialQueue_leaves eof 0 leaves
  have hI := initialQueue_internals eof 0 leaves
  have hW := initialQueue_weights eof 0 leaves
  cases hq : initialQueue eof 0 leaves with
  | nil => rw [hq] at hl; simp at hl
  | cons e q =>
    rw [hq] at hl hL hI hW
    obtain ⟨h1, h2, h3⟩ := mergeLoop_spec q.length (leaves.length + 1) e q rfl hW
    simp only
    rw [hL] at h1
    refine ⟨h1, ?_, h3⟩
    rw [h2, hI]
    simp at hl; omega

/-- The symbols of the paths are those of the leaves, in the same order. -/
theorem treePaths_syms (t : Tree) : (treePaths t).map (·.1) = (treeLeaves t).map (·.1) := by
  induction t with
  | leaf s w => rfl
  | internal w c0 c1 ih0 ih1 => simp [treePaths, treeLeaves, ← ih0, ← ih1, Function.comp_def]

/-- No path is longer than the depth (R193). -/
theorem treePaths_depth (t : Tree) : ∀ p ∈ treePaths t, p.2.length ≤ treeDepth t := by
  induction t with
  | leaf s w => simp [treePaths]
  | internal w c0 c1 ih0 ih1 =>
    intro p hp
    simp only [treePaths, List.mem_append, List.mem_map] at hp
    rcases hp with ⟨x, hx, rfl⟩ | ⟨x, hx, rfl⟩
    · have := ih0 x hx; simp only [List.length_cons, treeDepth]; omega
    · have := ih1 x hx; simp only [List.length_cons, treeDepth]; omega

/-- The pattern and length of a node's position, extended by a path below it (R192). -/
def pathPat (pat : Word) : List Bool → Word
  | [] => pat
  | b :: bs => pathPat (if b then (pat <<< 1) ||| 1 else pat <<< 1) bs

/-- Derive writes the entry of each path in turn, in pre-order (R192). -/
theorem derive_eq_foldl (t : Tree) (pat : Word) (len : BitVec 6) (code : Vector CodeEntry 257) :
    derive t pat len code = (treePaths t).foldl (fun c p => codeSet c p.1
      { valid := true, pat := pathPat pat p.2, len := len + BitVec.ofNat 6 p.2.length }) code := by
  induction t generalizing pat len code with
  | leaf s w => simp [derive, treePaths, pathPat]
  | internal w c0 c1 ih0 ih1 =>
    have hlen : ∀ n : Nat, len + 1 + BitVec.ofNat 6 n = len + BitVec.ofNat 6 (n + 1) := by
      intro n
      rw [BitVec.ofNat_add, BitVec.add_assoc, BitVec.add_comm (BitVec.ofNat 6 n)]
      rfl
    simp only [derive, ih0, ih1, treePaths, List.foldl_append, List.foldl_map, pathPat, List.length_cons, hlen]
    simp

end Sys2Proof.Machine
end

