-- ==== Sys2Proof/Laws/CodeTable.lean ====
section
/-! SUPPORT. The table CODE_DERIVE writes, entry by entry (R190, R192, R196). -/

namespace Sys2Proof.Machine

/-- The entry Derive writes for a path (R192). -/
def pathEntry (path : List Bool) : CodeEntry :=
  { valid := true, pat := pathPat 0 path, len := BitVec.ofNat 6 path.length }

/-- A row of writes: each symbol holds the last entry written for it, if any (R196). -/
theorem codeAt_foldl (ps : List (Sym × List Bool)) (code : Vector CodeEntry 257) (f : List Bool → CodeEntry) (sym : Sym)
    (hps : ∀ p ∈ ps, p.1.toNat < 257) :
    codeAt (ps.foldl (fun c p => codeSet c p.1 (f p.2)) code) sym =
      match ps.reverse.find? (fun p => p.1 == sym) with
      | some p => f p.2
      | none => codeAt code sym := by
  induction ps generalizing code with
  | nil => rfl
  | cons p ps ih =>
    rw [List.foldl_cons, ih _ (fun q hq => hps q (by simp [hq])), List.reverse_cons, List.find?_append]
    cases h : ps.reverse.find? (fun p => p.1 == sym) with
    | some q => rfl
    | none =>
      have hp := hps p (by simp)
      simp only [codeAt_codeSet code p.1 sym (f p.2) hp, Option.none_or]
      by_cases hs : sym = p.1
      · simp [hs]
      · have : (p.1 == sym) = false := by simpa using fun e => hs e.symm
        simp [hs, this]

/-- CODE after CODE_DERIVE (R190, R192, R196). -/
theorem codeAt_deriveTable (t : Tree) (sym : Sym) (ht : ∀ p ∈ treePaths t, p.1.toNat < 257) :
    codeAt (deriveTable t) sym =
      match (treePaths t).reverse.find? (fun p => p.1 == sym) with
      | some p => pathEntry p.2
      | none => CodeEntry.cleared := by
  rw [deriveTable, derive_eq_foldl]
  have := codeAt_foldl (treePaths t) (Vector.replicate 257 CodeEntry.cleared) pathEntry sym ht
  rw [codeAt_cleared] at this
  rw [← this]
  simp [pathEntry]

/-- One more branch doubles the pattern (R192). -/
theorem branchPat_toNat (pat : Word) (b : Bool) (k : Nat) (hp : pat.toNat < 2 ^ k) (hk : k + 1 ≤ 32) :
    (if b then (pat <<< 1) ||| 1 else pat <<< 1).toNat = 2 * pat.toNat + b.toNat := by
  have h2 : 2 * pat.toNat < 2 ^ 32 :=
    Nat.lt_of_lt_of_le (by rw [Nat.pow_succ]; omega) (Nat.pow_le_pow_right (by decide) hk)
  have hs : (pat <<< 1).toNat = 2 * pat.toNat := by
    rw [BitVec.toNat_shiftLeft, Nat.shiftLeft_eq, Nat.mod_eq_of_lt (by omega)]; omega
  cases b with
  | false => simpa using hs
  | true =>
    rw [if_pos rfl, BitVec.toNat_or, hs]
    have := Nat.two_pow_add_eq_or_of_lt (i := 1) (b := 1) (by decide) pat.toNat
    simp only [Nat.pow_one] at this
    simpa using this.symm

/-- The pattern of a path holds its bits, and zeros above them, as long as 32 bits hold it (R38, R192). -/
theorem pathPat_bits (path : List Bool) (pat : Word) (k : Nat) (hp : pat.toNat < 2 ^ k) (hk : k + path.length ≤ 32) :
    (pathPat pat path).toNat < 2 ^ (k + path.length) ∧
      lowBits (pathPat pat path) (k + path.length) = lowBits pat k ++ path := by
  induction path generalizing pat k with
  | nil => simpa [pathPat] using hp
  | cons b bs ih =>
    have hk1 : k + 1 + bs.length ≤ 32 := by simp at hk; omega
    have hb := branchPat_toNat pat b k hp (by omega)
    have hlt : (if b then (pat <<< 1) ||| 1 else pat <<< 1).toNat < 2 ^ (k + 1) := by
      rw [hb, Nat.pow_succ]; cases b <;> simp <;> omega
    obtain ⟨h1, h2⟩ := ih _ (k + 1) hlt hk1
    have e : k + (b :: bs).length = k + 1 + bs.length := by simp; omega
    rw [e]
    refine ⟨h1, ?_⟩
    rw [pathPat, h2]
    have hl : lowBits (if b then (pat <<< 1) ||| 1 else pat <<< 1) (k + 1) = lowBits pat k ++ [b] := by
      have hbit : ∀ j, (if b then (pat <<< 1) ||| 1 else pat <<< 1).getLsbD (j + 1) = pat.getLsbD j := by
        intro j
        rw [← BitVec.testBit_toNat, hb, ← BitVec.testBit_toNat, Nat.testBit_succ]
        congr 1
        cases b <;> simp <;> omega
      have h0 : (if b then (pat <<< 1) ||| 1 else pat <<< 1).getLsbD 0 = b := by
        rw [← BitVec.testBit_toNat, hb]
        cases b <;> simp [Nat.testBit_zero]
      clear h1 h2 ih hlt hb hk hk1 e hp
      induction k with
      | zero => exact congrArg (fun x => [x]) h0
      | succ n ihn => rw [lowBits, hbit, ihn]; rfl
    rw [hl]
    simp

/-- The entry of a path of at most 32 bits records exactly that path (R38, R192, R194). -/
theorem pathEntry_records (path : List Bool) (h : path.length ≤ 32) : Records (pathEntry path) path := by
  obtain ⟨h1, h2⟩ := pathPat_bits path 0 0 (by decide) (by omega)
  have e : (BitVec.ofNat 6 path.length).toNat = path.length := by
    rw [BitVec.toNat_ofNat, Nat.mod_eq_of_lt (by omega)]
  simp only [Nat.zero_add] at h1 h2
  exact ⟨rfl, e, by simpa [entryBits, pathEntry, e, lowBits] using h2, h1⟩

end Sys2Proof.Machine
end

