-- ==== Sys2Proof/Laws/Decoding.lean ====
section
/-! SUPPORT. GetBit and the tree walk: everything DecodeOne can do, in terms of the unread bits (R83, R251 to
R253). -/

namespace Sys2Proof.Machine

/-- The last of two rows of bytes. -/
theorem getLastD_append (p q : List Byte) (b : Byte) : (p ++ q).getLastD b = q.getLastD (p.getLastD b) := by
  cases q with
  | nil => simp
  | cons x xs => simp [List.getLastD_eq_getLast?, List.getLast?_append]

theorem Popped.refl {s t : State} (h1 : t.inq = s.inq) (h2 : t.rdByte = s.rdByte) : Popped s t :=
  ⟨[], by simp [h1], by simp [h2]⟩

theorem Popped.trans {s t u : State} (h1 : Popped s t) (h2 : Popped t u) : Popped s u := by
  obtain ⟨p, a, b⟩ := h1
  obtain ⟨q, c, d⟩ := h2
  exact ⟨p ++ q, by rw [a, c, List.append_assoc], by rw [d, b, getLastD_append]⟩

/-- `t` is `s` after some input bits were consumed: only the unpacker and IN changed, and `more` is unread. -/
def Consumed (s : State) (more : List Bool) (t : State) : Prop :=
  t = { s with rdByte := t.rdByte, rdCnt := t.rdCnt, inq := t.inq } ∧ unreadBits t = more ∧ t.rdCnt.toNat ≤ 8 ∧
    Popped s t

theorem Consumed.trans {s t u : State} {m n : List Bool} (h1 : Consumed s m t) (h2 : Consumed t n u) :
    Consumed s n u := by
  obtain ⟨e1, _, _, p1⟩ := h1
  obtain ⟨e2, b, c, p2⟩ := h2
  refine ⟨?_, b, c, p1.trans p2⟩
  rw [e2, e1]

/-- TakeBit delivers the first unread bit of RD_BYTE (R83). -/
theorem takeBit_ok (s : State) (hpos : 0 < s.rdCnt.toNat) (h8 : s.rdCnt.toNat ≤ 8) :
    ∃ x t more, takeBit s = .ok x t ∧ unreadBits s = x :: more ∧ Consumed s more t ∧ t.rdCnt.toNat ≤ 7 := by
  obtain ⟨n, hn⟩ : ∃ n, s.rdCnt.toNat = n + 1 := ⟨s.rdCnt.toNat - 1, by omega⟩
  have hsub : (s.rdCnt - 1).toNat = n := by
    rw [BitVec.toNat_sub]; simp; omega
  refine ⟨_, _, lowBits s.rdByte n ++ s.inq.flatMap byteBits, rfl, ?_, ⟨rfl, ?_, ?_, .refl rfl rfl⟩, ?_⟩
  · simp [unreadBits, hn, lowBits]
  · simp only [unreadBits, hsub]
  · show (s.rdCnt - 1).toNat ≤ 8
    omega
  · show (s.rdCnt - 1).toNat ≤ 7
    omega

/-- GetBit with a bit unread delivers the first and consumes exactly it (R83). -/
theorem getBit_ok {ph : Phase} {p : Progress} {s : State} {x : Bool} {more : List Bool}
    (h8 : s.rdCnt.toNat ≤ 8) (h : unreadBits s = x :: more) :
    ∃ t, getBit ph p s = .ok x t ∧ Consumed s more t ∧ t.rdCnt.toNat ≤ 7 := by
  by_cases h0 : s.rdCnt = 0
  · cases hq : s.inq with
    | nil => simp [unreadBits, h0, hq, lowBits] at h
    | cons b rest =>
      have hu : unreadBits { s with rdByte := b, rdCnt := 8, inq := rest } = unreadBits s := by
        simp [unreadBits, h0, hq, lowBits, byteBits]
      obtain ⟨y, t, m, e1, e2, e3, e4⟩ :=
        takeBit_ok { s with rdByte := b, rdCnt := 8, inq := rest } (by simp) (by simp)
      rw [hu, h] at e2
      obtain ⟨rfl, rfl⟩ := List.cons.inj e2
      refine ⟨t, ?_, ?_, e4⟩
      · simp only [getBit, h0, if_true, popIn_cons hq]
        exact e1
      · obtain ⟨f1, f2, f3, f4⟩ := e3
        refine ⟨?_, f2, f3, .trans (t := { s with rdByte := b, rdCnt := 8, inq := rest }) ⟨[b], hq, rfl⟩ f4⟩
        rw [f1]
  · have hpos : 0 < s.rdCnt.toNat := by
      rcases Nat.eq_zero_or_pos s.rdCnt.toNat with h1 | h1
      · exact absurd (BitVec.eq_of_toNat_eq (by simpa using h1)) h0
      · exact h1
    obtain ⟨y, t, m, e1, e2, e3, e4⟩ := takeBit_ok s hpos h8
    rw [h] at e2
    obtain ⟨rfl, rfl⟩ := List.cons.inj e2
    exact ⟨t, by simp only [getBit, if_neg h0, e1], e3, e4⟩

/-- No bit is unread exactly when RD_BYTE is exhausted and IN is empty. -/
theorem unreadBits_nil {s : State} (h : unreadBits s = []) : s.rdCnt = 0 ∧ s.inq = [] := by
  simp only [unreadBits, List.append_eq_nil_iff] at h
  obtain ⟨h1, h2⟩ := h
  have : s.rdCnt.toNat = 0 := by simpa using congrArg List.length h1
  refine ⟨BitVec.eq_of_toNat_eq (by simpa using this), ?_⟩
  cases hq : s.inq with
  | nil => rfl
  | cons b rest =>
    rw [hq] at h2
    have := congrArg List.length h2
    simp at this

/-- GetBit with no bit unread waits for IN, or faults as IN's state says (R83, R252). -/
theorem getBit_empty {ph : Phase} {p : Progress} {s : State} (h : unreadBits s = []) :
    getBit ph p s = .stop (starve ph p s) := by
  obtain ⟨h0, hq⟩ := unreadBits_nil h
  simp [getBit, h0, popIn_nil hq]

/-- The walk along a leaf's path reads exactly that path (R253). -/
theorem walk_path (mk : Tree → Progress) (node : Tree) (s : State) (sym : Sym) (path more : List Bool)
    (h8 : s.rdCnt.toNat ≤ 8) (hp : (sym, path) ∈ treePaths node) (hu : unreadBits s = path ++ more) :
    ∃ t, walk mk node s = .ok sym t ∧ Consumed s more t ∧ (path = [] → t = s) ∧
      (path ≠ [] → t.rdCnt.toNat ≤ 7) := by
  induction node generalizing s path with
  | leaf s0 w =>
    simp only [treePaths, List.mem_singleton, Prod.mk.injEq] at hp
    obtain ⟨rfl, rfl⟩ := hp
    exact ⟨s, rfl, ⟨rfl, hu, h8, .refl rfl rfl⟩, fun _ => rfl, fun h => absurd rfl h⟩
  | internal w c0 c1 ih0 ih1 =>
    simp only [treePaths, List.mem_append, List.mem_map, Prod.mk.injEq] at hp
    rcases hp with ⟨⟨a, b⟩, hm, rfl, rfl⟩ | ⟨⟨a, b⟩, hm, rfl, rfl⟩
    · obtain ⟨t1, g1, k1, k7⟩ := getBit_ok (ph := .bitDecode) (p := mk (.internal w c0 c1)) h8 hu
      obtain ⟨t2, g2, k2, kn, kc⟩ := ih0 t1 b k1.2.2.1 hm k1.2.1
      refine ⟨t2, by simp only [walk, g1, g2], k1.trans k2, by simp, fun _ => ?_⟩
      by_cases hb : b = []
      · rw [kn hb]; exact k7
      · exact kc hb
    · obtain ⟨t1, g1, k1, k7⟩ := getBit_ok (ph := .bitDecode) (p := mk (.internal w c0 c1)) h8 hu
      obtain ⟨t2, g2, k2, kn, kc⟩ := ih1 t1 b k1.2.2.1 hm k1.2.1
      refine ⟨t2, by simp only [walk, g1, g2], k1.trans k2, by simp, fun _ => ?_⟩
      by_cases hb : b = []
      · rw [kn hb]; exact k7
      · exact kc hb

/-- The walk whose bits run out at an internal node consumes them all and waits there, or faults (R252, R78). -/
theorem walk_cut (mk : Tree → Progress) (root node : Tree) (s : State) (h8 : s.rdCnt.toNat ≤ 8)
    (hn : nodeAt root (unreadBits s) = some node) (hl : isLeaf node = false) :
    walk mk root s = .stop (starve .bitDecode (mk node)
      { s with rdByte := s.inq.getLastD s.rdByte, rdCnt := 0, inq := [] }) := by
  induction root generalizing s with
  | leaf s0 w =>
    cases hu : unreadBits s with
    | nil => rw [hu] at hn; simp only [nodeAt, Option.some.injEq] at hn; subst hn; simp [isLeaf] at hl
    | cons x m => rw [hu] at hn; simp [nodeAt] at hn
  | internal w c0 c1 ih0 ih1 =>
    cases hu : unreadBits s with
    | nil =>
      rw [hu] at hn
      simp only [nodeAt, Option.some.injEq] at hn
      subst hn
      obtain ⟨h0, hq⟩ := unreadBits_nil hu
      simp only [walk, getBit_empty hu]
      congr 2
      rw [hq, List.getLastD_nil, ← h0, ← hq]
    | cons x m =>
      rw [hu] at hn
      obtain ⟨t1, g1, ⟨k1, k2, k3, bytes, p1, p2⟩, _⟩ :=
        getBit_ok (ph := .bitDecode) (p := mk (.internal w c0 c1)) h8 hu
      have hb : t1.inq.getLastD t1.rdByte = s.inq.getLastD s.rdByte := by rw [p1, p2, getLastD_append]
      cases x
      · have g2 := ih0 t1 k3 (by rw [k2]; simpa [nodeAt] using hn)
        simp only [walk, g1, g2, hb]; rw [k1]
      · have g2 := ih1 t1 k3 (by rw [k2]; simpa [nodeAt] using hn)
        simp only [walk, g1, g2, hb]; rw [k1]

/-- The unread bits either begin with the path of a leaf, or run out at an internal node. -/
theorem path_or_cut (root : Tree) (bits : List Bool) :
    (∃ sym path more, (sym, path) ∈ treePaths root ∧ bits = path ++ more) ∨
    (∃ node, nodeAt root bits = some node ∧ isLeaf node = false) := by
  induction root generalizing bits with
  | leaf s0 w => exact .inl ⟨s0, [], bits, by simp [treePaths], rfl⟩
  | internal w c0 c1 ih0 ih1 =>
    cases bits with
    | nil => exact .inr ⟨_, rfl, rfl⟩
    | cons x m =>
      cases x
      · rcases ih0 m with ⟨sym, path, more, hm, he⟩ | ⟨node, hn, hl⟩
        · exact .inl ⟨sym, false :: path, more, by simp [treePaths, hm], by simp [he]⟩
        · exact .inr ⟨node, by simpa [nodeAt] using hn, hl⟩
      · rcases ih1 m with ⟨sym, path, more, hm, he⟩ | ⟨node, hn, hl⟩
        · exact .inl ⟨sym, true :: path, more, by simp [treePaths, hm], by simp [he]⟩
        · exact .inr ⟨node, by simpa [nodeAt] using hn, hl⟩

/-- GetBit that delivers a bit does the same with more bytes in IN, which it leaves (R80). -/
theorem getBit_more {ph : Phase} {p : Progress} {s t : State} {x : Bool} {bytes : List Byte} (h : getBit ph p s = .ok x t) :
    getBit ph p { s with inq := s.inq ++ bytes } = .ok x { t with inq := t.inq ++ bytes } := by
  unfold getBit at *
  split at h
  · rename_i h0
    simp only [h0, if_true]
    cases hq : s.inq with
    | nil => simp [popIn, hq] at h
    | cons b r => simp [popIn, hq, takeBit] at h ⊢; obtain ⟨rfl, rfl⟩ := h; simp
  · rename_i h0
    simp only [takeBit, h0, if_false] at *
    simp at h ⊢; obtain ⟨rfl, rfl⟩ := h; simp

/-- The walk with more bytes in IN (R80): where it ended it ends alike and leaves them, and where it held it is the
walk from the node it held at, on those bytes. -/
theorem walk_more (mk : Tree → Progress) (root : Tree) (s : State) (bytes : List Byte) (he : s.inEnd = false)
    (hr : s.inErr = false) :
    (∀ sym t, walk mk root s = .ok sym t →
      walk mk root { s with inq := s.inq ++ bytes } = .ok sym { t with inq := t.inq ++ bytes }) ∧
    (∀ u, walk mk root s = .stop u → ∃ node v, u = hold (mk node) v ∧
      v = { s with rdByte := v.rdByte, rdCnt := 0, inq := [] } ∧
      walk mk root { s with inq := s.inq ++ bytes } = walk mk node { v with inq := bytes }) := by
  induction root generalizing s with
  | leaf a b =>
    exact ⟨fun sym t h => by simp [walk] at h ⊢; obtain ⟨rfl, rfl⟩ := h; simp, fun u h => by simp [walk] at h⟩
  | internal w c0 c1 ih0 ih1 =>
    cases hg : getBit .bitDecode (mk (.internal w c0 c1)) s with
    | stop v =>
      refine ⟨fun sym t h => by simp [walk, hg] at h, fun u h => ?_⟩
      simp only [walk, hg, Flow.stop.injEq] at h
      subst h
      unfold getBit at hg
      split at hg
      · rename_i h0
        cases hq : s.inq with
        | cons b r => simp [popIn, hq, takeBit] at hg
        | nil =>
          simp only [popIn_nil hq, Flow.stop.injEq] at hg
          refine ⟨.internal w c0 c1, s, ?_, ?_, ?_⟩
          · rw [← hg]; simp [starve, he, hr]
          · cases s; simp_all
          · rfl
      · simp [takeBit] at hg
    | ok x t1 =>
      have hm := getBit_more (bytes := bytes) hg
      have hf : t1 = { s with rdByte := t1.rdByte, rdCnt := t1.rdCnt, inq := t1.inq } := by
        unfold getBit at hg
        split at hg
        · cases hq : s.inq with
          | nil => simp [popIn, hq] at hg
          | cons b r => simp [popIn, hq, takeBit] at hg; obtain ⟨_, rfl⟩ := hg; rfl
        · simp [takeBit] at hg; obtain ⟨_, rfl⟩ := hg; rfl
      have e1 : t1.inEnd = false := by rw [hf]; exact he
      have e2 : t1.inErr = false := by rw [hf]; exact hr
      cases x
      · obtain ⟨a, b⟩ := ih0 t1 e1 e2
        refine ⟨fun sym t h => ?_, fun u h => ?_⟩
        · simp only [walk, hg, hm] at h ⊢; exact a _ _ h
        · simp only [walk, hg] at h
          obtain ⟨node, v, r1, r2, r3⟩ := b u h
          refine ⟨node, v, r1, ?_, ?_⟩
          · rw [r2, hf]
          · simp only [walk, hm]; exact r3
      · obtain ⟨a, b⟩ := ih1 t1 e1 e2
        refine ⟨fun sym t h => ?_, fun u h => ?_⟩
        · simp only [walk, hg, hm] at h ⊢; exact a _ _ h
        · simp only [walk, hg] at h
          obtain ⟨node, v, r1, r2, r3⟩ := b u h
          refine ⟨node, v, r1, ?_, ?_⟩
          · rw [r2, hf]
          · simp only [walk, hm]; exact r3

end Sys2Proof.Machine
end

