-- ==== Sys2Proof/Laws/Header.lean ====
section
/-! SUPPORT. The header's bytes and the loop of HDR_PARSE (R121, R210, R211). -/

namespace Sys2Proof.Machine

/-- The pairs of the header are the leaf list, count byte first (R121, R210). -/
theorem headerPairs_eq (freq : Vector Word 256) :
    headerPairs freq = (freqLeaves freq).map fun l => (l.weight.truncate 8, l.sym) := by
  simp only [headerPairs, freqLeaves, List.map_filterMap]
  congr 1
  funext k
  by_cases h : freqAt freq (BitVec.ofNat 8 k) = 0
  · rw [if_pos h, if_pos h]; rfl
  · rw [if_neg h, if_neg h]; rfl

theorem headerBytes_eq (freq : Vector Word 256) :
    headerBytes (headerPairs freq) = headerOf (freqLeaves freq) := by
  simp [headerPairs_eq, headerBytes, headerOf, List.flatMap_map]

@[simp] theorem headerOf_length (leaves : List LeafEntry) : (headerOf leaves).length = 2 * leaves.length + 1 := by
  induction leaves with
  | nil => rfl
  | cons l ls ih =>
    simp only [headerOf, List.flatMap_cons, List.length_append, List.length_cons, List.length_nil] at ih ⊢
    omega

/-- A weight in 1..255 survives its count byte (R212, R216). -/
theorem LeafEntry.Ok.count {l : LeafEntry} (h : l.Ok) :
    (l.weight.truncate 8 : Byte) ≠ 0 ∧ parsedLeaf l.sym (l.weight.truncate 8) = l := by
  obtain ⟨h1, h2⟩ := h
  have e : (l.weight.truncate 8 : Byte).toNat = l.weight.toNat := by
    simp only [BitVec.truncate_eq_setWidth, BitVec.toNat_setWidth]; omega
  refine ⟨fun h => ?_, ?_⟩
  · rw [h] at e; simp at e; omega
  · unfold parsedLeaf
    congr
    apply BitVec.eq_of_toNat_eq
    rw [BitVec.toNat_setWidth, e]
    omega

/-- The loop over the pairs of a leaf list: it stores them as read and goes on after them (R211, R213). -/
theorem scanHeader_pairs (leaves acc : List LeafEntry) (rest : List Byte) (n : Nat)
    (hl : acc.length + leaves.length ≤ 256) (hok : ∀ l ∈ leaves, l.Ok) :
    scanHeader (leaves.flatMap (fun l => [l.weight.truncate 8, l.sym]) ++ rest) acc n =
      scanHeader rest (acc ++ leaves) (n + 2 * leaves.length) := by
  induction leaves generalizing acc n with
  | nil => simp
  | cons l ls ih =>
    obtain ⟨h0, hp⟩ := (hok l (by simp)).count
    have hne : acc.length ≠ Config.maxHdrPairs := by
      simp only [List.length_cons, Config.maxHdrPairs] at hl ⊢; omega
    simp only [List.flatMap_cons, List.cons_append, List.nil_append, scanHeader, if_neg h0, if_neg hne, hp]
    rw [ih (acc ++ [l]) (n + 2) (by simp at hl ⊢; omega) (fun x hx => hok x (by simp [hx]))]
    simp only [List.append_assoc, List.cons_append, List.nil_append, List.length_cons]
    congr 1
    omega

/-- The loop where IN runs out before a count byte (R78). -/
@[simp] theorem scanHeader_nil (leaves : List LeafEntry) (n : Nat) : scanHeader [] leaves n = .wantCount leaves n := by
  simp [scanHeader]

/-- The loop at the sentinel (R211). -/
@[simp] theorem scanHeader_sentinel (rest : List Byte) (leaves : List LeafEntry) (n : Nat) :
    scanHeader (0 :: rest) leaves n = .sentinel leaves (n + 1) rest := by
  cases rest <;> simp [scanHeader]

/-- The loop at a nonzero count byte with LEAVES full (R211). -/
theorem scanHeader_full {c : Byte} {leaves : List LeafEntry} (rest : List Byte) (n : Nat) (hc : c ≠ 0)
    (hl : leaves.length = 256) : scanHeader (c :: rest) leaves n = .overflow leaves rest := by
  have h : leaves.length = Config.maxHdrPairs := hl
  cases rest <;> simp only [scanHeader, if_neg hc, if_pos h]

/-- The loop where IN runs out before the symbol byte of a pair (R78). -/
theorem scanHeader_half {c : Byte} {leaves : List LeafEntry} (n : Nat) (hc : c ≠ 0) (hl : leaves.length ≠ 256) :
    scanHeader [c] leaves n = .wantSym leaves c (n + 1) := by
  have h : ¬ leaves.length = Config.maxHdrPairs := hl
  simp only [scanHeader, if_neg hc, if_neg h]

/-- The loop over one whole pair (R211). -/
theorem scanHeader_pair {c : Byte} {leaves : List LeafEntry} (sym : Byte) (rest : List Byte) (n : Nat) (hc : c ≠ 0)
    (hl : leaves.length ≠ 256) :
    scanHeader (c :: sym :: rest) leaves n = scanHeader rest (leaves ++ [parsedLeaf sym c]) (n + 2) := by
  have h : ¬ leaves.length = Config.maxHdrPairs := hl
  simp only [scanHeader, if_neg hc, if_neg h]

/-- What the loop can leave (R211, R213): it stores at most 256 pairs with nonzero counts after those it began with,
and it consumes a beginning of IN. -/
theorem scanHeader_keeps (bytes : List Byte) (leaves : List LeafEntry) (n : Nat) (hl : leaves.length ≤ 256)
    (hok : ∀ l ∈ leaves, l.Ok) (hn : n = 2 * leaves.length) :
    match scanHeader bytes leaves n with
    | .sentinel ls _ rest => ls.length ≤ 256 ∧ (∀ l ∈ ls, l.Ok) ∧ rest <:+ bytes
    | .overflow ls rest => ls.length ≤ 256 ∧ (∀ l ∈ ls, l.Ok) ∧ rest <:+ bytes
    | .wantCount ls m => ls.length ≤ 256 ∧ (∀ l ∈ ls, l.Ok) ∧ m = 2 * ls.length
    | .wantSym ls c m => c ≠ 0 ∧ ls.length < 256 ∧ (∀ l ∈ ls, l.Ok) ∧ m = 2 * ls.length + 1 := by
  induction hlen : bytes.length using Nat.strongRecOn generalizing bytes leaves n with
  | ind k ih =>
    match bytes with
    | [] => simpa using ⟨hl, hok, hn⟩
    | c :: rest =>
      by_cases hc : c = 0
      · subst hc; rw [scanHeader_sentinel]; exact ⟨hl, hok, List.suffix_cons _ _⟩
      · by_cases hf : leaves.length = 256
        · rw [scanHeader_full rest n hc hf]
          exact ⟨hl, hok, List.suffix_cons _ _⟩
        · match rest with
          | [] =>
            rw [scanHeader_half n hc hf]
            exact ⟨hc, by omega, hok, by omega⟩
          | sym :: rest1 =>
            have hp : (parsedLeaf sym c).Ok := by
              have h0 : c.toNat ≠ 0 := fun h => hc (BitVec.eq_of_toNat_eq (by simpa using h))
              have h1 := c.isLt
              refine ⟨?_, ?_⟩ <;> simp only [parsedLeaf, BitVec.toNat_setWidth] <;> omega
            have := ih rest1.length (by simp at hlen; omega) rest1 (leaves ++ [parsedLeaf sym c]) (n + 2)
              (by simp; omega)
              (fun l h => by
                rcases List.mem_append.mp h with h | h
                · exact hok l h
                · rw [List.mem_singleton.mp h]; exact hp)
              (by simp; omega) rfl
            have hs : rest1 <:+ c :: sym :: rest1 := ⟨[c, sym], rfl⟩
            rw [scanHeader_pair sym rest1 n hc hf]
            split at this
            · exact ⟨this.1, this.2.1, this.2.2.trans hs⟩
            · exact ⟨this.1, this.2.1, this.2.2.trans hs⟩
            · exact this
            · exact this

/-- The loop with more bytes in IN (R80): where it ended it ends alike and leaves them, and where IN ran out it goes on
from there. -/
theorem scanHeader_more (bytes more : List Byte) (leaves : List LeafEntry) (n : Nat) :
    scanHeader (bytes ++ more) leaves n =
      match scanHeader bytes leaves n with
      | .sentinel ls m rest => .sentinel ls m (rest ++ more)
      | .overflow ls rest => .overflow ls (rest ++ more)
      | .wantCount ls m => scanHeader more ls m
      | .wantSym ls c m =>
        match more with
        | [] => .wantSym ls c m
        | sym :: rest => scanHeader rest (ls ++ [parsedLeaf sym c]) (m + 1) := by
  induction hlen : bytes.length using Nat.strongRecOn generalizing bytes leaves n with
  | ind k ih =>
    match bytes with
    | [] => simp
    | c :: rest =>
      by_cases hc : c = 0
      · subst hc; simp only [List.cons_append, scanHeader_sentinel]
      · by_cases hf : leaves.length = 256
        · simp only [List.cons_append, scanHeader_full _ n hc hf]
        · match rest with
          | [] =>
            rw [scanHeader_half n hc hf]
            cases more with
            | nil => exact scanHeader_half n hc hf
            | cons sym r => exact scanHeader_pair sym r n hc hf
          | sym :: rest1 =>
            simp only [List.cons_append, scanHeader_pair sym _ n hc hf]
            exact ih rest1.length (by simp at hlen; omega) rest1 _ (n + 2) rfl

end Sys2Proof.Machine
end

