-- ==== Sys2Proof/Laws/Invariant.lean ====
section
/-! SUPPORT. The shared operations and the invariant: what ends a command (R45, R276), the reset (R300) and the
host's side keep it. -/

namespace Sys2Proof.Machine

/-- Ending a command keeps the invariant (R45). -/
theorem Inv.completed {s : State} (h : Inv s) : Inv (complete s) :=
  { h with progress := by simp [complete], command := by simp [complete] }

/-- The fault entry keeps the invariant from any state whose memories and rack count are in range: it asks nothing of the rack, the tree
or the running command (R276). -/
theorem Inv.raise {s : State} (k : FaultKind) (ph : Phase)
    (counts : ∀ b, (freqAt s.freq b).toNat ≤ 255) (leavesLength : s.leaves.length ≤ Config.maxHdrPairs)
    (leavesOk : ∀ l ∈ s.leaves, l.Ok) (codeOk : ∀ sym, (codeAt s.code sym).Ok)
    (codeLast : s.params.eofMode = .compat → codeAt s.code 256 = CodeEntry.cleared) (unread : s.rdCnt.toNat ≤ 8) :
    Inv (raise k ph s) where
  counts := counts
  leavesLength := leavesLength
  leavesOk := leavesOk
  treeBuilt := by simp [Machine.raise]
  codeOk := codeOk
  codeLast := codeLast
  codeEof := by simp [Machine.raise]
  rack := by simp [Machine.raise]
  unread := unread
  noFault := by simp [Machine.raise]
  faulted := by simp only [Machine.raise]; exact fun _ => ⟨⟨k, rfl⟩, ⟨ph, rfl⟩, trivial, trivial, trivial⟩
  progress := by simp [Machine.raise]
  command := by simp [Machine.raise]

/-- The fault entry from a state of the invariant (R276). -/
theorem Inv.raised {s : State} (h : Inv s) (k : FaultKind) (ph : Phase) : Inv (Machine.raise k ph s) :=
  Inv.raise k ph h.counts h.leavesLength h.leavesOk h.codeOk h.codeLast h.unread

/-- The cleared entry is in range (R38). -/
theorem CodeEntry.cleared_ok : CodeEntry.cleared.Ok := by
  refine ⟨fun _ => rfl, ?_, ?_⟩ <;> decide

/-- Reset reaches the invariant from any state (R300). -/
theorem Inv.reset (s : State) : Inv (applyReset s) where
  counts := by simp [applyReset]
  leavesLength := by simp [applyReset]
  leavesOk := by simp [applyReset]
  treeBuilt := by simp [applyReset]
  codeOk := by intro sym; simpa [applyReset] using CodeEntry.cleared_ok
  codeLast := by simp [applyReset]
  codeEof := by simp [applyReset]
  rack := by simp [applyReset, RackPadded]
  unread := by simp [applyReset]
  noFault := by simp [applyReset]
  faulted := by simp [applyReset]
  progress := by simp [applyReset]
  command := by simp [applyReset]

/-- Where a command stands is about the block's own state only: the host's side and the model's own fields do not
matter (R57). -/
theorem ProgressOk.host {s : State} (h : ProgressOk s) (inq outq : List Byte) (ie ir oe ovr : Bool)
    (after : Option Nat) (rd : Option Word) (ag : List Turn) (d : Nat) :
    ProgressOk { s with
      inq := inq, inEnd := ie, inErr := ir, outq := outq, outErr := oe, outErrAfter := after, ovr := ovr,
      readData := rd, agenda := ag, draws := d } := by
  unfold ProgressOk at h ⊢
  cases hr : s.run <;> simp only [hr] at h ⊢ <;> exact h

/-- The host's side, OVR and the model's own fields are free in the invariant (R57, R303). -/
theorem Inv.host {s : State} (h : Inv s) (inq outq : List Byte) (ie ir oe ovr : Bool)
    (after : Option Nat) (rd : Option Word) (ag : List Turn) (d : Nat) :
    Inv { s with
      inq := inq, inEnd := ie, inErr := ir, outq := outq, outErr := oe, outErrAfter := after, ovr := ovr,
      readData := rd, agenda := ag, draws := d } where
  counts := h.counts
  leavesLength := h.leavesLength
  leavesOk := h.leavesOk
  treeBuilt := h.treeBuilt
  codeOk := h.codeOk
  codeLast := h.codeLast
  codeEof := h.codeEof
  rack := h.rack
  unread := h.unread
  noFault := h.noFault
  faulted := h.faulted
  progress := fun hb => (h.progress hb).host inq outq ie ir oe ovr after rd ag d
  command := h.command

/-- Accepting a command word keeps the invariant (R49). -/
theorem Inv.accept {s : State} (h : Inv s) (w : Word) : Inv (acceptCommand w s) :=
  { h with progress := fun _ => trivial, command := fun _ _ hi => by cases hi }

end Sys2Proof.Machine
end

