-- ==== Sys2Proof/Laws/PerInstr.lean ====
section
/-! SUPPORT. Facts about every command as syntax, one lemma per constructor. Family `OpcodeField`: the opcode byte of a
command's word is the code of its row of the opcode map (30_encoding.md rules R101, R107). -/

namespace Sys2Proof.Laws.OpcodeField

/-- `w[31:24]` of the word of `i` is its opcode. -/
def Statement (i : Instr) : Prop := opcField (encode i) = i.opcode.code

/-- The opcode byte of a format N word. -/
theorem opcField_encodeN (op : Opcode) : opcField (encodeN op) = op.code := by cases op <;> decide

/-- The opcode byte of a format B word. -/
theorem opcField_encodeB (op : Opcode) (b : Byte) : opcField (encodeB op b) = op.code := by
  apply BitVec.eq_of_getLsbD_eq
  intro k hk
  have e : (encodeB op b).getLsbD (24 + k) = op.code.getLsbD k := by
    simp only [encodeB, BitVec.getLsbD_cast, BitVec.getLsbD_append]
    rw [if_neg (by omega)]
    congr 1
    omega
  simp only [opcField, BitVec.getLsbD_extractLsb', hk, decide_true, Bool.true_and, e]

/-- The opcode byte of a format S word. -/
theorem opcField_encodeS (op : Opcode) (s : Sym) : opcField (encodeS op s) = op.code := by
  apply BitVec.eq_of_getLsbD_eq
  intro k hk
  have e : (encodeS op s).getLsbD (24 + k) = op.code.getLsbD k := by
    simp only [encodeS, BitVec.getLsbD_cast, BitVec.getLsbD_append]
    rw [if_neg (by omega)]
    congr 1
    omega
  simp only [opcField, BitVec.getLsbD_extractLsb', hk, decide_true, Bool.true_and, e]

/-- The opcode byte of a format T word. -/
theorem opcField_encodeT (op : Opcode) (src : TreeSource) : opcField (encodeT op src) = op.code := by
  cases src <;> cases op <;> decide

theorem nop : Statement .nop := opcField_encodeN _
theorem softReset : Statement .softReset := opcField_encodeN _
theorem freqClear : Statement .freqClear := opcField_encodeN _
theorem freqAccum (b : Byte) : Statement (.freqAccum b) := opcField_encodeB _ b
theorem freqRead (b : Byte) : Statement (.freqRead b) := opcField_encodeB _ b
theorem treeBuild (src : TreeSource) : Statement (.treeBuild src) := opcField_encodeT _ src
theorem treeRelease : Statement .treeRelease := opcField_encodeN _
theorem codeDerive : Statement .codeDerive := opcField_encodeN _
theorem codeRead (sym : Sym) : Statement (.codeRead sym) := opcField_encodeS _ sym
theorem hdrEmit : Statement .hdrEmit := opcField_encodeN _
theorem hdrParse : Statement .hdrParse := opcField_encodeN _
theorem leafRead (i : Byte) : Statement (.leafRead i) := opcField_encodeB _ i
theorem encByte (b : Byte) : Statement (.encByte b) := opcField_encodeB _ b
theorem encEof : Statement .encEof := opcField_encodeN _
theorem encFlush : Statement .encFlush := opcField_encodeN _
theorem decSymbol : Statement .decSymbol := opcField_encodeN _
theorem decStream : Statement .decStream := opcField_encodeN _

end Sys2Proof.Laws.OpcodeField
end

