-- ==== Sys2Proof/Tests/Slice0.lean ====
section
/-! SUPPORT. Tests and witnesses. Expected values are the spec's own vectors (95_test_vectors.md), named in each
comment; a witness shows a state and operands that meet the hypotheses of the obligation it names. -/

namespace Sys2Proof.Tests

open Sys2Proof Sys2Proof.Machine

/-! ## Helpers -/

/-- The outcome is a next state with the property. -/
def answers (o : Host.Outcome State Fault Refusal) (p : State → Bool) : Bool :=
  match o with
  | .next t => p t
  | .fault _ => false
  | .refused _ => false

theorem answers_next {o : Host.Outcome State Fault Refusal} {p : State → Bool} (h : answers o p = true) :
    ∃ t, o = .next t ∧ p t = true := by
  cases o with
  | next t => exact ⟨t, rfl, h⟩
  | fault r => cases h
  | refused r => cases h

/-- The AAAB leaf list, tree and codes, as L1-1 of 95_test_vectors.md gives them. -/
def aaabLeaves : List LeafEntry := [⟨0x41, 3⟩, ⟨0x42, 1⟩]
def aaabTree : Tree := .internal 5 (.internal 2 (.leaf 0x42 1) (.leaf 254 1)) (.leaf 0x41 3)
def aaabCode : Vector CodeEntry 257 :=
  (((Vector.replicate 257 CodeEntry.cleared).set 0x41 ⟨true, 1, 1⟩).set 0x42 ⟨true, 0, 2⟩).set 254 ⟨true, 1, 2⟩

/-- After counting AAAB; after TREE_BUILD; after CODE_DERIVE. -/
def counted : State := { State.reset with freq := ((Vector.replicate 256 0).set 0x41 3).set 0x42 1 }
def built : State := { State.reset with leaves := aaabLeaves, leavesValid := true, tree := some aaabTree }
def coded : State := { built with code := aaabCode, codesValid := true }

/-- One byte value with count 255. -/
def nearScaling : State := { State.reset with freq := ((Vector.replicate 256 0).set 5 255).set 7 3 }

/-- A state with a fault recorded: SEQUENCE_ERROR of CODE_DERIVE. -/
def faulted : State := { State.reset with fault := true, fcode := 5, fphase := 3, fopc := 0x30, curCmd := 0x30000000 }

/-- A tree of depth n, every leaf at the left. -/
def chain : Nat → Tree
  | 0 => .leaf 254 1
  | n + 1 => .internal 1 (chain n) (.leaf (BitVec.ofNat 9 n) 1)

theorem chain_depth (n : Nat) : treeDepth (chain n) = n := by
  induction n with
  | zero => rfl
  | succ n ih => simp only [chain, treeDepth, ih]; omega

theorem no_leaves : freqLeaves State.reset.freq = [] := by simp [freqLeaves, State.reset, State.resetWith]

/-! ## WellFormed -/

/-- R104, R108: SYM is at most 256; every other operand is bounded by its type. -/
theorem test_wellFormed_refuses_257 : (Instr.codeRead 257).wellFormed = false := by decide
theorem test_wellFormed_refuses_511 : (Instr.codeRead 511).wellFormed = false := by decide
theorem test_wellFormed_takes_256 : (Instr.codeRead 256).wellFormed = true := by decide

/-! ## Decoding: words written from R101 to R107, for every row of the opcode map -/

theorem test_decode_control : decode 0b00000001_000000000000000000000000 = .ok .nop ∧
    decode 0b00000010_000000000000000000000000 = .ok .softReset := by decide
theorem test_decode_freq : decode 0b00010000_000000000000000000000000 = .ok .freqClear ∧
    decode 0b00010001_0000000000000000_01000001 = .ok (.freqAccum 0x41) ∧
    decode 0b00010010_0000000000000000_11111111 = .ok (.freqRead 0xFF) := by decide
theorem test_decode_tree : decode 0b00100000_00000000000000000000000_0 = .ok (.treeBuild .freq) ∧
    decode 0b00100000_00000000000000000000000_1 = .ok (.treeBuild .hdr) ∧
    decode 0b00100001_000000000000000000000000 = .ok .treeRelease := by decide
theorem test_decode_code : decode 0b00110000_000000000000000000000000 = .ok .codeDerive ∧
    decode 0b00110001_000000000000000_100000000 = .ok (.codeRead 256) ∧
    decode 0b00110001_000000000000000_011111110 = .ok (.codeRead 254) := by decide
theorem test_decode_header : decode 0b01000000_000000000000000000000000 = .ok .hdrEmit ∧
    decode 0b01000001_000000000000000000000000 = .ok .hdrParse ∧
    decode 0b01000010_0000000000000000_00000001 = .ok (.leafRead 1) := by decide
theorem test_decode_encoder : decode 0b01010000_0000000000000000_01000011 = .ok (.encByte 0x43) ∧
    decode 0b01010001_000000000000000000000000 = .ok .encEof ∧
    decode 0b01010010_000000000000000000000000 = .ok .encFlush := by decide
theorem test_decode_decoder : decode 0b01100000_000000000000000000000000 = .ok .decSymbol ∧
    decode 0b01100001_000000000000000000000000 = .ok .decStream := by decide
/-- The illegal rows of section 2.1. -/
theorem test_decode_illegal : decode 0x00000000 = .error .unassignedOpcode ∧
    decode 0x13000000 = .error .unassignedOpcode ∧ decode 0x01000001 = .error .reservedBits ∧
    decode 0x02000001 = .error .reservedBits ∧ decode 0x11000141 = .error .reservedBits ∧
    decode 0x31000101 = .error .symbolOutOfRange ∧ decode 0x20000002 = .error .reservedBits := by decide
theorem test_decodeTableWord : decodeTableWord 32 0x50000043 = some (.encByte 0x43) ∧
    decodeTableWord 32 0x31000101 = none := by decide
theorem test_encode_operands : encode (.codeRead 256) = 0x31000100 ∧ encode (.treeBuild .hdr) = 0x20000001 ∧
    encode (.encByte 0x43) = 0x50000043 := by decide

/-! ## One step of each command -/

/-- 2.1: NOP changes nothing. -/
theorem test_nop : answers (step (coded.withFetchWord 32 0x01000000))
    (fun t => !t.busy && statusWord t == 0x00020038) = true := by decide
/-- 2.8: after SOFT_RESET STATUS = 0 and FAULTINFO = 0, from a faulted state too. -/
theorem test_soft_reset : answers (step (faulted.withFetchWord 32 0x02000000))
    (fun t => statusWord t == 0 && faultInfoWord t == 0) = true := by decide
/-- 2.8: any other command is discarded while FAULT = 1. -/
theorem test_faulted_discards : answers (step (faulted.withFetchWord 32 0x11000041))
    (fun t => statusWord t == 2 && freqAt t.freq 0x41 == 0 && faultInfoWord t == 0x00003035) = true := by decide
/-- 2.8: FAULTINFO of the word 0. -/
theorem test_illegal_word : answers (step (State.reset.withFetchWord 32 0))
    (fun t => statusWord t == 2 && faultInfoWord t == 4) = true := by decide
/-- 2.2: FREQ_CLEAR. -/
theorem test_freq_clear : answers (exec .freqClear counted)
    (fun t => freqAt t.freq 0x41 == 0 && t.result0 == 0) = true := by decide
/-- 2.2: no scaling below 256. -/
theorem test_freq_accum_counts : answers (exec (.freqAccum 0x41) counted)
    (fun t => freqAt t.freq 0x41 == 4 && freqAt t.freq 0x42 == 1 && t.result0 == 4 && t.result1 == 0) = true := by decide
/-- 2.2: scaling at 256. -/
theorem test_freq_accum_scales : answers (exec (.freqAccum 5) nearScaling)
    (fun t => freqAt t.freq 5 == 128 && freqAt t.freq 7 == 2 && freqAt t.freq 9 == 0 && t.result0 == 128 &&
      t.result1 == 1) = true := by decide
/-- 2.2: FREQ_READ writes RESULT0 only. -/
theorem test_freq_read : answers (exec (.freqRead 0x41) { counted with result1 := 7 })
    (fun t => t.result0 == 3 && t.result1 == 7) = true := by decide
/-- 2.3: the AAAB tree from FREQ. -/
theorem test_tree_build_aaab : answers (exec (.treeBuild .freq) counted)
    (fun t => t.tree == some aaabTree && t.leaves == aaabLeaves && t.result0 == 5 && t.result1 == 3) = true := by decide
/-- 2.3: the ABCD tree, a check of the first-in-first-out tie rule. -/
theorem test_tree_build_abcd : answers (exec (.treeBuild .hdr) { State.reset with
      leaves := [⟨0x41, 1⟩, ⟨0x42, 1⟩, ⟨0x43, 1⟩, ⟨0x44, 1⟩], leavesValid := true })
    (fun t => t.tree == some (.internal 5 (.internal 2 (.leaf 0x43 1) (.leaf 0x44 1))
      (.internal 3 (.leaf 254 1) (.internal 2 (.leaf 0x41 1) (.leaf 0x42 1))))) = true := by decide
theorem test_tree_release : answers (exec .treeRelease coded)
    (fun t => t.tree == none && t.codesValid && t.leavesValid) = true := by decide
/-- 2.4: the AAAB codes. -/
theorem test_code_derive_aaab : answers (exec .codeDerive built)
    (fun t => codeAt t.code 0x41 == ⟨true, 1, 1⟩ && codeAt t.code 0x42 == ⟨true, 0, 2⟩ &&
      codeAt t.code 254 == ⟨true, 1, 2⟩ && codeAt t.code 256 == CodeEntry.cleared && t.codesValid) = true := by decide
/-- 2.4: CODE_DERIVE with no tree. -/
theorem test_code_derive_no_tree : answers (step (State.reset.withFetchWord 32 0x30000000))
    (fun t => faultInfoWord t == 0x00003035) = true := by decide
/-- 2.4: CODE_READ 'B' and CODE_READ 256. -/
theorem test_code_read_b : answers (exec (.codeRead 0x42) coded)
    (fun t => t.result0 == 0 && t.result1 == 0x80000002) = true := by decide
theorem test_code_read_256 : answers (exec (.codeRead 256) coded)
    (fun t => t.result0 == 0 && t.result1 == 0) = true := by decide
/-- 2.5: HDR_EMIT, and HDR_EMIT with a bit in the rack. -/
theorem test_hdr_emit : answers (exec .hdrEmit counted)
    (fun t => t.outq == [0x03, 0x41, 0x01, 0x42, 0x00] && t.result0 == 2 && t.result1 == 5) = true := by decide
theorem test_hdr_emit_unaligned : answers (step ({ counted with wrCnt := 1 }.withFetchWord 32 0x40000000))
    (fun t => t.outq == [] && faultInfoWord t == 0x00004045) = true := by decide
/-- 2.5: HDR_PARSE of a whole header, and of a header cut after a count byte. -/
theorem test_hdr_parse : answers (exec .hdrParse { State.reset with inq := [0x03, 0x41, 0x01, 0x42, 0x00, 0xE2] })
    (fun t => t.leaves == aaabLeaves && t.inq == [0xE2] && t.result0 == 2 && t.result1 == 5) = true := by decide
theorem test_hdr_parse_cut :
    answers (step ({ State.reset with inq := [0x03, 0x41, 0x01], inEnd := true }.withFetchWord 32 0x41000000))
      (fun t => t.leaves == [⟨0x41, 3⟩] && statusWord t == 0x00010002 && faultInfoWord t == 0x00004152) = true := by
  decide
/-- 2.5: LEAF_READ 1 and LEAF_READ 5. -/
theorem test_leaf_read : answers (exec (.leafRead 1) built) (fun t => t.result0 == 1 && t.result1 == 0x42) = true := by
  decide
theorem test_leaf_read_past : answers (exec (.leafRead 5) built) (fun t => t.result0 == 0 && t.result1 == 0) = true := by
  decide
/-- 2.6: ENC_BYTE 'B' as the fourth symbol of AAAB, and ENC_BYTE 'C'. -/
theorem test_enc_byte : answers (exec (.encByte 0x42) { coded with wrRack := 0b11100000, wrCnt := 3 })
    (fun t => t.wrRack == 0b11100000 && t.wrCnt == 5 && t.outq == []) = true := by decide
theorem test_enc_byte_uncoded : answers (step (coded.withFetchWord 32 0x50000043))
    (fun t => faultInfoWord t == 0x00005067 && t.wrCnt == 0) = true := by decide
/-- 2.6: ENC_EOF after AAAB; a code across a byte boundary (R82). -/
theorem test_enc_eof : answers (exec .encEof { coded with wrRack := 0b11100000, wrCnt := 5 })
    (fun t => t.wrRack == 0b11100010 && t.wrCnt == 7 && t.outq == []) = true := by decide
theorem test_enc_eof_crosses : answers (exec .encEof { coded with wrRack := 0b11100010, wrCnt := 7 })
    (fun t => t.wrRack == 0b10000000 && t.wrCnt == 1 && t.outq == [0xE2]) = true := by decide
/-- 2.6: ENC_FLUSH, and ENC_FLUSH with out_err = 1. -/
theorem test_enc_flush : answers (exec .encFlush { coded with wrRack := 0b11100010, wrCnt := 7 })
    (fun t => t.wrRack == 0 && t.wrCnt == 0 && t.outq == [0xE2]) = true := by decide
theorem test_enc_flush_failed :
    answers (step ({ coded with wrRack := 0x80, wrCnt := 1, outErr := true }.withFetchWord 32 0x52000000))
      (fun t => faultInfoWord t == 0x00005271 && t.wrRack == 0x80 && t.wrCnt == 1) = true := by decide
/-- 2.7: the first and the fifth DEC_SYMBOL of the AAAB payload. -/
theorem test_dec_symbol : answers (exec .decSymbol { built with inq := [0xE2], inEnd := true })
    (fun t => t.result0 == 0x41 && t.outq == [0x41] && statusWord t == 0x00027028) = true := by decide
theorem test_dec_symbol_eof :
    answers (exec .decSymbol { built with rdByte := 0xE2, rdCnt := 3, inEnd := true })
      (fun t => t.result0 == 0xFE && t.outq == [] && statusWord t == 0x0002102C) = true := by decide
/-- 2.7: DEC_STREAM pushes the first symbol and goes on; the whole payload; a missing payload. -/
theorem test_dec_stream : answers (blockTurns 5
      ({ built with inq := [0xE2], inEnd := true }.withFetchWord 32 0x61000000))
    (fun t => t.outq == [0x41, 0x41, 0x41, 0x42] && t.result0 == 4 && t.eos && t.rdCnt == 1 && !t.busy) = true := by
  decide
theorem test_dec_stream_missing : answers (step ({ built with inEnd := true }.withFetchWord 32 0x61000000))
    (fun t => faultInfoWord t == 0x00006182 && t.result0 == 0 && statusWord t == 0x00020002) = true := by decide

/-! ## The host -/

/-- R303, R49: the host's write to CMD is accepted, and the block's next turn runs the word. -/
theorem test_host_write : answers (step { State.reset with agenda := [.host (.write 0x04 32 0x11000041)] })
    (fun t => t.busy && t.curCmd == 0x11000041 && answers (step t)
      (fun u => !u.busy && freqAt u.freq 0x41 == 1)) = true := by decide
/-- 2.8: CONFIG in both modes. -/
theorem test_config : answers (hostTurn (.read 0 32) State.reset) (fun t => t.readData == some 0x002000FE) = true ∧
    answers (hostTurn (.read 768 32) (State.resetWith ⟨.wide, 3⟩)) (fun t => t.readData == some 0x00200100) = true := by
  decide

/-! ## The assembler (R111, R112) -/

theorem test_assemble_char : assembleLine Params.standard "FREQ_ACCUM 'A'".toList = some [.freqAccum 0x41] := by decide
theorem test_assemble_eof : assembleLine Params.standard "  CODE_READ EOF ; c".toList = some [.codeRead 254] := by
  decide
theorem test_assemble_count : assembleLine Params.standard "COUNT 'A', 0x42,67".toList =
    some [.freqAccum 0x41, .freqAccum 0x42, .freqAccum 67] := by decide
theorem test_assemble_refuses : assembleLine Params.standard "NOP 1".toList = none := by decide

/-! ## Witnesses: states and operands that meet the hypotheses of each obligation -/

/-- A state of the invariant with no fault and nothing running, given what its memories and its tree hold. -/
theorem inv_idle (s : State) (hc : s.freq = Vector.replicate 256 0 ∨ s.freq = counted.freq)
    (hl : s.leaves.length ≤ 256) (hok : ∀ l ∈ s.leaves, l.Ok)
    (ht : ∀ t, s.tree = some t → s.leavesValid = true ∧ t = buildTree s.params.eofSym s.leaves)
    (hcode : s.code = Vector.replicate 257 CodeEntry.cleared) (hv : s.codesValid = false) (hr : s.wrRack = 0)
    (hu : s.rdCnt.toNat ≤ 8) (hf : s.fault = false) (h0 : s.fcode = 0 ∧ s.fphase = 0 ∧ s.fopc = 0)
    (hp : s.busy = true → ProgressOk s)
    (hd : s.busy = true → ∀ i, s.run.command = some i → decode s.curCmd = .ok i) : Inv s where
  counts := by
    rcases hc with h | h <;> rw [h]
    · simp
    · decide
  leavesLength := hl
  leavesOk := hok
  treeBuilt := ht
  codeOk := by rw [hcode]; intro sym; simpa using CodeEntry.cleared_ok
  codeLast := by rw [hcode]; simp
  codeEof := by simp [hv]
  rack := by intro _ k _; simp [hr]
  unread := hu
  noFault := fun _ => h0
  faulted := by simp [hf]
  progress := hp
  command := hd

theorem aaab_ok : ∀ l ∈ aaabLeaves, l.Ok := by
  intro l h
  simp only [aaabLeaves, List.mem_cons, List.not_mem_nil, or_false] at h
  rcases h with rfl | rfl <;> refine ⟨?_, ?_⟩ <;> decide

theorem inv_reset : Inv (applyReset State.reset) := Inv.reset _

theorem inv_counted : Inv counted :=
  inv_idle _ (.inr rfl) (by decide) (by simp [counted, State.reset, State.resetWith]) (by decide) rfl rfl rfl (by decide)
    rfl (by decide) (fun h => by cases h) (fun h => by cases h)

theorem inv_built : Inv built :=
  inv_idle _ (.inl rfl) (by decide) aaab_ok (by decide) rfl rfl rfl (by decide) rfl (by decide) (fun h => by cases h)
    (fun h => by cases h)

theorem inv_faulted : Inv faulted where
  counts := inv_reset.counts
  leavesLength := by decide
  leavesOk := inv_reset.leavesOk
  treeBuilt := by decide
  codeOk := inv_reset.codeOk
  codeLast := inv_reset.codeLast
  codeEof := by decide
  rack := fun h => by cases h
  unread := by decide
  noFault := by decide
  faulted := fun _ => ⟨⟨.sequenceError, rfl⟩, ⟨.codeDerive, rfl⟩, rfl, rfl, rfl⟩
  progress := fun h => by cases h
  command := fun h => by cases h

/-- A payload cut inside a code: DEC_SYMBOL waits at the inner node. -/
def waiting : State :=
  { built with busy := true, curCmd := 0x60000000, rdByte := 0xFE, run := .decSymbol (.internal 2 (.leaf 0x42 1) (.leaf 254 1)) }

theorem inv_waiting : Inv waiting :=
  inv_idle _ (.inl rfl) (by decide) aaab_ok (by decide) rfl rfl rfl (by decide) rfl (by decide)
    (fun _ => ⟨rfl, rfl, rfl, rfl, aaabTree, [false], rfl, rfl⟩) (fun _ i h => by cases h; decide)

/-- HDR_PARSE waiting for the symbol byte of its second pair, and for a count byte after it. -/
def parsing : State :=
  { State.reset with busy := true, curCmd := 0x41000000, leaves := [⟨0x41, 3⟩], run := .hdrSym 1 3 }
def parsingCount : State :=
  { State.reset with busy := true, curCmd := 0x41000000, leaves := aaabLeaves, run := .hdrCount 4 }

theorem inv_parsing : Inv parsing :=
  inv_idle _ (.inl rfl) (by decide) (fun l h => aaab_ok l (by
    simp only [parsing, List.mem_singleton] at h; rw [h]; simp [aaabLeaves])) (by decide) rfl rfl rfl (by decide) rfl
    (by decide) (fun _ => ⟨⟨rfl, rfl, rfl, rfl, rfl⟩, by decide, by decide, by decide⟩) (fun _ i h => by cases h; decide)

theorem inv_parsingCount : Inv parsingCount :=
  inv_idle _ (.inl rfl) (by decide) aaab_ok (by decide) rfl rfl rfl (by decide) rfl (by decide)
    (fun _ => ⟨⟨rfl, rfl, rfl, rfl, rfl⟩, rfl⟩) (fun _ i h => by cases h; decide)

/-- A running DEC_STREAM at the head of its loop, and waiting at the root, with IN ended. -/
def streaming : State :=
  { built with busy := true, curCmd := 0x61000000, inq := [0xFF], inEnd := true, run := .streamNext }
def streamWaiting : State :=
  { built with busy := true, curCmd := 0x61000000, inErr := true, run := .streamAt aaabTree }

theorem inv_streaming : Inv streaming :=
  inv_idle _ (.inl rfl) (by decide) aaab_ok (by decide) rfl rfl rfl (by decide) rfl (by decide)
    (fun _ => ⟨rfl, rfl, rfl⟩) (fun _ i h => by cases h; decide)

theorem inv_streamWaiting : Inv streamWaiting :=
  inv_idle _ (.inl rfl) (by decide) aaab_ok (by decide) rfl rfl rfl (by decide) rfl (by decide)
    (fun _ => ⟨rfl, rfl, rfl, rfl, aaabTree, [], rfl, rfl⟩) (fun _ i h => by cases h; decide)

/-! ### Encoding, dispatch, registers -/

theorem witness_DecodeOfEncode : (Instr.codeRead 256).wellFormed = true := by decide
theorem witness_EncodeOfDecode : decode 0x31000100 = .ok (.codeRead 256) := by decide

theorem witness_IllegalWordsRaiseIllegalCommand :
    ({ State.reset with curCmd := 0x31000101, busy := true }).fault = false ∧ IllegalWord 0x31000101 ∧
      IllegalWord 0x01000001 ∧ IllegalWord 0x11000100 ∧ IllegalWord 0x20000002 ∧ IllegalWord 0 :=
  ⟨rfl, .inr ⟨.codeRead, by decide, .inr (.inr (.inl (by decide)))⟩,
    .inr ⟨.nop, by decide, .inl (by decide)⟩, .inr ⟨.freqAccum, by decide, .inr (.inl (by decide))⟩,
    .inr ⟨.treeBuild, by decide, .inr (.inr (.inr (by decide)))⟩, .inl fun op => by cases op <;> decide⟩

theorem witness_StepRunsTheDecodedCommand :
    (∃ s : State, s.busy = true ∧ s.run = .start ∧ decode s.curCmd = .ok .hdrEmit ∧ s.fault = false ∧ s.agenda = []) ∧
    (∃ s : State, s.busy = true ∧ s.run = .start ∧ decode s.curCmd = .ok .softReset ∧ s.fault = true ∧
      s.agenda = .block :: [.host .endIn]) ∧ decode 0x61000000 = .ok .decStream :=
  ⟨⟨{ State.reset with busy := true, curCmd := 0x40000000 }, rfl, rfl, by decide, rfl, rfl⟩,
    ⟨{ faulted with busy := true, curCmd := 0x02000000, agenda := .block :: [.host .endIn] }, rfl, rfl, by decide, rfl,
      rfl⟩, by decide⟩

theorem witness_FaultedBlockDiscardsCommands : ∃ s : State, s.busy = true ∧ s.run = .start ∧ s.fault = true ∧
    s.curCmd ≠ 0x02000000 ∧ decode s.curCmd = .ok (.freqAccum 0x41) :=
  ⟨{ faulted with busy := true, curCmd := 0x11000041 }, rfl, rfl, rfl, by decide, by decide⟩

theorem witness_CmdWriteIsAcceptedOrOverruns : State.reset.busy = false ∧ parsing.busy = true := by decide

theorem witness_OnlyCmdIsWritable : (0x18 < 256 ∧ 0x18 % 4 = 0 ∧ 0x18 ≠ 0x04 ∧ 0x18 ≤ 0x18) ∧
    (252 < 256 ∧ 252 % 4 = 0 ∧ 0x18 ≤ 252) ∧ (0 % 4 = 0 ∧ 0 ≠ 0x04) := by decide

theorem witness_UnsupportedAccessesAreRefused : (0 < 256 ∧ (16 ≠ 32 ∨ 0 % 4 ≠ 0)) ∧ (255 < 256 ∧ (32 ≠ 32 ∨ 255 % 4 ≠ 0)) := by
  decide

theorem witness_ConfigReadsItsConstant : State.reset.params.eofMode = .compat ∧
    (State.resetWith ⟨.wide, 3⟩).params.eofMode = .wide := by decide

theorem witness_StatusReflectsTheState : ∃ s : State, s.busy = false ∧ s.leaves.length ≤ 256 ∧ s.leaves.length = 256 :=
  ⟨{ State.reset with leaves := List.replicate 256 ⟨0x41, 1⟩ }, rfl, List.length_replicate.le, List.length_replicate⟩

theorem witness_FaultInfoAndResultsReflectTheState : (built.busy = false ∧ built.fault = false) ∧
    faulted.busy = false ∧ faulted.fault = true := by decide

theorem witness_BusyReadsKeepTheTrueBits : waiting.busy = true ∧ (0x14 = 0x0C ∨ 0x14 = 0x10 ∨ 0x14 = 0x14) := by decide

/-! ### Frequency accumulator -/

theorem witness_FreqAccumCountsAndRescales : freqAt nearScaling.freq 5 + 1 = 256 ∧ freqAt nearScaling.freq 7 + 1 ≠ 256 ∧
    freqAt nearScaling.freq 9 = 0 := by decide

theorem witness_ScalingKeepsCountsSmallAndPositive : (∀ c, (freqAt nearScaling.freq c).toNat ≤ 255) ∧
    (∃ t, exec (.freqAccum 5) nearScaling = .next t) ∧ 0 < (freqAt nearScaling.freq 7).toNat :=
  ⟨by decide, ⟨_, rfl⟩, by decide⟩

theorem witness_ScalingIsMonotone : (∀ c, (freqAt nearScaling.freq c).toNat ≤ 255) ∧
    (∃ t, exec (.freqAccum 5) nearScaling = .next t ∧ (t.result1 == 1) = true) ∧
    freqAt (bump nearScaling.freq 5) 7 ≤ freqAt (bump nearScaling.freq 5) 5 :=
  ⟨by decide, answers_next (p := fun t => t.result1 == 1) (by decide), by decide⟩

theorem witness_RepeatedByteClosedForm : ∀ c, freqAt State.reset.freq c = 0 := by decide

/-! ### Trees and codes -/

theorem witness_FreqLeavesAscend : (∀ b, (freqAt nearScaling.freq b).toNat ≤ 255) ∧
    (⟨5, 255⟩ : LeafEntry) ∈ freqLeaves nearScaling.freq := by decide

theorem witness_TreeBuildCompletes : built.leavesValid = true ∧ counted.leavesValid = false := by decide

theorem witness_ExtractMinTakesTheLeastKey :
    extractMin ⟨0, .leaf 0x41 3⟩ [⟨1, .leaf 0x42 1⟩, ⟨2, .leaf 254 1⟩] =
      (⟨1, .leaf 0x42 1⟩, [⟨0, .leaf 0x41 3⟩, ⟨2, .leaf 254 1⟩]) ∧ [0, 1, 2].Nodup := by decide

theorem witness_BuiltTreeShape : Inv counted ∧
    ∃ t, exec (.treeBuild .freq) counted = .next t ∧ (t.tree == some aaabTree) = true :=
  ⟨inv_counted, answers_next (p := fun t => t.tree == some aaabTree) (by decide)⟩

theorem witness_OneSymbolTree : (1 ≤ (255#32).toNat ∧ (255#32).toNat ≤ 255 ∧ 1 < (255#32).toNat) ∧
    1 ≤ (1#32).toNat ∧ (1#32).toNat = 1 := by decide

theorem witness_CodeDeriveRecordsThePaths :
    (built.tree = some aaabTree ∧ treeDepth aaabTree ≤ 32 ∧ ∀ p ∈ treePaths aaabTree, p.1.toNat ≤ 256) ∧
    treeDepth (chain 32) = 32 ∧ ∀ p ∈ treePaths (chain 32), p.1.toNat ≤ 256 := by
  refine ⟨⟨rfl, by decide, by decide⟩, chain_depth 32, by decide⟩

theorem witness_CodeDeriveRefusesWithoutWriting : counted.tree = none ∧
    ({ built with tree := some (chain 33) }).tree = some (chain 33) ∧ 32 < treeDepth (chain 33) :=
  ⟨rfl, rfl, by rw [chain_depth]; decide⟩

theorem witness_CodesArePrefixFree : Inv built ∧
    ∃ t, exec .codeDerive built = .next t ∧ (t.codesValid && (codeAt t.code 0x41).valid && (codeAt t.code 254).valid) = true :=
  ⟨inv_built, answers_next (p := fun t => t.codesValid && (codeAt t.code 0x41).valid && (codeAt t.code 254).valid)
    (by decide)⟩

theorem witness_KraftEquality : built.tree = some aaabTree ∧ (∀ p ∈ treePaths aaabTree, p.1.toNat ≤ 256) ∧
    ((treePaths aaabTree).map (·.1)).Nodup ∧ ∃ t, exec .codeDerive built = .next t ∧ t.codesValid = true :=
  ⟨rfl, by decide, by decide, answers_next (p := fun t => t.codesValid) (by decide)⟩

theorem witness_CodeReadReadsTheEntry : (256 : Sym).toNat ≤ 256 := by decide

/-! ### Headers -/

theorem witness_HdrEmitWritesTheHeader :
    (counted.wrCnt = 0 ∧ OutAccepts (2 * (freqLeaves counted.freq).length + 1) counted) ∧
    OutAccepts (2 * (freqLeaves State.reset.freq).length + 1) { State.reset with outErrAfter := some 0 } :=
  ⟨⟨rfl, fun _ => ⟨rfl, fun k h => by cases h⟩⟩, fun _ => ⟨rfl, fun k h => by cases h; rw [no_leaves]; decide⟩⟩

theorem witness_HdrEmitFaults : ({ counted with wrCnt := 1 }).wrCnt ≠ 0 ∧ counted.wrCnt = 0 ∧
    (0 < 2 * (freqLeaves counted.freq).length + 1 ∧ OutFailsAfter 0 { counted with outErr := true }) ∧
    (4 < 2 * (freqLeaves counted.freq).length + 1 ∧ OutFailsAfter 4 { counted with outErrAfter := some 3 }) :=
  ⟨by decide, rfl, ⟨by decide, .inl ⟨rfl, rfl⟩⟩, by decide, .inr ⟨rfl, rfl, by decide⟩⟩

/-- The longest header's leaf list. -/
def fullLeaves : List LeafEntry := List.replicate 256 ⟨0x41, 255⟩

theorem full_length : fullLeaves.length = 256 := List.length_replicate

theorem full_ok : ∀ l ∈ fullLeaves, l.Ok := by
  intro l h
  rw [List.eq_of_mem_replicate h]
  refine ⟨?_, ?_⟩ <;> decide

theorem witness_HdrParseReadsAHeader : fullLeaves.length ≤ 256 ∧ (∀ l ∈ fullLeaves, l.Ok) ∧
    ∃ s : State, s.inq = headerOf fullLeaves ++ [0xE2] :=
  ⟨full_length.le, full_ok, { State.reset with inq := headerOf fullLeaves ++ [0xE2] }, rfl⟩

theorem witness_HdrParseOverflows : fullLeaves.length = 256 ∧ (∀ l ∈ fullLeaves, l.Ok) ∧ (1 : Byte) ≠ 0 ∧
    ∃ s : State, s.inq = (headerOf fullLeaves).dropLast ++ 1 :: [0x41] :=
  ⟨full_length, full_ok, by decide, { State.reset with inq := (headerOf fullLeaves).dropLast ++ 1 :: [0x41] }, rfl⟩

theorem witness_HdrParseOnACutHeader :
    (fullLeaves.length ≤ 256 ∧ (∀ l ∈ fullLeaves, l.Ok) ∧
      ∃ s : State, s.inq = (headerOf fullLeaves).dropLast ++ [] ∧ s.inErr = true) ∧
    (aaabLeaves.length < 256 ∧ (∀ l ∈ aaabLeaves, l.Ok) ∧ (1 : Byte) ≠ 0 ∧
      ∃ s : State, s.inq = (headerOf aaabLeaves).dropLast ++ [1] ∧ s.inErr = false ∧ s.inEnd = false) ∧
    ∃ s : State, s.inq = (headerOf aaabLeaves).dropLast ++ [1] ∧ s.inErr = false ∧ s.inEnd = true :=
  ⟨⟨full_length.le, full_ok, { State.reset with inq := (headerOf fullLeaves).dropLast ++ [], inErr := true }, rfl, rfl⟩,
    ⟨by decide, aaab_ok, by decide, { State.reset with inq := (headerOf aaabLeaves).dropLast ++ [1] }, rfl, rfl, rfl⟩,
    ⟨{ State.reset with inq := (headerOf aaabLeaves).dropLast ++ [1], inEnd := true }, rfl, rfl, rfl⟩⟩

theorem witness_HeaderRoundTrip : Inv counted ∧ ∃ t v u rest, exec .hdrEmit counted = .next t ∧ t.fault = false ∧
    counted.params.eofMode = u.params.eofMode ∧ u.inq = t.outq.drop counted.outq.length ++ rest ∧
    exec .hdrParse u = .next v := by
  obtain ⟨t, h1, h2⟩ := answers_next (o := exec .hdrEmit counted)
    (p := fun t => !t.fault && t.outq == [0x03, 0x41, 0x01, 0x42, 0x00]) (by decide)
  simp only [Bool.and_eq_true, Bool.not_eq_true', beq_iff_eq] at h2
  refine ⟨inv_counted, t, _, { State.reset with inq := t.outq.drop counted.outq.length ++ [0xE2] }, [0xE2], h1, h2.1, rfl,
    rfl, rfl⟩

theorem witness_HeaderCountsAreNeverTheSentinel : (∀ c, (freqAt nearScaling.freq c).toNat ≤ 255) ∧
    (255, 5) ∈ headerPairs nearScaling.freq := by decide

theorem witness_LeafReadReadsTheList : ((1 : Byte).toNat < built.leaves.length ∧ built.leavesValid = true) ∧
    built.leaves.length ≤ (2 : Byte).toNat ∧ State.reset.leavesValid = false := by decide

/-! ### Encoder and decoder -/

/-- The rack one bit short of a byte, and an OUT that takes one more byte. -/
def nearlyFull : State := { coded with wrRack := 0b11100010, wrCnt := 7, outErrAfter := some 0 }

theorem nearlyFull_padded : RackPadded nearlyFull := by unfold RackPadded; decide

theorem witness_EncodingAppendsTheCode : (254 : Sym) = nearlyFull.params.eofSym ∧ (0x42 : Sym) = (0x42 : Byte).zeroExtend 9 ∧
    nearlyFull.codesValid = true ∧ (codeAt nearlyFull.code 254).valid = true ∧ (codeAt nearlyFull.code 0x42).valid = true ∧
    RackPadded nearlyFull ∧
    OutAccepts ((nearlyFull.wrCnt.toNat + (codeAt nearlyFull.code 254).len.toNat) / 8) nearlyFull :=
  ⟨by decide, by decide, rfl, by decide, by decide, nearlyFull_padded, fun _ => ⟨rfl, fun k h => by cases h; decide⟩⟩

theorem witness_EncodingPreconditions : (0x43 : Sym) = (0x43 : Byte).zeroExtend 9 ∧ built.codesValid = false ∧
    coded.codesValid = true ∧ (codeAt coded.code 0x43).valid = false := by decide

/-- A state whose end-of-stream code is 16 bits long, with a rack one bit short of a byte. -/
def longCode (err : Bool) (after : Option Nat) : State :=
  { coded with
    code := coded.code.set 254 ⟨true, 0xABCD, 16⟩, wrRack := 0xFE, wrCnt := 7, outErr := err, outErrAfter := after }

theorem longCode_padded (err : Bool) (after : Option Nat) : RackPadded (longCode err after) :=
  show ∀ k, k < 8 - (7 : BitVec 3).toNat → (0xFE : Byte).getLsbD k = false by decide

/-- OUT in error from the start, and once one of the two bytes is pushed. -/
theorem witness_EncodingIntoAFailedOut :
    ((254 : Sym) = (longCode true none).params.eofSym ∧ (longCode true none).codesValid = true ∧
      (codeAt (longCode true none).code 254).valid = true ∧ RackPadded (longCode true none) ∧
      OutFailsAfter 0 (longCode true none) ∧
      0 < ((longCode true none).wrCnt.toNat + (codeAt (longCode true none).code 254).len.toNat) / 8) ∧
    (codeAt (longCode false (some 0)).code 254).valid = true ∧ RackPadded (longCode false (some 0)) ∧
      OutFailsAfter 1 (longCode false (some 0)) ∧
      1 < ((longCode false (some 0)).wrCnt.toNat + (codeAt (longCode false (some 0)).code 254).len.toNat) / 8 :=
  ⟨⟨by decide, rfl, by decide, longCode_padded _ _, .inl ⟨rfl, rfl⟩, by decide⟩, by decide, longCode_padded _ _,
    .inr ⟨rfl, rfl, by decide⟩, by decide⟩

/-- R82, R275: bytes 0xFF, then the push of 1010 1011 fails: the full rack stays. -/
theorem test_enc_eof_failed : answers (exec .encEof (longCode false (some 0)))
    (fun t => t.outq == [0xFF] && t.wrRack == 0x57 && t.fault && t.fcode == 1 && t.fphase == 6) = true := by decide

theorem witness_FlushWritesThePaddedRack : coded.wrCnt = 0 ∧
    (nearlyFull.wrCnt ≠ 0 ∧ nearlyFull.outErr = false ∧ RackPadded nearlyFull) ∧
    ({ nearlyFull with outErr := true }).wrCnt ≠ 0 ∧ ({ nearlyFull with outErr := true }).outErr = true :=
  ⟨rfl, ⟨by decide, rfl, nearlyFull_padded⟩, by decide, rfl⟩

theorem witness_EncodingPassWritesThePayload : coded.codesValid = true ∧ coded.wrCnt = 0 ∧ RackPadded coded ∧
    (∀ b ∈ [(0x41 : Byte), 0x41, 0x41, 0x42], (codeAt coded.code (b.zeroExtend 9)).valid = true) ∧
    (codeAt coded.code coded.params.eofSym).valid = true ∧
    payloadBits coded [0x41, 0x41, 0x41, 0x42] = [true, true, true, false, false, false, true] ∧
    OutAccepts ((7 + 7) / 8) coded :=
  ⟨rfl, rfl, by unfold RackPadded; decide, by decide, by decide, by decide, fun _ => ⟨rfl, fun k h => by cases h⟩⟩

theorem witness_CompatibilityDecoderNeverWrites254 : Inv { built with inq := [0xE2] } ∧ built.params.eofMode = .compat ∧
    ∃ t, exec .decSymbol { built with inq := [0xE2] } = .next t ∧ (t.outq == [] ++ [0x41]) = true :=
  ⟨inv_built.host _ _ _ _ _ _ _ _ _ _, rfl, answers_next (p := fun t => t.outq == [] ++ [0x41]) (by decide)⟩

theorem witness_CompatibilityDecoderNeverWrites254_later : Inv streaming ∧ streaming.params.eofMode = .compat ∧
    streaming.busy = true ∧ streaming.run ≠ .start ∧
    ∃ t, blockTurn streaming = .next t ∧ (t.outq == [] ++ [0x41]) = true :=
  ⟨inv_streaming, rfl, rfl, by decide, answers_next (p := fun t => t.outq == [] ++ [0x41]) (by decide)⟩

theorem witness_DecSymbolReadsOneCode :
    (∃ s : State, s.tree = some aaabTree ∧ s.eos = false ∧ s.rdCnt.toNat ≤ 8 ∧ (0x41, [true]) ∈ treePaths aaabTree ∧
      unreadBits s = [true] ++ [true, true, false, false, false, true, false] ∧ 0x41 ≠ s.params.eofSym ∧ s.outErr = false) ∧
    (∃ s : State, s.tree = some aaabTree ∧ s.eos = false ∧ s.rdCnt.toNat ≤ 8 ∧
      (254, [false, true]) ∈ treePaths aaabTree ∧ unreadBits s = [false, true] ++ [false] ∧ 254 = s.params.eofSym) ∧
    (∃ s : State, s.tree = some aaabTree ∧ s.eos = false ∧ s.rdCnt.toNat ≤ 8 ∧ unreadBits s = [true] ++ [] ∧
      s.outErr = true) ∧
    (∃ s : State, s.tree = some (.leaf 254 1) ∧ (254, []) ∈ treePaths (.leaf 254 1) ∧ unreadBits s = [] ++ []) :=
  ⟨⟨{ built with inq := [0xE2] }, rfl, rfl, by decide, by decide, by decide, by decide, rfl⟩,
    ⟨{ built with rdByte := 0xE2, rdCnt := 3 }, rfl, rfl, by decide, by decide, by decide, by decide⟩,
    ⟨{ built with rdByte := 1, rdCnt := 1, outErr := true }, rfl, rfl, by decide, by decide, rfl⟩,
    ⟨{ State.reset with tree := some (.leaf 254 1) }, rfl, by decide, by decide⟩⟩

theorem witness_DecodingPreconditions : State.reset.tree = none ∧ ({ built with eos := true }).eos = true := by decide

theorem witness_DecSymbolOnACutCode : ∃ s : State, s.tree = some aaabTree ∧ s.eos = false ∧ s.rdCnt.toNat ≤ 8 ∧
    nodeAt aaabTree (unreadBits s) = some (.internal 2 (.leaf 0x42 1) (.leaf 254 1)) ∧
    isLeaf (.internal 2 (.leaf 0x42 1) (.leaf 254 1)) = false ∧ s.inErr = false ∧ s.inEnd = false :=
  ⟨{ built with rdByte := 0xE2, rdCnt := 1 }, rfl, rfl, by decide, by decide, rfl, rfl, rfl⟩

theorem witness_DecSymbolOnACutCode_stops :
    (∃ s : State, s.tree = some aaabTree ∧ s.eos = false ∧ nodeAt aaabTree (unreadBits s) = some aaabTree ∧
      s.inErr = true) ∧
    ∃ s : State, s.tree = some aaabTree ∧ s.eos = false ∧ nodeAt aaabTree (unreadBits s) = some aaabTree ∧
      s.inErr = false ∧ s.inEnd = true :=
  ⟨⟨{ built with inErr := true }, rfl, rfl, by decide, rfl⟩, ⟨{ built with inEnd := true }, rfl, rfl, by decide, rfl, rfl⟩⟩

theorem witness_DecStreamDecodesToTheEnd : ∃ s : State, s.tree = some aaabTree ∧ s.eos = false ∧ s.rdCnt.toNat ≤ 8 ∧
    OutAccepts 4 s ∧
    (∀ p ∈ [(0x41, [true]), (0x41, [true]), (0x41, [true]), (0x42, [false, false])],
      p ∈ treePaths aaabTree ∧ p.1 ≠ s.params.eofSym) ∧
    (s.params.eofSym, [false, true]) ∈ treePaths aaabTree ∧
    unreadBits s = [true, true, true, false, false] ++ ([false, true] ++ [false]) :=
  ⟨{ built with inq := [0xE2], outErrAfter := some 3 }, rfl, rfl, by decide,
    fun _ => ⟨rfl, fun k h => by cases h; decide⟩, by decide, by decide, by decide⟩

theorem witness_DecStreamEndsOnAFiniteInput :
    (Inv streaming ∧ streaming.busy = true ∧ streaming.run = .streamNext ∧ streaming.inEnd = true) ∧
    Inv streamWaiting ∧ streamWaiting.busy = true ∧ streamWaiting.run = .streamAt aaabTree ∧ streamWaiting.inErr = true :=
  ⟨⟨inv_streaming, rfl, rfl, rfl⟩, inv_streamWaiting, rfl, rfl, rfl⟩

/-- Two symbols, then one bit of a code, at the three ends of IN; and an OUT that takes one symbol. -/
theorem witness_DecStreamEndsOnAFiniteInput_clauses :
    ∃ s : State, s.tree = some aaabTree ∧ s.eos = false ∧ s.rdCnt.toNat ≤ 8 ∧
      (∀ p ∈ [((0x41 : Sym), [true]), (0x42, [false, false])], p ∈ treePaths aaabTree ∧ p.1 ≠ s.params.eofSym) ∧
      unreadBits s = [true, false, false] ++ [false] ∧
      nodeAt aaabTree [false] = some (.internal 2 (.leaf 0x42 1) (.leaf 254 1)) ∧
      isLeaf (.internal 2 (.leaf 0x42 1) (.leaf 254 1)) = false ∧ OutAccepts 2 s ∧ s.inErr = false ∧ s.inEnd = true ∧
      OutFailsAfter 1 { s with outErrAfter := some 0 } ∧ unreadBits { s with outErrAfter := some 0 } = unreadBits s :=
  ⟨{ built with rdByte := 0xE8, rdCnt := 4, inEnd := true }, rfl, rfl, by decide, by decide, by decide, rfl, rfl,
    fun _ => ⟨rfl, fun k h => by cases h⟩, rfl, rfl, .inr ⟨rfl, rfl, by decide⟩, rfl⟩

/-! ### Holding, faults and whole-machine rules -/

theorem witness_HoldingChangesNothing :
    (Inv waiting ∧ waiting.busy = true ∧ waiting.run ≠ .start ∧ waiting.run ≠ .streamNext ∧ waiting.inq = [] ∧
      waiting.inEnd = false ∧ waiting.inErr = false) ∧
    (Inv parsing ∧ parsing.busy = true ∧ parsing.inq = []) ∧ Inv parsingCount ∧ parsingCount.busy = true :=
  ⟨⟨inv_waiting, rfl, by decide, by decide, rfl, rfl, rfl⟩, ⟨inv_parsing, rfl, rfl⟩, inv_parsingCount, rfl⟩

theorem witness_HeldCommandsResumeWhereTheyStopped : built.inEnd = false ∧ built.inErr = false ∧
    (∃ u, exec .decSymbol built = .next u ∧ (u.busy && u.run != .streamNext) = true) ∧
    (∃ u, exec .decStream built = .next u ∧ (u.busy && u.run != .streamNext) = true) ∧
    ∃ u, exec .hdrParse { built with inq := [0x03] } = .next u ∧ (u.busy && u.run != .streamNext) = true :=
  ⟨rfl, rfl, answers_next (p := fun u => u.busy && u.run != .streamNext) (by decide),
    answers_next (p := fun u => u.busy && u.run != .streamNext) (by decide),
    answers_next (p := fun u => u.busy && u.run != .streamNext) (by decide)⟩

/-- A DEC_STREAM that pushed a symbol and then holds inside a code. -/
theorem witness_HeldCommandsResumeWhereTheyStopped_later : ∃ s : State, s.inEnd = false ∧ s.inErr = false ∧
    s.run ≠ .start ∧ ∃ u, blockTurn s = .next u ∧ (u.busy && u.run != .streamNext) = true :=
  ⟨{ built with busy := true, rdByte := 0, rdCnt := 1, result0 := 1, outq := [0x41], run := .streamNext }, rfl, rfl,
    by decide, answers_next (p := fun u => u.busy && u.run != .streamNext) (by decide)⟩

theorem witness_FaultsAreTheCommandsOwn_later : Inv streamWaiting ∧ streamWaiting.busy = true ∧
    streamWaiting.run.command = some .decStream ∧ ∃ t, blockTurn streamWaiting = .next t ∧ t.fault = true :=
  ⟨inv_streamWaiting, rfl, rfl, answers_next (p := fun t => t.fault) (by decide)⟩

theorem witness_FaultsAreTheCommandsOwn : (Instr.encByte 0x43).wellFormed = true ∧ coded.fault = false ∧
    ∃ t, exec (.encByte 0x43) coded = .next t ∧ t.fault = true :=
  ⟨rfl, rfl, answers_next (p := fun t => t.fault) (by decide)⟩

theorem witness_FaultIsStickyUntilReset : ∃ s t : State, Inv s ∧ s.fault = true ∧ step s = .next t ∧
    s.agenda.head? ≠ some (.host .resetInput) ∧ ¬ (s.busy = true ∧ s.curCmd = 0x02000000) :=
  ⟨faulted, faulted, inv_faulted, rfl, rfl, by decide, by decide⟩

theorem witness_OnlyTheNamedCommandsWrite : ∃ t, exec .encFlush nearlyFull = .next t ∧ (t.outq == [0xE2]) = true :=
  answers_next (p := fun t => t.outq == [0xE2]) (by decide)

theorem witness_StreamPrimitives : ({ State.reset with inq := 0xE2 :: [0x00] }).inq = 0xE2 :: [0x00] ∧
    (State.reset.inq = [] ∧ State.reset.inErr = false ∧ State.reset.inEnd = false) ∧
    (({ State.reset with inEnd := true }).inErr = false ∧ ({ State.reset with inEnd := true }).inEnd = true) ∧
    ({ State.reset with inErr := true }).inErr = true ∧ ({ State.reset with outErr := true }).outErr = true ∧
    State.reset.outErr = false := by decide

theorem witness_StepKeepsTheInvariant : Inv waiting ∧
    ∃ t, step { waiting with agenda := [.host (.appendIn [0x80])] } = .next t ∧ (t.inq == [0x80]) = true :=
  ⟨inv_waiting, answers_next (p := fun t => t.inq == [0x80]) (by decide)⟩

theorem witness_StepNeverFaults : Inv streaming ∧ Inv parsing ∧ Inv faulted := ⟨inv_streaming, inv_parsing, inv_faulted⟩

/-- A clean block, given what its streams hold. -/
theorem cleanLaunch_reset (p : Params) (input : List Byte) :
    CleanLaunch p input { State.resetWith p with inq := input, inEnd := true } :=
  ⟨rfl, rfl, rfl, rfl, rfl, rfl, rfl, rfl⟩

/-- A compression run of one byte in compatibility mode, and of the byte 254 in wide mode. -/
theorem compress_succeeds (p : Params) (bytes : List Byte)
    (h : answers (issueAll (compressRun bytes) { State.resetWith p with inq := [], inEnd := true })
      (fun t => !t.fault && !t.ovr) = true) :
    CleanLaunch p [] { State.resetWith p with inq := [], inEnd := true } ∧
    ∃ t, issueAll (compressRun bytes) { State.resetWith p with inq := [], inEnd := true } = .next t ∧
      Succeeded t ∧ CleanLaunch p t.outq { State.resetWith p with inq := t.outq, inEnd := true } := by
  obtain ⟨t, h1, h2⟩ := answers_next h
  exact ⟨cleanLaunch_reset _ _, t, h1, by simpa [Succeeded] using h2, cleanLaunch_reset _ _⟩

theorem witness_ExpandInvertsCompress : (254 : Byte) ∉ [(0x41 : Byte)] ∧
    CleanLaunch Params.standard [] { State.resetWith Params.standard with inq := [], inEnd := true } ∧
    ∃ t, issueAll (compressRun [0x41]) { State.resetWith Params.standard with inq := [], inEnd := true } = .next t ∧
      Succeeded t ∧
      CleanLaunch Params.standard t.outq { State.resetWith Params.standard with inq := t.outq, inEnd := true } :=
  ⟨by decide, compress_succeeds _ _ (by decide)⟩

theorem witness_ExpandInvertsCompress_wide : (⟨.wide, 3⟩ : Params).eofMode = .wide ∧
    CleanLaunch ⟨.wide, 3⟩ [] { State.resetWith ⟨.wide, 3⟩ with inq := [], inEnd := true } ∧
    ∃ t, issueAll (compressRun [254]) { State.resetWith ⟨.wide, 3⟩ with inq := [], inEnd := true } = .next t ∧
      Succeeded t ∧ CleanLaunch ⟨.wide, 3⟩ t.outq { State.resetWith ⟨.wide, 3⟩ with inq := t.outq, inEnd := true } :=
  ⟨rfl, compress_succeeds _ _ (by decide +kernel)⟩

theorem witness_HostStreamActions : State.reset.inEnd = false ∧ streaming.inEnd = true ∧ State.reset.busy = false ∧
    streaming.busy = true ∧ State.reset.outErr = false ∧ [(0x41 : Byte), 0x42].length ≤ 1 + 1 := by decide

end Sys2Proof.Tests
end

section
/-! Everything a piece of a command can do to the streams, in any state: bytes and bits written (R79, R82, R88), bits
taken and the walk down a tree (R83, R251). -/

namespace Sys2Proof.Machine

/-! ## Writing -/

/-- `t` is `s` after bytes or bits were written: only OUT and the packer changed, and OUT only grew (R79, R82). -/
def Written (s t : State) : Prop :=
  ∃ out rack cnt err after, t = { s with
    outq := s.outq ++ out, wrRack := rack, wrCnt := cnt, outErr := err, outErrAfter := after }

theorem Written.refl (s : State) : Written s s :=
  ⟨[], s.wrRack, s.wrCnt, s.outErr, s.outErrAfter, by rw [List.append_nil]⟩

theorem Written.trans {s t u : State} (h1 : Written s t) (h2 : Written t u) : Written s u := by
  obtain ⟨o1, r1, c1, e1, a1, rfl⟩ := h1
  obtain ⟨o2, r2, c2, e2, a2, rfl⟩ := h2
  exact ⟨o1 ++ o2, r2, c2, e2, a2, by simp⟩

/-- Appending a byte to OUT, with any rack before and after. -/
theorem written_emit (b rack rack' : Byte) (cnt cnt' : BitVec 3) (s : State) :
    Written s { emit b { s with wrRack := rack, wrCnt := cnt } with wrRack := rack', wrCnt := cnt' } :=
  ⟨[b], rack', cnt', _, _, rfl⟩

/-- What a piece of a command that writes can do: it goes on with only OUT and the packer changed and a padded rack
still padded, or IO_FAILURE is raised after such writes (R79, R230). -/
def WritesOrFails (ph : Phase) (s : State) : Flow Unit → Prop
  | .ok _ t => Written s t ∧ (RackPadded s → RackPadded t)
  | .stop t => ∃ u, Written s u ∧ t = raise .ioFailure ph u

theorem WritesOrFails.cases {ph : Phase} {s : State} {r : Flow Unit} (h : WritesOrFails ph s r) :
    (∃ t, r = .ok () t ∧ Written s t ∧ (RackPadded s → RackPadded t)) ∨
    (∃ t, r = .stop (raise .ioFailure ph t) ∧ Written s t) := by
  cases r with
  | ok _ t => exact .inl ⟨t, rfl, h⟩
  | stop t =>
    obtain ⟨u, hu, rfl⟩ := h
    exact .inr ⟨u, rfl, hu⟩

/-- A further piece, after one that went on. -/
theorem WritesOrFails.after {ph : Phase} {s t : State} {r : Flow Unit} (h1 : WritesOrFails ph s (.ok () t))
    (h2 : WritesOrFails ph t r) : WritesOrFails ph s r := by
  obtain ⟨hw, hp⟩ := h1
  cases r with
  | ok _ u => exact ⟨hw.trans h2.1, h2.2 ∘ hp⟩
  | stop u =>
    obtain ⟨v, hv, rfl⟩ := h2
    exact ⟨v, hw.trans hv, rfl⟩

theorem pushOut_writes (ph : Phase) (b : Byte) (s : State) : WritesOrFails ph s (pushOut ph b s) := by
  cases h : s.outErr with
  | true => rw [pushOut_failed h]; exact ⟨s, .refl s, rfl⟩
  | false => rw [pushOut_ok h]; exact ⟨written_emit b _ _ _ _ s, id⟩

theorem pushAll_writes (ph : Phase) (bs : List Byte) (s : State) : WritesOrFails ph s (pushAll ph bs s) := by
  induction bs generalizing s with
  | nil => exact ⟨.refl s, id⟩
  | cons b bs ih =>
    have h := pushOut_writes ph b s
    rw [pushAll]
    cases hr : pushOut ph b s with
    | ok _ t => rw [hr] at h; exact h.after (ih t)
    | stop t => rw [hr] at h; exact h

/-- Packing a bit into a rack with room for another keeps it padded (R40, R82). -/
theorem RackPadded.packed {s : State} (x : Bool) (h7 : s.wrCnt ≠ 7) (h : RackPadded s) : RackPadded (packed x s) := by
  have hc := s.wrCnt.isLt
  have hne : s.wrCnt.toNat ≠ 7 := fun e => h7 (BitVec.eq_of_toNat_eq e)
  have hadd : (s.wrCnt + 1).toNat = s.wrCnt.toNat + 1 := by simp [BitVec.toNat_add]; omega
  intro k hk
  simp only [Machine.packed, hadd] at hk
  have hk7 : k ≠ 7 - s.wrCnt.toNat := by omega
  simp [Machine.packed, packBit_getLsbD, hk7, h k (by omega)]

theorem putBit_writes (ph : Phase) (x : Bool) (s : State) : WritesOrFails ph s (putBit ph x s) := by
  rw [putBit]
  split
  · cases h : (packed x s).outErr with
    | true =>
      rw [pushOut_failed h]
      exact ⟨packed x s, ⟨[], _, _, _, _, by rw [List.append_nil]; rfl⟩, rfl⟩
    | false =>
      rw [pushOut_ok h]
      exact ⟨written_emit _ _ _ _ _ s, fun _ k _ => by simp⟩
  · next h7 => exact ⟨⟨[], _, _, _, _, by rw [List.append_nil]; rfl⟩, .packed x h7⟩

theorem putBits_writes (ph : Phase) (pat : Word) (n : Nat) (s : State) : WritesOrFails ph s (putBits ph pat n s) := by
  induction n generalizing s with
  | zero => exact ⟨.refl s, id⟩
  | succ n ih =>
    have h := putBit_writes ph (pat.getLsbD n) s
    rw [putBits]
    cases hr : putBit ph (pat.getLsbD n) s with
    | ok _ t => rw [hr] at h; exact h.after (ih t)
    | stop t => rw [hr] at h; exact h

/-! ## Taking bits -/

/-- `t` is `s` after bits were taken: only the unpacker and IN changed, IN lost a beginning, and RD_CNT stays in its
range (R41, R83). -/
def Unpacked (s t : State) : Prop :=
  ∃ byte cnt rest, t = { s with rdByte := byte, rdCnt := cnt, inq := rest } ∧ rest <:+ s.inq ∧
    (s.rdCnt.toNat ≤ 8 → cnt.toNat ≤ 8)

theorem Unpacked.refl (s : State) : Unpacked s s := ⟨s.rdByte, s.rdCnt, s.inq, rfl, List.suffix_refl _, id⟩

theorem Unpacked.trans {s t u : State} (h1 : Unpacked s t) (h2 : Unpacked t u) : Unpacked s u := by
  obtain ⟨b1, c1, q1, rfl, hq1, hc1⟩ := h1
  obtain ⟨b2, c2, q2, rfl, hq2, hc2⟩ := h2
  exact ⟨b2, c2, q2, rfl, hq2.trans hq1, hc2 ∘ hc1⟩

/-- One count less stays in range when there is a bit to take. -/
theorem rdCnt_pred_le {c : BitVec 4} (h0 : c ≠ 0) (h8 : c.toNat ≤ 8) : (c - 1).toNat ≤ 8 := by
  have : c.toNat ≠ 0 := fun e => h0 (BitVec.eq_of_toNat_eq e)
  rw [BitVec.toNat_sub]
  simp
  omega

/-- GetBit takes a bit, or it stops for want of a byte with every bit used (R83). -/
theorem getBit_cases (ph : Phase) (p : Progress) (s : State) :
    (∃ x t, getBit ph p s = .ok x t ∧ Unpacked s t) ∨
    (s.rdCnt = 0 ∧ getBit ph p s = .stop (starve ph p s)) := by
  by_cases h0 : s.rdCnt = 0
  · cases hq : s.inq with
    | nil => exact .inr ⟨h0, by simp [getBit, h0, popIn_nil hq]⟩
    | cons b rest =>
      have hg : getBit ph p s = .ok (b.getLsbD 7) { s with rdByte := b, rdCnt := 7, inq := rest } := by
        simp [getBit, h0, popIn_cons hq, takeBit]
      exact .inl ⟨_, _, hg, b, 7, rest, rfl, hq ▸ List.suffix_cons b rest, fun _ => by decide⟩
  · exact .inl ⟨_, _, by rw [getBit, if_neg h0, takeBit], _, _, _, rfl, List.suffix_refl _, rdCnt_pred_le h0⟩

/-- The node reached by some branches from a node that branches lead to. -/
theorem nodeAt_append {root node : Tree} (bits more : List Bool) (h : nodeAt root bits = some node) :
    nodeAt root (bits ++ more) = nodeAt node more := by
  induction bits generalizing root with
  | nil =>
    obtain rfl : root = node := by simpa [nodeAt] using h
    rfl
  | cons b bits ih =>
    cases root with
    | leaf a w => simp [nodeAt] at h
    | internal w c0 c1 => cases b <;> exact ih h

/-- `node` is an internal node in `root`, or `root` itself (R251). -/
def Waitable (root node : Tree) : Prop := isLeaf node = false ∧ ∃ bits, nodeAt root bits = some node

theorem Waitable.child {w : Word} {c0 c1 node : Tree} (b : Bool) (h : Waitable (if b then c1 else c0) node) :
    Waitable (.internal w c0 c1) node := by
  obtain ⟨hl, bits, hn⟩ := h
  exact ⟨hl, b :: bits, by cases b <;> exact hn⟩

/-- What DecodeOne from `root` can do: it reaches a leaf, or it stops for want of a byte at an internal node, with every
bit used (R251, R252). -/
def WalkEnds (mk : Tree → Progress) (root : Tree) (s : State) : Flow Sym → Prop
  | .ok _ t => Unpacked s t
  | .stop t => ∃ node u, Unpacked s u ∧ u.rdCnt = 0 ∧ Waitable root node ∧ t = starve .bitDecode (mk node) u

/-- A walk that goes on from a child, after the bit that chose it. -/
theorem WalkEnds.after {mk : Tree → Progress} {w : Word} {c0 c1 : Tree} {s t : State} {r : Flow Sym} (b : Bool)
    (h1 : Unpacked s t) (h2 : WalkEnds mk (if b then c1 else c0) t r) : WalkEnds mk (.internal w c0 c1) s r := by
  cases r with
  | ok _ u => exact h1.trans h2
  | stop u =>
    obtain ⟨node, v, hv, h0, hn, rfl⟩ := h2
    exact ⟨node, v, h1.trans hv, h0, hn.child b, rfl⟩

theorem WalkEnds.cases {mk : Tree → Progress} {root : Tree} {s : State} {r : Flow Sym} (h : WalkEnds mk root s r) :
    (∃ sym t, r = .ok sym t ∧ Unpacked s t) ∨
    (∃ node t, r = .stop (starve .bitDecode (mk node) t) ∧ Unpacked s t ∧ t.rdCnt = 0 ∧
      Waitable root node) := by
  cases r with
  | ok sym t => exact .inl ⟨sym, t, rfl, h⟩
  | stop t =>
    obtain ⟨node, u, hu, h0, hn, rfl⟩ := h
    exact .inr ⟨node, u, rfl, hu, h0, hn⟩

theorem walk_ends (mk : Tree → Progress) (root : Tree) (s : State) : WalkEnds mk root s (walk mk root s) := by
  induction root generalizing s with
  | leaf sym w => exact .refl s
  | internal w c0 c1 ih0 ih1 =>
    rw [walk]
    rcases getBit_cases .bitDecode (mk (.internal w c0 c1)) s with ⟨x, t, hg, ht⟩ | ⟨h0, hg⟩
    · cases x <;> simp only [hg]
      · exact .after false ht (ih0 t)
      · exact .after true ht (ih1 t)
    · simp only [hg]
      exact ⟨.internal w c0 c1, s, .refl s, h0, ⟨rfl, [], rfl⟩, rfl⟩

end Sys2Proof.Machine
end

section
/-! Every command keeps the invariant. `Inv (complete s)` says of `s` all that the invariant says but for the running
command, so the pieces of a command keep `Inv (complete s)` and the three ways a command can leave the block
(`complete`, `raise`, `hold`) turn it into `Inv`. -/

namespace Sys2Proof.Machine

/-! ## The three ends of a command -/

theorem Inv.raise_of_complete {s : State} (h : Inv (complete s)) (k : FaultKind) (ph : Phase) :
    Inv (Machine.raise k ph s) :=
  Inv.raise k ph h.counts h.leavesLength h.leavesOk h.codeOk h.codeLast h.unread

theorem Inv.hold_of_complete {s : State} (h : Inv (complete s)) (p : Progress) (hp : ProgressOk (hold p s))
    (hc : ∀ i, p.command = some i → decode s.curCmd = .ok i) : Inv (hold p s) :=
  { h with progress := fun _ => hp, command := fun _ => hc }

/-- PopIn that finds nothing: a fault is in order always, a hold when the position agrees with the state (R78). -/
theorem Inv.starve_of_complete {s : State} (h : Inv (complete s)) (ph : Phase) (p : Progress)
    (hp : ProgressOk (hold p s)) (hc : ∀ i, p.command = some i → decode s.curCmd = .ok i) : Inv (starve ph p s) := by
  rcases starve_cases ph p s with ⟨_, e⟩ | ⟨_, _, e⟩ | ⟨_, _, e⟩ <;> rw [e]
  · exact h.raise_of_complete _ _
  · exact h.raise_of_complete _ _
  · exact h.hold_of_complete p hp hc

/-! ## Pieces of a command -/

theorem Inv.completed_written {s t : State} (h : Inv (complete s)) (hw : Written s t)
    (hp : RackPadded s → RackPadded t) : Inv (complete t) := by
  obtain ⟨out, rack, cnt, err, after, rfl⟩ := hw
  exact { h with rack := fun hf => hp (h.rack hf), progress := nofun, command := nofun }

/-- A failed write ends in a fault, which asks nothing of the rack (R230). -/
theorem Inv.raise_of_written {s t : State} (h : Inv (complete s)) (hw : Written s t) (k : FaultKind) (ph : Phase) :
    Inv (Machine.raise k ph t) := by
  obtain ⟨out, rack, cnt, err, after, rfl⟩ := hw
  exact Inv.raise k ph h.counts h.leavesLength h.leavesOk h.codeOk h.codeLast h.unread

theorem Inv.completed_unpacked {s t : State} (h : Inv (complete s)) (hu : Unpacked s t) : Inv (complete t) := by
  obtain ⟨byte, cnt, rest, rfl, _, h8⟩ := hu
  exact { h with unread := h8 h.unread, progress := nofun, command := nofun }

theorem Inv.completed_results {s : State} (h : Inv (complete s)) (r0 r1 : Word) : Inv (complete (setResults r0 r1 s)) :=
  { h with progress := nofun, command := nofun }

/-! ## FREQ, TREE and CODE -/

theorem scaleCount_le {c : Word} (h : c.toNat ≤ 256) : (scaleCount c).toNat ≤ 128 := by
  unfold scaleCount
  split
  · decide
  · rw [BitVec.toNat_udiv, show (2 : Word).toNat = 2 from rfl]
    bv_omega

/-- Counting a byte keeps every count in 0..255 (R34, R153). -/
theorem freqAt_countByte_le {freq : Vector Word 256} (h : ∀ c, (freqAt freq c).toNat ≤ 255) (b c : Byte) :
    (freqAt (countByte freq b) c).toNat ≤ 255 := by
  have hb := h b
  have hc := h c
  rw [freqAt_countByte]
  split
  · refine (scaleCount_le ?_).trans (by decide)
    split
    · decide
    · omega
  · next hn =>
    split
    · have hne : (freqAt freq b + 1).toNat ≠ 256 := fun e => hn (BitVec.eq_of_toNat_eq e)
      bv_omega
    · exact hc

/-- The weights of FreqLeaves are in 1..255 when the counts are at most 255 (R35, R212). -/
theorem freqLeaves_ok {freq : Vector Word 256} (h : ∀ c, (freqAt freq c).toNat ≤ 255) :
    ∀ l ∈ freqLeaves freq, l.Ok := by
  intro l hl
  obtain ⟨hw, h0⟩ := (mem_freqLeaves freq l).mp hl
  refine ⟨Nat.one_le_iff_ne_zero.mpr fun e => h0 (BitVec.eq_of_toNat_eq e), ?_⟩
  rw [hw]
  exact h l.sym

/-- TREE_BUILD from a leaf list that is complete and in range. Whatever tree there was is replaced. -/
theorem Inv.buildFrom {s : State} (h : Inv (complete { s with tree := none })) (hf : s.fault = false)
    (hl : s.leavesValid = true) : Inv (complete (Machine.buildFrom s)) :=
  { h with
    treeBuilt := fun t ht => ⟨hl, (Option.some.inj ht).symm⟩
    codeOk := fun sym => by simpa [Machine.buildFrom] using CodeEntry.cleared_ok
    codeLast := fun _ => by simp [Machine.buildFrom]
    codeEof := nofun
    faulted := fun hft => nomatch hf.symm.trans hft
    progress := nofun
    command := nofun }

/-- The symbols on the paths of a built tree are those of LEAVES and the end-of-stream symbol (R172). -/
theorem mem_treePaths_buildTree (eof sym : Sym) (leaves : List LeafEntry) :
    (∃ p ∈ treePaths (buildTree eof leaves), p.1 = sym) ↔ sym = eof ∨ ∃ l ∈ leaves, byteSym l.sym = sym := by
  have hp := (buildTree_spec eof leaves).1.map Prod.fst
  rw [← treePaths_syms] at hp
  have := hp.mem_iff (a := sym)
  simp only [List.mem_map, List.map_append, List.map_map, List.mem_append] at this
  rw [this]
  simp [or_comm, eq_comm]

/-- The entry of a symbol whose last leaf has the path `p.2` (R192, R196). -/
theorem codeAt_deriveTable_of_find {t : Tree} (hs : ∀ p ∈ treePaths t, p.1.toNat < 257) {sym : Sym}
    {p : Sym × List Bool} (h : (treePaths t).reverse.find? (fun p => p.1 == sym) = some p) :
    codeAt (deriveTable t) sym = pathEntry p.2 := by
  rw [codeAt_deriveTable t sym hs, h]

/-- The entry of a symbol that no leaf has (R190). -/
theorem codeAt_deriveTable_of_find_none {t : Tree} (hs : ∀ p ∈ treePaths t, p.1.toNat < 257) {sym : Sym}
    (h : (treePaths t).reverse.find? (fun p => p.1 == sym) = none) :
    codeAt (deriveTable t) sym = CodeEntry.cleared := by
  rw [codeAt_deriveTable t sym hs, h]

/-- Every entry CODE_DERIVE writes from a tree no deeper than 32 is in range (R38, R194). -/
theorem codeAt_deriveTable_ok {t : Tree} (hd : treeDepth t ≤ 32) (hs : ∀ p ∈ treePaths t, p.1.toNat < 257)
    (sym : Sym) : (codeAt (deriveTable t) sym).Ok := by
  cases hp : (treePaths t).reverse.find? (fun p => p.1 == sym) with
  | some p =>
    rw [codeAt_deriveTable_of_find hs hp]
    have hm := List.mem_reverse.mp (List.mem_of_find?_eq_some hp)
    have hlen := (treePaths_depth t p hm).trans hd
    obtain ⟨_, hl, _, hpat⟩ := pathEntry_records p.2 hlen
    exact ⟨nofun, hl.trans_le hlen, by rw [hl]; exact hpat⟩
  | none =>
    rw [codeAt_deriveTable_of_find_none hs hp]
    exact CodeEntry.cleared_ok

/-- An entry CODE_DERIVE writes is valid exactly when a leaf has its symbol (R190, R192). -/
theorem codeAt_deriveTable_valid {t : Tree} (hs : ∀ p ∈ treePaths t, p.1.toNat < 257) (sym : Sym) :
    (codeAt (deriveTable t) sym).valid = true ↔ ∃ p ∈ treePaths t, p.1 = sym := by
  cases hp : (treePaths t).reverse.find? (fun p => p.1 == sym) with
  | some p =>
    rw [codeAt_deriveTable_of_find hs hp]
    exact iff_of_true rfl ⟨p, List.mem_reverse.mp (List.mem_of_find?_eq_some hp), by simpa using List.find?_some hp⟩
  | none =>
    rw [codeAt_deriveTable_of_find_none hs hp]
    refine iff_of_false (by decide) fun ⟨p, hm, he⟩ => ?_
    exact List.find?_eq_none.mp hp p (List.mem_reverse.mpr hm) (by simpa using he)

theorem byteSym_toNat (b : Byte) : (byteSym b).toNat = b.toNat := by
  have := b.isLt
  simp [byteSym]
  omega

theorem eofSym_toNat_lt (p : Params) : p.eofSym.toNat < 257 := by
  unfold Params.eofSym
  split <;> decide

/-- The symbols of a built tree are in the table (R14, R38). -/
theorem treePaths_buildTree_lt (p : Params) (leaves : List LeafEntry) :
    ∀ q ∈ treePaths (buildTree p.eofSym leaves), q.1.toNat < 257 := by
  intro q hq
  rcases (mem_treePaths_buildTree p.eofSym q.1 leaves).mp ⟨q, hq, rfl⟩ with he | ⟨l, _, he⟩
  · rw [he]; exact eofSym_toNat_lt p
  · rw [← he, byteSym_toNat]; omega

/-- In compatibility mode no leaf of a built tree has symbol 256 (R38). -/
theorem treePaths_buildTree_ne_256 {p : Params} (hm : p.eofMode = .compat) (leaves : List LeafEntry) :
    ¬ ∃ q ∈ treePaths (buildTree p.eofSym leaves), q.1 = 256 := by
  rw [mem_treePaths_buildTree]
  rintro (he | ⟨l, _, he⟩)
  · rw [Params.eofSym, hm] at he
    exact absurd he (by decide)
  · have := congrArg BitVec.toNat he
    rw [byteSym_toNat] at this
    simp at this
    omega

/-- CODE_DERIVE from a built tree no deeper than 32 (R190, R196). -/
theorem Inv.derived {s : State} {t : Tree} (h : Inv (complete s)) (hf : s.fault = false) (ht : s.tree = some t)
    (hd : treeDepth t ≤ 32) : Inv (complete { s with code := deriveTable t, codesValid := true }) := by
  obtain ⟨hl, rfl⟩ := h.treeBuilt t ht
  have hs := treePaths_buildTree_lt s.params s.leaves
  have hok := codeAt_deriveTable_ok hd hs
  refine { h with
    codeOk := hok
    codeLast := fun hm => (hok 256).1 ?_
    codeEof := fun _ => ?_
    faulted := fun hft => nomatch hf.symm.trans hft
    progress := nofun
    command := nofun }
  · exact Bool.eq_false_iff.mpr fun hv =>
      treePaths_buildTree_ne_256 hm s.leaves ((codeAt_deriveTable_valid hs 256).mp hv)
  · exact (codeAt_deriveTable_valid hs _).mpr ((mem_treePaths_buildTree _ _ _).mpr (.inl rfl))

/-! ## HDR_PARSE -/

theorem parsedLeaf_ok (sym : Byte) {c : Byte} (hc : c ≠ 0) : (parsedLeaf sym c).Ok := by
  have h0 : c.toNat ≠ 0 := fun e => hc (BitVec.eq_of_toNat_eq e)
  have h1 := c.isLt
  constructor <;> simp only [parsedLeaf, BitVec.toNat_setWidth] <;> omega

/-- LEAVES may take any list in range while there is no tree (R35). -/
theorem Inv.completed_leaves {s : State} (h : Inv (complete s)) (ht : s.tree = none) (ls : List LeafEntry)
    (q : List Byte) (hl : ls.length ≤ 256) (hok : ∀ l ∈ ls, l.Ok) : Inv (complete { s with inq := q, leaves := ls }) :=
  { h with
    leavesLength := hl
    leavesOk := hok
    treeBuilt := fun _ e => nomatch ht.symm.trans e
    progress := nofun
    command := nofun }

/-- HDR_PARSE's loop over the bytes at hand, from a list in range, ends in a state of the invariant (R211). -/
theorem Inv.scanned {s : State} (h : Inv (complete s)) (hp : Parsing s) (hc : decode s.curCmd = .ok .hdrParse)
    (bytes : List Byte) (leaves : List LeafEntry) (n : Nat) (hl : leaves.length ≤ 256) (hok : ∀ l ∈ leaves, l.Ok)
    (hn : n = 2 * leaves.length) : Inv (settleScan (scanHeader bytes leaves n) s) := by
  have hk := scanHeader_keeps bytes leaves n hl hok hn
  obtain ⟨hf, he, h0, ht, hv⟩ := hp
  cases hr : scanHeader bytes leaves n <;> simp only [hr] at hk
  case sentinel ls m rest =>
    obtain ⟨hls, hlo, _⟩ := hk
    exact { h.completed_leaves ht ls rest hls hlo with
      treeBuilt := fun _ e => nomatch ht.symm.trans e
      faulted := fun hft => nomatch hf.symm.trans hft
      progress := nofun
      command := nofun }
  case overflow ls rest =>
    obtain ⟨hls, hlo, _⟩ := hk
    exact (h.completed_leaves ht ls rest hls hlo).raise_of_complete _ _
  case wantCount ls m =>
    obtain ⟨hls, hlo, hm⟩ := hk
    exact (h.completed_leaves ht ls [] hls hlo).starve_of_complete _ _ ⟨⟨hf, he, h0, ht, hv⟩, hm⟩
      fun i hi => (Option.some.inj hi) ▸ hc
  case wantSym ls c m =>
    obtain ⟨hc0, hls, hlo, hm⟩ := hk
    exact (h.completed_leaves ht ls [] (by omega) hlo).starve_of_complete _ _ ⟨⟨hf, he, h0, ht, hv⟩, hc0, hls, hm⟩
      fun i hi => (Option.some.inj hi) ▸ hc

end Sys2Proof.Machine
end

section
/-! O57: every command, every later turn of a command and every step keep the invariant. -/

namespace Sys2Proof.Machine

/-! ## Commands that write bits or bytes -/

/-- A piece that writes and then ends the command (R79, R230). -/
theorem Inv.finished {s t : State} (h : Inv (complete s)) {ph : Phase} {r : Flow Unit} (hr : WritesOrFails ph s r)
    (ht : finish r = .next t) : Inv t := by
  rcases hr.cases with ⟨u, rfl, hw, hp⟩ | ⟨u, rfl, hw⟩ <;> cases ht
  · exact h.completed_written hw hp
  · exact h.raise_of_written hw _ _

theorem execHdrEmit_inv {s t : State} (h : Inv (complete s)) (ht : execHdrEmit s = .next t) : Inv t := by
  rw [execHdrEmit] at ht
  split at ht
  · rcases (pushAll_writes .headerWrite (headerBytes (headerPairs s.freq)) s).cases with
      ⟨u, hr, hw, hp⟩ | ⟨u, hr, hw⟩ <;> rw [hr] at ht <;> cases ht
    · exact (h.completed_written hw hp).completed_results _ _
    · exact h.raise_of_written hw _ _
  · cases ht
    exact h.raise_of_complete _ _

theorem encodeSym_inv {s t : State} (h : Inv (complete s)) (sym : Sym) (ht : encodeSym sym s = .next t) : Inv t := by
  rw [encodeSym] at ht
  split at ht
  · split at ht
    · exact h.finished (putBits_writes _ _ _ s) ht
    · cases ht; exact h.raise_of_complete _ _
  · cases ht; exact h.raise_of_complete _ _

theorem execEncFlush_inv {s t : State} (h : Inv (complete s)) (ht : execEncFlush s = .next t) : Inv t := by
  rw [execEncFlush] at ht
  split at ht
  · cases ht; exact h
  · rcases (pushOut_writes .flush s.wrRack s).cases with ⟨u, hr, hw, _⟩ | ⟨u, hr, hw⟩ <;> rw [hr] at ht <;> cases ht
    · exact h.completed_written (hw.trans ⟨[], 0, 0, _, _, by rw [List.append_nil]⟩) fun _ k _ => by simp
    · exact h.raise_of_written hw _ _

/-! ## Decoding -/

/-- A node below a node where a decoder may wait. -/
theorem Waitable.below {root node below : Tree} (h1 : ∃ bits, nodeAt root bits = some node)
    (h2 : Waitable node below) : Waitable root below := by
  obtain ⟨bits, hb⟩ := h1
  obtain ⟨hl, more, hm⟩ := h2
  exact ⟨hl, bits ++ more, by rw [nodeAt_append bits more hb, hm]⟩

/-- The state in which a decoder walks from `node`: no fault, no end of stream, and a node of the tree. -/
structure Decoding (node : Tree) (s : State) : Prop where
  noFault : s.fault = false
  noEos : s.eos = false
  inTree : ∃ root, s.tree = some root ∧ ∃ bits, nodeAt root bits = some node

/-- From the root (R251). -/
theorem Decoding.atRoot {root : Tree} {s : State} (hf : s.fault = false) (he : s.eos = false)
    (ht : s.tree = some root) : Decoding root s := ⟨hf, he, root, ht, [], by simp [nodeAt]⟩

theorem WaitsAt.decoding {node : Tree} {s : State} (h : WaitsAt node s) : Decoding node s := by
  obtain ⟨hf, he, _, _, root, bits, ht, hn⟩ := h
  exact ⟨hf, he, root, ht, bits, hn⟩

/-- Where a walk stops for want of a byte, the decoder waits as the invariant asks (R83, R251). -/
theorem Decoding.waitsAt {node below : Tree} {s t : State} (h : Decoding node s) (hu : Unpacked s t) (h0 : t.rdCnt = 0)
    (hw : Waitable node below) : WaitsAt below t := by
  obtain ⟨hf, he, root, ht, hn⟩ := h
  obtain ⟨hl, bits, hb⟩ := hw.below hn
  obtain ⟨byte, cnt, rest, rfl, _, _⟩ := hu
  exact ⟨hf, he, h0, hl, root, bits, ht, hb⟩

theorem Unpacked.curCmd_eq {s t : State} (h : Unpacked s t) : t.curCmd = s.curCmd := by
  obtain ⟨_, _, _, rfl, _, _⟩ := h
  rfl

theorem symbolDone_inv {s t : State} {node : Tree} (h : Inv (complete s)) (hd : Decoding node s)
    (hc : decode s.curCmd = .ok .decSymbol) (ht : symbolDone (walk .decSymbol node s) = .next t) : Inv t := by
  rcases (walk_ends .decSymbol node s).cases with ⟨sym, u, hr, hu⟩ | ⟨below, u, hr, hu, h0, hb⟩ <;>
    rw [hr, symbolDone] at ht
  · replace h := h.completed_unpacked hu
    split at ht
    · cases ht
      exact { h with progress := nofun, command := nofun }
    · exact (h.completed_results (sym.zeroExtend 32) u.result1).finished (pushOut_writes _ _ _) ht
  · cases ht
    have hwait := hd.waitsAt hu h0 hb
    refine (h.completed_unpacked hu).starve_of_complete _ _ hwait fun i hi => ?_
    rw [hu.curCmd_eq, hc, ← Option.some.inj hi]

/-- Counting an output byte changes RESULT0 and the model's count of free values only (R257). -/
theorem countOutput_frame (s : State) :
    countOutput s = { s with result0 := (countOutput s).result0, draws := (countOutput s).draws } := by
  unfold countOutput
  split <;> rfl

theorem Inv.completed_counted {s : State} (h : Inv (complete s)) : Inv (complete (countOutput s)) := by
  rw [countOutput_frame]
  exact { h with progress := nofun, command := nofun }

/-- After a symbol was decoded, pushed and counted, DEC_STREAM may take its next turn (R257). -/
theorem Decoding.counted {node : Tree} {s u v : State} (h : Decoding node s) (hu : Unpacked s u) (hw : Written u v) :
    (countOutput v).fault = false ∧ (countOutput v).eos = false ∧ (countOutput v).tree.isSome = true ∧
    (countOutput v).curCmd = s.curCmd := by
  obtain ⟨hf, he, root, ht, _⟩ := h
  obtain ⟨_, _, _, rfl, _, _⟩ := hu
  obtain ⟨_, _, _, _, _, rfl⟩ := hw
  rw [countOutput_frame]
  exact ⟨hf, he, Option.isSome_of_eq_some ht, rfl⟩

theorem streamDone_inv {s t : State} {node : Tree} (h : Inv (complete s)) (hd : Decoding node s)
    (hc : decode s.curCmd = .ok .decStream) (ht : streamDone (walk .streamAt node s) = .next t) : Inv t := by
  rcases (walk_ends .streamAt node s).cases with ⟨sym, u, hr, hu⟩ | ⟨below, u, hr, hu, h0, hb⟩ <;>
    rw [hr, streamDone] at ht
  · replace h := h.completed_unpacked hu
    split at ht
    · cases ht
      exact { h with progress := nofun, command := nofun }
    · rcases (pushOut_writes .bitDecode (symByte sym) u).cases with ⟨v, hp, hw, hpad⟩ | ⟨v, hp, hw⟩ <;>
        rw [hp] at ht <;> cases ht
      · obtain ⟨hf, he, htree, hcmd⟩ := hd.counted hu hw
        refine (h.completed_written hw hpad).completed_counted.hold_of_complete _ ⟨hf, he, htree⟩ fun i hi => ?_
        rw [hcmd, hc, ← Option.some.inj hi]
      · exact h.raise_of_written hw _ _
  · cases ht
    have hwait := hd.waitsAt hu h0 hb
    refine (h.completed_unpacked hu).starve_of_complete _ _ hwait fun i hi => ?_
    rw [hu.curCmd_eq, hc, ← Option.some.inj hi]

/-! ## The commands with preconditions -/

theorem execTreeBuild_inv {s t : State} (h : Inv s) (hf : s.fault = false) (src : TreeSource)
    (ht : execTreeBuild src s = .next t) : Inv t := by
  cases src with
  | freq =>
    cases ht
    refine Inv.buildFrom (s := { s with leaves := freqLeaves s.freq, leavesValid := true }) ?_ hf rfl
    exact { h.completed with
      leavesLength := freqLeaves_length s.freq
      leavesOk := freqLeaves_ok h.counts
      treeBuilt := nofun
      faulted := fun hft => nomatch hf.symm.trans hft }
  | hdr =>
    rw [execTreeBuild] at ht
    split at ht
    · next hl =>
      cases ht
      exact Inv.buildFrom { h.completed with
        treeBuilt := nofun
        faulted := fun hft => nomatch hf.symm.trans hft } hf hl
    · cases ht; exact h.raised _ _

theorem execCodeDerive_inv {s t : State} (h : Inv s) (hf : s.fault = false) (ht : execCodeDerive s = .next t) :
    Inv t := by
  rw [execCodeDerive] at ht
  split at ht
  · cases ht; exact h.raised _ _
  · next htree =>
    split at ht
    · cases ht; exact h.raised _ _
    · next hd =>
      cases ht
      exact (h.completed.derived hf htree (Nat.le_of_not_lt hd)).completed_results _ _

theorem execCodeRead_inv {s t : State} (h : Inv s) (sym : Sym) (ht : execCodeRead sym s = .next t) : Inv t := by
  rw [execCodeRead] at ht
  split at ht <;> cases ht
  · exact h.completed.completed_results _ _
  · exact h.raised _ _

theorem execHdrParse_inv {s t : State} (h : Inv s) (hf : s.fault = false) (hc : decode s.curCmd = .ok .hdrParse)
    (ht : execHdrParse s = .next t) : Inv t := by
  cases ht
  refine Inv.scanned (s := { s with rdCnt := 0, tree := none, eos := false, leaves := [], leavesValid := false }) ?_
    ⟨hf, rfl, rfl, rfl, rfl⟩ hc _ [] 0 (by simp) (by simp) rfl
  exact { h.completed with
    leavesLength := by simp
    leavesOk := by simp
    treeBuilt := nofun
    unread := by simp
    faulted := fun hft => nomatch hf.symm.trans hft }

theorem execLeafRead_inv {s t : State} (h : Inv s) (b : Byte) (ht : execLeafRead b s = .next t) : Inv t := by
  rw [execLeafRead] at ht
  split at ht
  · split at ht <;> cases ht <;> exact h.completed.completed_results _ _
  · cases ht; exact h.raised _ _

theorem execDecSymbol_inv {s t : State} (h : Inv s) (hf : s.fault = false) (hc : decode s.curCmd = .ok .decSymbol)
    (ht : execDecSymbol s = .next t) : Inv t := by
  rw [execDecSymbol] at ht
  split at ht
  · cases ht; exact h.raised _ _
  · next hr =>
    split at ht
    · cases ht; exact h.raised _ _
    · next he => exact symbolDone_inv h.completed (.atRoot hf (by simpa using he) hr) hc ht

theorem execDecStream_inv {s t : State} (h : Inv s) (hf : s.fault = false) (hc : decode s.curCmd = .ok .decStream)
    (ht : execDecStream s = .next t) : Inv t := by
  rw [execDecStream] at ht
  split at ht
  · cases ht; exact h.raised _ _
  · next hr =>
    split at ht
    · cases ht; exact h.raised _ _
    · next he =>
      exact streamDone_inv (h.completed.completed_results 0 s.result1)
        (.atRoot (s := { s with result0 := 0 }) hf (by simpa using he) hr) hc ht

/-! ## Every command, turn and step -/

/-- A command that starts with no fault recorded (R140). -/
theorem exec_inv {i : Instr} {s t : State} (h : Inv s) (hf : s.fault = false) (hc : decode s.curCmd = .ok i)
    (ht : exec i s = .next t) : Inv t := by
  cases i with
  | nop => cases ht; exact h.completed
  | softReset => cases ht; exact (Inv.reset s).completed
  | freqClear => cases ht; exact { h.completed with counts := by simp }
  | freqAccum b => cases ht; exact { h.completed with counts := freqAt_countByte_le h.counts b }
  | freqRead b => cases ht; exact h.completed.completed_results _ _
  | treeBuild src => exact execTreeBuild_inv h hf src ht
  | treeRelease =>
    cases ht
    exact { h.completed with treeBuilt := nofun, faulted := fun hft => nomatch hf.symm.trans hft }
  | codeDerive => exact execCodeDerive_inv h hf ht
  | codeRead sym => exact execCodeRead_inv h sym ht
  | hdrEmit => exact execHdrEmit_inv h.completed ht
  | hdrParse => exact execHdrParse_inv h hf hc ht
  | leafRead b => exact execLeafRead_inv h b ht
  | encByte b => exact encodeSym_inv h.completed _ ht
  | encEof => exact encodeSym_inv h.completed _ ht
  | encFlush => exact execEncFlush_inv h.completed ht
  | decSymbol => exact execDecSymbol_inv h hf hc ht
  | decStream => exact execDecStream_inv h hf hc ht

theorem decode_softResetWord : decode softResetWord = .ok .softReset := by decide

theorem dispatch_inv {s t : State} (h : Inv s) (ht : dispatch s = .next t) : Inv t := by
  rw [dispatch] at ht
  split at ht
  · cases ht; exact h.completed
  · next hrun =>
    cases hf : s.fault with
    | true =>
      have hw : s.curCmd = softResetWord := by simpa [hf] using hrun
      rw [hw, decode_softResetWord] at ht
      cases ht
      exact (Inv.reset s).completed
    | false =>
      split at ht
      · cases ht; exact h.raised _ _
      · next i hi => exact exec_inv h hf hi ht

/-- A turn of the block goes on where the running command stands (R80). -/
theorem blockTurn_inv {s t : State} (h : Inv s) (ht : blockTurn s = .next t) : Inv t := by
  rw [blockTurn] at ht
  split at ht
  · next hb =>
    have hp := h.progress hb
    have hc := h.command hb
    have h' := h.completed
    unfold ProgressOk at hp
    cases hr : s.run <;> simp only [hr] at hp hc ht
    case start => exact dispatch_inv h ht
    case hdrCount n =>
      cases ht
      exact h'.scanned hp.1 (hc _ rfl) _ _ _ h.leavesLength h.leavesOk hp.2
    case hdrSym c n =>
      obtain ⟨hparse, hc0, hl, hn⟩ := hp
      rw [resumeHdrSym] at ht
      split at ht
      · cases ht
        exact h'.starve_of_complete _ _ ⟨hparse, hc0, hl, hn⟩ fun i hi => Option.some.inj hi ▸ hc _ rfl
      · next sym rest _ =>
        cases ht
        refine h'.scanned hparse (hc _ rfl) _ _ _ ?_ ?_ ?_
        · rw [List.length_append]; exact hl
        · exact List.forall_mem_append.mpr ⟨h.leavesOk, List.forall_mem_singleton.mpr (parsedLeaf_ok sym hc0)⟩
        · simp [hn]; omega
    case decSymbol node => exact symbolDone_inv h' hp.decoding (hc _ rfl) ht
    case streamNext =>
      obtain ⟨hf, he, htree⟩ := hp
      obtain ⟨root, hroot⟩ := Option.isSome_iff_exists.mp htree
      rw [resumeStreamNext, hroot] at ht
      exact streamDone_inv h' (.atRoot hf he hroot) (hc _ rfl) ht
    case streamAt node => exact streamDone_inv h' hp.decoding (hc _ rfl) ht
  · cases ht; exact h

theorem readRegister_inv {s : State} (h : Inv s) (offset : Nat) : Inv (readRegister offset s) := by
  have hret : ∀ w, Inv (returnRead w s) := fun w => h.host _ _ _ _ _ _ _ (some w) _ _
  have hdraw : ∀ f, Inv (drawRead f s) := fun f => h.host _ _ _ _ _ _ _ _ _ (s.draws + 1)
  have hpick : ∀ f w, Inv (if s.busy then drawRead f s else returnRead w s) := fun f w => by
    split
    exacts [hdraw f, hret w]
  unfold readRegister
  split
  exacts [hret _, hret _, hpick _ _, hpick _ _, hpick _ _, hpick _ _, hret _]

theorem writeRegister_inv {s : State} (h : Inv s) (offset : Nat) (w : Word) : Inv (writeRegister offset w s) := by
  unfold writeRegister writeCommand
  split
  · split
    · exact h.host _ _ _ _ _ true _ _ _ _
    · exact h.accept w
  · exact h

theorem busAccess_inv {s t : State} {f : Nat → State → State} (hf : ∀ offset, Inv (f offset s)) (addr width : Nat)
    (ht : busAccess addr width f s = .next t) : Inv t := by
  rw [busAccess] at ht
  split at ht
  · split at ht
    · cases ht; exact hf _
    · cases ht
  · cases ht

theorem hostTurn_inv {a : HostAction} {s t : State} (h : Inv s) (ht : hostTurn a s = .next t) : Inv t := by
  cases a with
  | read addr width => exact busAccess_inv (readRegister_inv h) addr width ht
  | write addr width data => exact busAccess_inv (writeRegister_inv h · data) addr width ht
  | appendIn bytes =>
    rw [hostTurn] at ht
    split at ht <;> cases ht
    exact h.host _ _ _ _ _ _ _ _ _ _
  | endIn => cases ht; exact h.host _ _ true _ _ _ _ _ _ _
  | errIn => cases ht; exact h.host _ _ _ true _ _ _ _ _ _
  | takeOut n => cases ht; exact h.host _ _ _ _ _ _ _ _ _ _
  | errOut n => cases n <;> cases ht <;> exact h.host _ _ _ _ _ _ _ _ _ _
  | giveIn bytes ended =>
    rw [hostTurn] at ht
    split at ht <;> cases ht
    exact h.host _ _ _ _ _ _ _ _ _ _
  | giveOut =>
    rw [hostTurn] at ht
    split at ht <;> cases ht
    exact h.host _ _ _ _ _ _ _ _ _ _
  | resetInput => cases ht; exact Inv.reset s

/-- Settles O57: each turn, the block's or the host's, keeps the invariant, whatever the agenda. -/
theorem stepKeepsTheInvariant : Obligations.StepKeepsTheInvariant := by
  intro s t h ht
  rw [step, turn] at ht
  split at ht
  · exact blockTurn_inv h ht
  · exact blockTurn_inv (h.host _ _ _ _ _ _ _ _ _ _) ht
  · exact hostTurn_inv (h.host _ _ _ _ _ _ _ _ _ _) ht

end Sys2Proof.Machine
end

section
/-! O54: what each command can do to the state, and which elements it leaves (R33, R36, R38, R70, R76, R77). -/

namespace Sys2Proof.Machine

/-! ## The end of a command -/

/-- A command whose work is `u` ends: it completes, holds or faults (R45, R78, R276). -/
inductive Ended (u : State) : State → Prop
  | complete : Ended u (complete u)
  | hold (p : Progress) : Ended u (hold p u)
  | raise (k : FaultKind) (ph : Phase) : Ended u (raise k ph u)

theorem Ended.starve (ph : Phase) (p : Progress) (u : State) : Ended u (starve ph p u) := by
  rcases starve_cases ph p u with ⟨_, e⟩ | ⟨_, _, e⟩ | ⟨_, _, e⟩ <;> rw [e] <;> constructor

/-! ## The work of each command -/

/-- `u` is `s` after a decoder's work: bits taken, perhaps a byte pushed, and RESULT0, EOS and the count of free values
set (R250, R257). -/
def Decoded (s u : State) : Prop :=
  ∃ v w r0 e d, Unpacked s v ∧ Written v w ∧ u = { w with result0 := r0, eos := e, draws := d }

/-- What a command can have changed when it ends. -/
def Work (s : State) : Instr → State → Prop
  | .nop, u => u = s
  | .softReset, u => u = applyReset s
  | .freqClear, u => ∃ f, u = { s with freq := f }
  | .freqAccum _, u => ∃ f r0 r1, u = { s with freq := f, result0 := r0, result1 := r1 }
  | .freqRead _, u => ∃ r0 r1, u = setResults r0 r1 s
  | .treeBuild .freq, u => ∃ ls v t c r0 r1, u = { s with
      leaves := ls, leavesValid := v, tree := t, code := c, codesValid := false, eos := false,
      result0 := r0, result1 := r1 }
  | .treeBuild .hdr, u => ∃ t c v e r0 r1, u = { s with
      tree := t, code := c, codesValid := v, eos := e, result0 := r0, result1 := r1 }
  | .treeRelease, u => u = { s with tree := none }
  | .codeDerive, u => ∃ c v r0 r1, u = { s with code := c, codesValid := v, result0 := r0, result1 := r1 }
  | .codeRead _, u => ∃ r0 r1, u = setResults r0 r1 s
  | .hdrEmit, u => ∃ v r0 r1, Written s v ∧ u = setResults r0 r1 v
  | .hdrParse, u => ∃ q ls v r0 r1, q <:+ s.inq ∧ u = { s with
      inq := q, leaves := ls, leavesValid := v, tree := none, eos := false, rdCnt := 0, result0 := r0, result1 := r1 }
  | .leafRead _, u => ∃ r0 r1, u = setResults r0 r1 s
  | .encByte _, u => Written s u
  | .encEof, u => Written s u
  | .encFlush, u => Written s u
  | .decSymbol, u => Decoded s u
  | .decStream, u => Decoded s u

theorem finish_ended {ph : Phase} {s t : State} {r : Flow Unit} (hr : WritesOrFails ph s r) (ht : finish r = .next t) :
    ∃ u, Written s u ∧ Ended u t := by
  rcases hr.cases with ⟨u, rfl, hw, _⟩ | ⟨u, rfl, hw⟩ <;> cases ht
  exacts [⟨u, hw, .complete⟩, ⟨u, hw, .raise _ _⟩]

theorem execHdrEmit_work {s t : State} (ht : execHdrEmit s = .next t) :
    ∃ u, (∃ v r0 r1, Written s v ∧ u = setResults r0 r1 v) ∧ Ended u t := by
  rw [execHdrEmit] at ht
  split at ht
  · rcases (pushAll_writes .headerWrite (headerBytes (headerPairs s.freq)) s).cases with
      ⟨u, hr, hw, _⟩ | ⟨u, hr, hw⟩ <;> rw [hr] at ht <;> cases ht
    · exact ⟨_, ⟨u, _, _, hw, rfl⟩, .complete⟩
    · exact ⟨u, ⟨u, _, _, hw, rfl⟩, .raise _ _⟩
  · cases ht
    exact ⟨s, ⟨s, _, _, .refl s, rfl⟩, .raise _ _⟩

theorem encodeSym_work {s t : State} {sym : Sym} (ht : encodeSym sym s = .next t) : ∃ u, Written s u ∧ Ended u t := by
  rw [encodeSym] at ht
  split at ht
  · split at ht
    · exact finish_ended (putBits_writes _ _ _ s) ht
    · cases ht; exact ⟨s, .refl s, .raise _ _⟩
  · cases ht; exact ⟨s, .refl s, .raise _ _⟩

theorem execEncFlush_work {s t : State} (ht : execEncFlush s = .next t) : ∃ u, Written s u ∧ Ended u t := by
  rw [execEncFlush] at ht
  split at ht
  · cases ht; exact ⟨s, .refl s, .complete⟩
  · rcases (pushOut_writes .flush s.wrRack s).cases with ⟨u, hr, hw, _⟩ | ⟨u, hr, hw⟩ <;> rw [hr] at ht <;> cases ht
    · exact ⟨_, hw.trans ⟨[], 0, 0, _, _, by rw [List.append_nil]⟩, .complete⟩
    · exact ⟨u, hw, .raise _ _⟩

theorem symbolDone_work {s t : State} {mk : Tree → Progress} {root : Tree}
    (ht : symbolDone (walk mk root s) = .next t) :
    ∃ u, Decoded s u ∧ Ended u t := by
  rcases (walk_ends mk root s).cases with ⟨sym, v, hr, hv⟩ | ⟨_, v, hr, hv, _⟩ <;> rw [hr, symbolDone] at ht
  · split at ht
    · cases ht
      exact ⟨_, ⟨v, v, _, _, _, hv, .refl v, rfl⟩, .complete⟩
    · obtain ⟨u, ⟨out, rack, cnt, err, after, rfl⟩, he⟩ := finish_ended (pushOut_writes _ _ _) ht
      exact ⟨_, ⟨v, _, _, _, _, hv, ⟨out, rack, cnt, err, after, rfl⟩, rfl⟩, he⟩
  · cases ht
    exact ⟨v, ⟨v, v, _, _, _, hv, .refl v, rfl⟩, .starve _ _ _⟩

theorem streamDone_work {s t : State} {mk : Tree → Progress} {root : Tree}
    (ht : streamDone (walk mk root s) = .next t) :
    ∃ u, Decoded s u ∧ Ended u t := by
  rcases (walk_ends mk root s).cases with ⟨sym, v, hr, hv⟩ | ⟨_, v, hr, hv, _⟩ <;> rw [hr, streamDone] at ht
  · split at ht
    · cases ht
      exact ⟨_, ⟨v, v, _, _, _, hv, .refl v, rfl⟩, .complete⟩
    · rcases (pushOut_writes .bitDecode (symByte sym) v).cases with ⟨w, hp, hw, _⟩ | ⟨w, hp, hw⟩ <;>
        rw [hp] at ht <;> cases ht
      · exact ⟨_, ⟨v, w, _, _, _, hv, hw, countOutput_frame w⟩, .hold _⟩
      · exact ⟨w, ⟨v, w, _, _, _, hv, hw, rfl⟩, .raise _ _⟩
  · cases ht
    exact ⟨v, ⟨v, v, _, _, _, hv, .refl v, rfl⟩, .starve _ _ _⟩

/-- RESULT0 set before the work is as RESULT0 set by it. -/
theorem Decoded.of_result0 {s u : State} {r : Word} (h : Decoded { s with result0 := r } u) : Decoded s u := by
  obtain ⟨_, _, r0, e, d, ⟨byte, cnt, rest, rfl, hq, h8⟩, ⟨out, rack, cnt', err, after, rfl⟩, rfl⟩ := h
  exact ⟨_, _, r0, e, d, ⟨byte, cnt, rest, rfl, hq, h8⟩, ⟨out, rack, cnt', err, after, rfl⟩, rfl⟩

theorem Decoded.refl (s : State) : Decoded s s := ⟨s, s, _, _, _, .refl s, .refl s, rfl⟩

theorem execHdrParse_work {s t : State} (ht : execHdrParse s = .next t) : ∃ u, Work s .hdrParse u ∧ Ended u t := by
  rw [execHdrParse] at ht
  have hk := scanHeader_keeps s.inq [] 0 (by simp) (by simp) rfl
  cases hr : scanHeader s.inq [] 0 <;> simp only [hr] at hk ht <;> cases ht
  case sentinel ls n rest => exact ⟨_, ⟨rest, ls, true, _, _, hk.2.2, rfl⟩, .complete⟩
  case overflow ls rest => exact ⟨_, ⟨rest, ls, false, s.result0, s.result1, hk.2.2, rfl⟩, .raise _ _⟩
  case wantCount ls n => exact ⟨_, ⟨[], ls, false, s.result0, s.result1, List.nil_suffix, rfl⟩, .starve _ _ _⟩
  case wantSym ls c n => exact ⟨_, ⟨[], ls, false, s.result0, s.result1, List.nil_suffix, rfl⟩, .starve _ _ _⟩

/-- Every command does its work and ends. -/
theorem exec_work {i : Instr} {s t : State} (ht : exec i s = .next t) : ∃ u, Work s i u ∧ Ended u t := by
  cases i with
  | nop => cases ht; exact ⟨s, rfl, .complete⟩
  | softReset => cases ht; exact ⟨_, rfl, .complete⟩
  | freqClear => cases ht; exact ⟨_, ⟨_, rfl⟩, .complete⟩
  | freqAccum b => cases ht; exact ⟨_, ⟨_, _, _, rfl⟩, .complete⟩
  | freqRead b => cases ht; exact ⟨_, ⟨_, s.result1, rfl⟩, .complete⟩
  | treeRelease => cases ht; exact ⟨_, rfl, .complete⟩
  | treeBuild src =>
    cases src with
    | freq => cases ht; exact ⟨_, ⟨_, _, _, _, _, _, rfl⟩, .complete⟩
    | hdr =>
      rw [exec, execTreeBuild] at ht
      split at ht <;> cases ht
      · exact ⟨_, ⟨_, _, _, _, _, _, rfl⟩, .complete⟩
      · exact ⟨s, ⟨_, _, _, _, _, _, rfl⟩, .raise _ _⟩
  | codeDerive =>
    rw [exec, execCodeDerive] at ht
    split at ht
    · cases ht; exact ⟨s, ⟨_, _, _, _, rfl⟩, .raise _ _⟩
    · split at ht <;> cases ht
      · exact ⟨s, ⟨_, _, _, _, rfl⟩, .raise _ _⟩
      · exact ⟨_, ⟨_, _, _, _, rfl⟩, .complete⟩
  | codeRead sym =>
    rw [exec, execCodeRead] at ht
    split at ht <;> cases ht
    · exact ⟨_, ⟨_, _, rfl⟩, .complete⟩
    · exact ⟨s, ⟨_, _, rfl⟩, .raise _ _⟩
  | hdrEmit => exact execHdrEmit_work ht
  | hdrParse => exact execHdrParse_work ht
  | leafRead b =>
    rw [exec, execLeafRead] at ht
    split at ht
    · split at ht <;> cases ht <;> exact ⟨_, ⟨_, _, rfl⟩, .complete⟩
    · cases ht; exact ⟨s, ⟨_, _, rfl⟩, .raise _ _⟩
  | encByte b => exact encodeSym_work ht
  | encEof => exact encodeSym_work ht
  | encFlush => exact execEncFlush_work ht
  | decSymbol =>
    rw [exec, execDecSymbol] at ht
    split at ht
    · cases ht; exact ⟨s, .refl s, .raise _ _⟩
    · split at ht
      · cases ht; exact ⟨s, .refl s, .raise _ _⟩
      · exact symbolDone_work ht
  | decStream =>
    rw [exec, execDecStream] at ht
    split at ht
    · cases ht; exact ⟨s, .refl s, .raise _ _⟩
    · split at ht
      · cases ht; exact ⟨s, .refl s, .raise _ _⟩
      · obtain ⟨u, hu, he⟩ := streamDone_work ht
        exact ⟨u, hu.of_result0, he⟩

/-! ## The elements a command leaves -/

/-- The memories, the streams and the rest of the state from `s` to `t`, command by command (R70). -/
def NamedWrites (i : Instr) (s t : State) : Prop :=
  (i ≠ .softReset → i ≠ .freqClear → (∀ b, i ≠ .freqAccum b) → t.freq = s.freq) ∧
  (i ≠ .softReset → i ≠ .codeDerive → (∀ src, i ≠ .treeBuild src) → t.code = s.code) ∧
  (i ≠ .softReset → i ≠ .hdrParse → i ≠ .treeBuild .freq → t.leaves = s.leaves) ∧
  (i ≠ .softReset → i ≠ .treeRelease → i ≠ .hdrParse → (∀ src, i ≠ .treeBuild src) →
    t.tree = s.tree ∨ (t.fault = true ∧ t.tree = none)) ∧
  (i ≠ .hdrParse → i ≠ .decSymbol → i ≠ .decStream → t.inq = s.inq) ∧
  (i ≠ .hdrEmit → (∀ b, i ≠ .encByte b) → i ≠ .encEof → i ≠ .encFlush → i ≠ .decSymbol → i ≠ .decStream →
    t.outq = s.outq ∧ t.outErr = s.outErr) ∧
  s.outq <+: t.outq ∧ t.inq <:+ s.inq ∧
  (i ≠ .softReset → t.ovr = s.ovr) ∧ t.params = s.params ∧ t.curCmd = s.curCmd ∧
  t.inEnd = s.inEnd ∧ t.inErr = s.inErr ∧ t.agenda = s.agenda ∧ t.readData = s.readData

theorem Work.namedWrites {i : Instr} {s u : State} (h : Work s i u) : NamedWrites i s u := by
  unfold NamedWrites
  cases i with
  | nop => obtain rfl := h; simp
  | softReset => obtain rfl := h; simp
  | freqClear => obtain ⟨_, rfl⟩ := h; simp
  | freqAccum b => obtain ⟨_, _, _, rfl⟩ := h; simp
  | freqRead b => obtain ⟨_, _, rfl⟩ := h; simp
  | treeBuild src => cases src <;> obtain ⟨_, _, _, _, _, _, rfl⟩ := h <;> simp
  | treeRelease => obtain rfl := h; simp
  | codeDerive => obtain ⟨_, _, _, _, rfl⟩ := h; simp
  | codeRead sym => obtain ⟨_, _, rfl⟩ := h; simp
  | hdrEmit => obtain ⟨_, _, _, ⟨_, _, _, _, _, rfl⟩, rfl⟩ := h; simp
  | hdrParse => obtain ⟨_, _, _, _, _, hq, rfl⟩ := h; simp [hq]
  | leafRead b => obtain ⟨_, _, rfl⟩ := h; simp
  | encByte b => obtain ⟨_, _, _, _, _, rfl⟩ := h; simp
  | encEof => obtain ⟨_, _, _, _, _, rfl⟩ := h; simp
  | encFlush => obtain ⟨_, _, _, _, _, rfl⟩ := h; simp
  | decSymbol => obtain ⟨_, _, _, _, _, ⟨_, _, _, rfl, hq, _⟩, ⟨_, _, _, _, _, rfl⟩, rfl⟩ := h; simp [hq]
  | decStream => obtain ⟨_, _, _, _, _, ⟨_, _, _, rfl, hq, _⟩, ⟨_, _, _, _, _, rfl⟩, rfl⟩ := h; simp [hq]

/-- Settles O54: the work of a command writes only what is named, and its end touches none of it but the tree, which a
fault releases. -/
theorem onlyTheNamedCommandsWrite : Obligations.OnlyTheNamedCommandsWrite := by
  intro i s t ht
  obtain ⟨u, hw, he⟩ := exec_work ht
  obtain ⟨freq, code, leaves, tree, rest⟩ := hw.namedWrites
  cases he
  case complete => exact ⟨freq, code, leaves, tree, rest⟩
  case hold p => exact ⟨freq, code, leaves, tree, rest⟩
  case raise k ph => exact ⟨freq, code, leaves, fun _ _ _ _ => .inr ⟨rfl, rfl⟩, rest⟩

end Sys2Proof.Machine
end

section
/-! The register window and dispatch: O5, O7, O8, O10 to O13, and the reset state, O56. -/

namespace Sys2Proof.Machine

/-! ## The register window -/

/-- A 32-bit access at an aligned offset of the window reaches the register there (R47, R71, R72). -/
theorem busAccess_window (f : Nat → State → State) (s : State) {offset : Nat} (hlt : offset < 256)
    (ha : offset % 4 = 0) : busAccess (s.params.regBase + offset) 32 f s = .next (f offset s) := by
  have hw : inWindow s.params (s.params.regBase + offset) = true := by simp [inWindow, hlt]
  have ho : windowOffset s.params (s.params.regBase + offset) = offset := Nat.add_sub_cancel_left ..
  simp [busAccess, hw, ho, supportedAccess, ha]

theorem hostTurn_read (s : State) {offset : Nat} (hlt : offset < 256) (ha : offset % 4 = 0) :
    hostTurn (.read (s.params.regBase + offset) 32) s = .next (readRegister offset s) :=
  busAccess_window _ s hlt ha

theorem hostTurn_write (s : State) (v : Word) {offset : Nat} (hlt : offset < 256) (ha : offset % 4 = 0) :
    hostTurn (.write (s.params.regBase + offset) 32 v) s = .next (writeRegister offset v s) :=
  busAccess_window (fun o => writeRegister o v) s hlt ha

/-- Only CMD is writable (R53, R54). -/
theorem hostTurn_write_ignored (s : State) (v : Word) {offset : Nat} (hlt : offset < 256) (ha : offset % 4 = 0)
    (hne : offset ≠ 0x04) : hostTurn (.write (s.params.regBase + offset) 32 v) s = .next s := by
  rw [hostTurn_write s v hlt ha, writeRegister]
  exact hne

/-- An offset past FAULTINFO is reserved (R53). -/
theorem readRegister_reserved (s : State) {offset : Nat} (h : 0x18 ≤ offset) :
    readRegister offset s = returnRead 0 s := by
  rw [readRegister] <;> omega

/-- Settles O7: the two values of BUSY, and the read of CMD. -/
theorem cmdWriteIsAcceptedOrOverruns : Obligations.CmdWriteIsAcceptedOrOverruns := by
  intro s v
  refine ⟨fun hb => ?_, fun hb => ?_, hostTurn_read s (by decide) (by decide)⟩ <;>
    rw [hostTurn_write s v (by decide) (by decide), writeRegister, writeCommand, hb]
  · rfl
  · rfl

/-- Settles O8: only CMD is writable, and the offsets past FAULTINFO are reserved. -/
theorem onlyCmdIsWritable : Obligations.OnlyCmdIsWritable := by
  intro s offset v hlt ha
  refine ⟨hostTurn_write_ignored s v hlt ha, fun h => ?_⟩
  rw [hostTurn_read s hlt ha, readRegister_reserved s h]
  rfl

/-- Settles O10: CONFIG is one of two constants. -/
theorem configReadsItsConstant : Obligations.ConfigReadsItsConstant := by
  intro s v
  refine ⟨⟨configWord s.params, hostTurn_read s (offset := 0) (by decide) (by decide), ?_⟩,
    hostTurn_write_ignored s v (offset := 0) (by decide) (by decide) (by decide)⟩
  rw [configWord, Params.eofSym]
  cases s.params.eofMode <;> decide

/-- A bit of the low part of a word made of two parts. -/
theorem getLsbD_append_low {v w i : Nat} {x : BitVec v} {y : BitVec w} (h : i < w) :
    (x ++ y).getLsbD i = y.getLsbD i := by
  rw [BitVec.getLsbD_append, if_pos h]

/-- A bit of the high part of a word made of two parts. -/
theorem getLsbD_append_high {v w i : Nat} {x : BitVec v} {y : BitVec w} (h : w ≤ i) :
    (x ++ y).getLsbD i = x.getLsbD (i - w) := by
  rw [BitVec.getLsbD_append, if_neg (Nat.not_lt.mpr h)]

/-- A read of STATUS, RESULT0, RESULT1 or FAULTINFO while BUSY = 0 (R50 to R52). -/
theorem readRegister_idle {s : State} (hb : s.busy = false) :
    readRegister 0x08 s = returnRead (statusWord s) s ∧ readRegister 0x0C s = returnRead s.result0 s ∧
    readRegister 0x10 s = returnRead s.result1 s ∧ readRegister 0x14 s = returnRead (faultInfoWord s) s := by
  simp [readRegister, hb]

/-- A read of the same registers while BUSY = 1 draws a free value (R55). -/
theorem readRegister_busy {s : State} (hb : s.busy = true) :
    readRegister 0x08 s = drawRead (busyStatusWord s) s ∧ readRegister 0x0C s = drawRead id s ∧
    readRegister 0x10 s = drawRead id s ∧ readRegister 0x14 s = drawRead busyFaultInfoWord s := by
  simp [readRegister, hb]

/-- Settles O11: each field of STATUS stands where R50 puts it, and LEAF_COUNT fits its nine bits. -/
theorem statusReflectsTheState : Obligations.StatusReflectsTheState := by
  intro s hb hl
  refine ⟨⟨statusWord s, ?_, ?_⟩, fun v => hostTurn_write_ignored s v (by decide) (by decide) (by decide)⟩
  · rw [hostTurn_read s (by decide) (by decide), (readRegister_idle hb).1]
    rfl
  · simp (disch := decide) only [statusWord, flagBit, BitVec.getLsbD_cast, getLsbD_append_low, getLsbD_append_high,
      BitVec.extractLsb'_cast, BitVec.extractLsb'_append_eq_of_add_le, BitVec.extractLsb'_append_eq_of_le]
    simp [leafCount, treeValid]
    omega

/-- Settles O12: the fault record stands where R52 puts it. -/
theorem faultInfoAndResultsReflectTheState : Obligations.FaultInfoAndResultsReflectTheState := by
  intro s hb
  obtain ⟨_, h0, h1, hi⟩ := readRegister_idle hb
  refine ⟨⟨faultInfoWord s, ?_, fun hf => ?_, fun hf => ?_⟩, ?_, ?_, ?_⟩
  · rw [hostTurn_read s (by decide) (by decide), hi]; rfl
  · rw [faultInfoWord, hf]; rfl
  · rw [faultInfoWord, if_pos hf]
    simp (disch := decide) only [BitVec.extractLsb'_cast, BitVec.extractLsb'_append_eq_of_add_le,
      BitVec.extractLsb'_append_eq_of_le]
    simp
  · rw [hostTurn_read s (by decide) (by decide), h0]; rfl
  · rw [hostTurn_read s (by decide) (by decide), h1]; rfl
  · rintro offset v (rfl | rfl | rfl) <;> exact hostTurn_write_ignored s v (by decide) (by decide) (by decide)

/-- Settles O13: the bits R55 and R53 fix do not depend on the value drawn. -/
theorem busyReadsKeepTheTrueBits : Obligations.BusyReadsKeepTheTrueBits := by
  intro s hb
  obtain ⟨hs, h0, h1, hi⟩ := readRegister_busy hb
  refine ⟨⟨busyStatusWord s (Config.freeRead s.draws), ?_, ?_⟩, ?_⟩
  · rw [hostTurn_read s (by decide) (by decide), hs]; rfl
  · simp (disch := decide) only [busyStatusWord, flagBit, BitVec.getLsbD_cast, getLsbD_append_low, getLsbD_append_high,
      BitVec.extractLsb'_cast, BitVec.extractLsb'_append_eq_of_le]
    simp [hb]
  · rintro offset (rfl | rfl | rfl) <;> rw [hostTurn_read s (by decide) (by decide)]
    · exact ⟨_, by rw [h0]; rfl, by simp⟩
    · exact ⟨_, by rw [h1]; rfl, by simp⟩
    · refine ⟨_, by rw [hi]; rfl, fun _ => ?_⟩
      simp (disch := decide) only [busyFaultInfoWord, BitVec.extractLsb'_cast, BitVec.extractLsb'_append_eq_of_le]
      simp

/-! ## Reset and dispatch -/

/-- Settles O56: the state after reset is a reset of itself. -/
theorem invariantHoldsAtReset : Obligations.InvariantHoldsAtReset := fun p => Inv.reset (State.resetWith p)

/-- The map of R107 gives SOFT_RESET for its own code only. -/
theorem ofByte_softReset {b : Byte} (h : Opcode.ofByte b = some .softReset) : b = 0x02 := by
  revert h
  revert b
  decide

/-- Which command a word decodes to is settled by its opcode (R110). -/
theorem opcode_of_decode {w : Word} {i : Instr} (h : decode w = .ok i) :
    Opcode.ofByte (opcField w) = some i.opcode := by
  cases hop : Opcode.ofByte (opcField w) with
  | none => simp [decode, hop] at h
  | some op =>
    cases op <;> simp only [decode, hop] at h
    case codeRead =>
      rw [decodeS] at h
      split at h
      · split at h <;> cases h
        rfl
      · cases h
    all_goals
      simp only [decodeN, decodeB, decodeT] at h
      split at h <;> cases h
      rfl

/-- The word of SOFT_RESET is the only one that decodes to it (R107, R140). -/
theorem eq_softResetWord_of_decode {w : Word} (h : decode w = .ok .softReset) : w = softResetWord := by
  have hop := opcode_of_decode h
  have hhi := ofByte_softReset hop
  simp only [decode, hop, Instr.opcode, decodeN] at h
  split at h
  · next hlo =>
    apply BitVec.eq_of_toNat_eq
    have h1 := congrArg BitVec.toNat hhi
    have h2 := congrArg BitVec.toNat hlo
    simp [opcField] at h1 h2
    simp [softResetWord]
    omega
  · cases h

/-- The accepted word runs: with no fault recorded, and SOFT_RESET always (R140). -/
theorem dispatch_of_decode {s : State} {i : Instr} (hd : decode s.curCmd = .ok i)
    (hf : s.fault = false ∨ i = .softReset) : dispatch s = exec i s := by
  have hrun : (s.fault && s.curCmd != softResetWord) = false := by
    rcases hf with hf | rfl
    · simp [hf]
    · simp [eq_softResetWord_of_decode hd]
  simp [dispatch, hrun, hd]

theorem blockTurn_of_decode {s : State} {i : Instr} (hb : s.busy = true) (hr : s.run = .start)
    (hd : decode s.curCmd = .ok i) (hf : s.fault = false ∨ i = .softReset) : blockTurn s = exec i s := by
  rw [blockTurn, if_pos hb, hr]
  exact dispatch_of_decode hd hf

/-- The block's turn stands first in `blockNext`, and taking it gives the agenda back. -/
theorem turn_blockNext (s : State) (ag : List Turn) :
    turn { s with agenda := blockNext ag } = blockTurn { s with agenda := ag } := by
  cases ag <;> rfl

/-- Settles O5: the agenda gives the block its turn, and an accepted word that decodes is dispatched. -/
theorem stepRunsTheDecodedCommand : Obligations.StepRunsTheDecodedCommand := by
  constructor
  · intro s i hb hr hd hf
    refine ⟨fun ha => ?_, fun rest ha => ?_⟩ <;> rw [step, turn, ha]
    · exact blockTurn_of_decode hb hr hd hf
    · exact blockTurn_of_decode (s := { s with agenda := rest }) hb hr hd hf
  · intro s w i hd hf
    have hw : tableWord 32 w.toNat = w := by
      rw [tableWord, Nat.mod_eq_of_lt w.isLt, BitVec.ofNat_toNat, BitVec.setWidth_eq]
    rw [State.withFetchWord, hw]
    exact (turn_blockNext (acceptCommand w s) s.agenda).trans (blockTurn_of_decode rfl rfl hd hf)

end Sys2Proof.Machine
end

section
/-! ENC_FLUSH, TREE_BUILD and CODE_DERIVE: O42, O23, O26. -/

namespace Sys2Proof.Machine

/-! ## ENC_FLUSH -/

/-- A padded rack is its bits and zeros below (R40, R87). -/
theorem byteBits_wrRack {s : State} (h : RackPadded s) :
    byteBits s.wrRack = rackBits s ++ List.replicate (8 - s.wrCnt.toNat) false := by
  have hdrop : (byteBits s.wrRack).drop s.wrCnt.toNat = List.replicate (8 - s.wrCnt.toNat) false := by
    apply List.ext_getElem
    · simp
    · intro k h1 h2
      simp only [List.length_replicate] at h2
      rw [List.getElem_drop, byteBits_getElem, List.getElem_replicate, h _ (by omega)]
  rw [rackBits, ← hdrop, List.take_append_drop]

/-- Settles O42: the three cases of the rack and of OUT. -/
theorem flushWritesThePaddedRack : Obligations.FlushWritesThePaddedRack := by
  intro s
  refine ⟨fun h0 => ?_, fun h0 he hp => ?_, fun h0 he => ?_⟩ <;> rw [exec, execEncFlush]
  · rw [if_pos h0]; rfl
  · rw [if_neg h0, pushOut_ok he]
    exact ⟨_, _, rfl, byteBits_wrRack hp, emit_quiet (b := s.wrRack)⟩
  · rw [if_neg h0, pushOut_failed he]; rfl

/-! ## The shape of a built tree -/

/-- Where the weights add up, the root weighs what the leaves weigh, modulo 2^32 (R37). -/
theorem treeWeight_toNat {t : Tree} (h : WeightsAdd t) :
    (treeWeight t).toNat = ((treeLeaves t).map (·.2.toNat)).sum % 2 ^ 32 := by
  induction t with
  | leaf s w => simp [treeWeight, treeLeaves, Nat.mod_eq_of_lt w.isLt]
  | internal w c0 c1 ih0 ih1 =>
    obtain ⟨rfl, h0, h1⟩ := h
    rw [treeWeight, BitVec.toNat_add, ih0 h0, ih1 h1, treeLeaves, List.map_append, List.sum_append, ← Nat.add_mod]

/-- A tree with no internal node is a leaf (R37). -/
theorem isLeaf_iff_internalCount (t : Tree) : isLeaf t = true ↔ internalCount t = 0 := by
  cases t <;> simp [isLeaf, internalCount]

/-- The tree of a leaf list in range: its leaves, its internal nodes and its weights, none of which wrapped (R37, R178,
R179). -/
theorem buildTree_shape (eof : Sym) {leaves : List LeafEntry} (hl : leaves.length ≤ 256) (hok : ∀ l ∈ leaves, l.Ok) :
    (treeLeaves (buildTree eof leaves)).Perm (leaves.map (fun l => (byteSym l.sym, l.weight)) ++ [(eof, 1)]) ∧
    internalCount (buildTree eof leaves) = leaves.length ∧ WeightsAdd (buildTree eof leaves) ∧
    (treeWeight (buildTree eof leaves)).toNat = 1 + (leaves.map (fun l => l.weight.toNat)).sum ∧
    (treeWeight (buildTree eof leaves)).toNat ≤ 65281 ∧ (isLeaf (buildTree eof leaves) = true ↔ leaves = []) := by
  obtain ⟨hp, hi, hw⟩ := buildTree_spec eof leaves
  have hbound : (leaves.map fun l => l.weight.toNat).sum ≤ 65280 := by
    have := List.sum_le_card_nsmul (leaves.map fun l => l.weight.toNat) 255 (by simpa using fun l hl => (hok l hl).2)
    simp at this
    omega
  have hsum : (treeWeight (buildTree eof leaves)).toNat = 1 + (leaves.map fun l => l.weight.toNat).sum := by
    rw [treeWeight_toNat hw, (hp.map _).sum_eq]
    simp [Function.comp_def]
    omega
  exact ⟨hp, hi, hw, hsum, by omega, by rw [isLeaf_iff_internalCount, hi, List.length_eq_zero_iff]⟩

/-- Settles O23: TREE_BUILD that stores a tree stores the one of LEAVES, and LEAVES is in range. -/
theorem builtTreeShape : Obligations.BuiltTreeShape := by
  intro s t src root h ht hr
  have key : t.leaves.length ≤ 256 ∧ (∀ l ∈ t.leaves, l.Ok) ∧ root = buildTree t.params.eofSym t.leaves := by
    cases src with
    | freq =>
      cases ht
      exact ⟨freqLeaves_length s.freq, freqLeaves_ok h.counts, (Option.some.inj hr).symm⟩
    | hdr =>
      rw [exec, execTreeBuild] at ht
      split at ht <;> cases ht
      · exact ⟨h.leavesLength, h.leavesOk, (Option.some.inj hr).symm⟩
      · cases hr
  obtain ⟨hl, hok, rfl⟩ := key
  exact buildTree_shape _ hl hok

/-! ## CODE_DERIVE -/

/-- CODE as a list is its entries in symbol order (R38). -/
theorem code_toList (c : Vector CodeEntry 257) :
    c.toList = (List.range 257).map fun k => codeAt c (BitVec.ofNat 9 k) := by
  apply List.ext_getElem
  · simp
  · intro k h1 h2
    have hk : k < 257 := by simpa using h1
    have hmod : k % 512 = k := Nat.mod_eq_of_lt (by omega)
    simp [codeAt, hmod, hk]

/-- RESULT0 of CODE_DERIVE counts the valid entries (R190). -/
theorem validCount_eq (c : Vector CodeEntry 257) :
    validCount c = ((List.range 257).filter fun k => (codeAt c (BitVec.ofNat 9 k)).valid).length := by
  rw [validCount, code_toList, List.countP_map, List.countP_eq_length_filter]
  rfl

/-- A valid entry is one of the table's. -/
theorem codeAt_mem {c : Vector CodeEntry 257} {sym : Sym} (hv : (codeAt c sym).valid = true) :
    codeAt c sym ∈ c.toList := by
  unfold codeAt at hv ⊢
  split at hv
  · next h => rw [dif_pos h]; simp
  · cases hv

/-- RESULT1 of CODE_DERIVE bounds the length of every valid entry, and is one of those lengths unless it is 0 (R190). -/
theorem longestCode_spec (c : Vector CodeEntry 257) :
    (∀ sym, (codeAt c sym).valid = true → (codeAt c sym).len.toNat ≤ longestCode c) ∧
    (longestCode c = 0 ∨ ∃ sym, (codeAt c sym).valid = true ∧ (codeAt c sym).len.toNat = longestCode c) := by
  have hmax : (0 :: (c.toList.filter (·.valid)).map (·.len.toNat)).max? = some (longestCode c) := by
    rw [List.max?_cons', List.foldl_map, List.foldl_filter]
    rfl
  obtain ⟨hmem, hle⟩ := List.max?_eq_some_iff.mp hmax
  constructor
  · intro sym hv
    exact hle _ (List.mem_cons_of_mem _ (List.mem_map.mpr ⟨_, List.mem_filter.mpr ⟨codeAt_mem hv, hv⟩, rfl⟩))
  · rcases List.mem_cons.mp hmem with h0 | hm
    · exact .inl h0
    · obtain ⟨e, he, hlen⟩ := List.mem_map.mp hm
      obtain ⟨hin, hv⟩ := List.mem_filter.mp he
      rw [code_toList] at hin
      obtain ⟨k, _, rfl⟩ := List.mem_map.mp hin
      exact .inr ⟨_, hv, hlen⟩

/-- A tree has a path to a leaf (R14). -/
theorem exists_treePaths (t : Tree) : ∃ p, p ∈ treePaths t := by
  induction t with
  | leaf s w => exact ⟨(s, []), by simp [treePaths]⟩
  | internal w c0 c1 ih0 _ =>
    obtain ⟨p, hp⟩ := ih0
    exact ⟨(p.1, false :: p.2), by simp [treePaths, hp]⟩

/-- Where an entry is valid, the greatest length is some entry's. -/
theorem longestCode_attained {c : Vector CodeEntry 257} {sym : Sym} (hv : (codeAt c sym).valid = true) :
    ∃ sym, (codeAt c sym).valid = true ∧ (codeAt c sym).len.toNat = longestCode c := by
  obtain ⟨hle, h0 | h⟩ := longestCode_spec c
  · exact ⟨sym, hv, by have := hle sym hv; omega⟩
  · exact h

/-- Settles O26: the table is `deriveTable`, whose entries record the paths; the results count and measure them. -/
theorem codeDeriveRecordsThePaths : Obligations.CodeDeriveRecordsThePaths := by
  intro s root hr hd hs
  replace hs : ∀ p ∈ treePaths root, p.1.toNat < 257 := fun p hp => Nat.lt_succ_of_le (hs p hp)
  obtain ⟨p, hp⟩ := exists_treePaths root
  obtain ⟨long, hv, hlong⟩ := longestCode_attained ((codeAt_deriveTable_valid hs p.1).mpr ⟨p, hp, rfl⟩)
  have h0 : (BitVec.ofNat 32 (validCount (deriveTable root))).toNat = validCount (deriveTable root) := by
    have : validCount (deriveTable root) ≤ 257 := List.countP_le_length.trans_eq (by simp)
    rw [BitVec.toNat_ofNat, Nat.mod_eq_of_lt (by omega)]
  have h1 : (BitVec.ofNat 32 (longestCode (deriveTable root))).toNat = longestCode (deriveTable root) := by
    have := (codeAt (deriveTable root) long).len.isLt
    rw [BitVec.toNat_ofNat, Nat.mod_eq_of_lt (by omega)]
  refine ⟨deriveTable root, _, _, ?_, ?_, h0.trans (validCount_eq _), ?_, long, hv, hlong.trans h1.symm⟩
  · rw [exec, execCodeDerive, hr]
    exact if_neg (Nat.not_lt.mpr hd)
  · intro sym _
    cases hq : (treePaths root).reverse.find? (fun p => p.1 == sym) with
    | some q =>
      rw [codeAt_deriveTable_of_find hs hq]
      have hm := List.mem_reverse.mp (List.mem_of_find?_eq_some hq)
      exact pathEntry_records q.2 ((treePaths_depth root q hm).trans hd)
    | none => exact codeAt_deriveTable_of_find_none hs hq
  · intro sym hsym
    rw [h1]
    exact (longestCode_spec _).1 sym hsym

end Sys2Proof.Machine
end

section
/-! The streams and the encoder: PopIn and PushOut, O55; the host's actions, O9 and O60; the code of a symbol, O39 and
O41. -/

namespace Sys2Proof.Machine

/-! ## PopIn and PushOut -/

/-- PopIn with nothing to pop faults where IN is in error or has ended, and an error wins over an end (R78). -/
theorem starve_faulted {s : State} (ph : Phase) (p : Progress) (h : s.inErr = true ∨ s.inEnd = true) :
    starve ph p s = { raise .ioFailure ph s with fcode := if s.inErr then 1 else 2 } := by
  rcases starve_cases ph p s with ⟨hr, e⟩ | ⟨hr, _, e⟩ | ⟨hr, hn, _⟩
  · rw [e, hr]; rfl
  · rw [e, hr]; rfl
  · simp [hr, hn] at h

/-- PopIn with nothing to pop holds where IN may still get bytes (R78). -/
theorem starve_waiting {s : State} (ph : Phase) (p : Progress) (hr : s.inErr = false) (he : s.inEnd = false) :
    starve ph p s = hold p s := by
  simp [starve, hr, he]

/-- Settles O55: what IN and OUT hold decides. -/
theorem streamPrimitives : Obligations.StreamPrimitives := by
  intro ph p b rest s
  refine ⟨popIn_cons, fun hq hr => ?_, fun hq hr he => ?_, fun hq hr he => ?_, pushOut_failed, fun ho => ?_⟩
  · rw [popIn_nil hq, starve, if_pos hr]
  · rw [popIn_nil hq, starve, hr, he]; rfl
  · rw [popIn_nil hq, starve_waiting ph p hr he]; rfl
  · exact ⟨_, _, pushOut_ok ho, emit_quiet (b := b)⟩

/-! ## The host's actions -/

/-- An access inside the window is answered by its width and alignment alone (R71, R72). -/
theorem busAccess_offset (f : Nat → State → State) (s : State) (width : Nat) {offset : Nat} (hlt : offset < 256) :
    busAccess (s.params.regBase + offset) width f s =
      if supportedAccess offset width then .next (f offset s) else .refused .unsupportedAccess := by
  have hw : inWindow s.params (s.params.regBase + offset) = true := by simp [inWindow, hlt]
  have ho : windowOffset s.params (s.params.regBase + offset) = offset := Nat.add_sub_cancel_left ..
  rw [busAccess, if_pos hw, ho]

/-- Settles O9: reads and writes are the same bus access. -/
theorem unsupportedAccessesAreRefused : Obligations.UnsupportedAccessesAreRefused := by
  intro s offset width v hlt h
  have hs : ¬ supportedAccess offset width = true := by
    simpa [supportedAccess, ← not_and_or] using h
  constructor <;> rw [hostTurn, busAccess_offset _ s width hlt, if_neg hs]

/-- An OUT whose error is to come after k + 1 more bytes takes that many, and is in error exactly once all of them are
pushed (R77). -/
theorem pushAll_scheduled (ph : Phase) (bs : List Byte) (k : Nat) (s : State) (hs : s.outErr = false)
    (ha : s.outErrAfter = some k) (hl : bs.length ≤ k + 1) :
    ∃ u, pushAll ph bs s = .ok () u ∧
      u = { s with outq := s.outq ++ bs, outErr := u.outErr, outErrAfter := u.outErrAfter } ∧
      (u.outErr = true ↔ bs.length = k + 1) := by
  induction bs generalizing s k with
  | nil => exact ⟨s, rfl, by rw [List.append_nil], by simp [hs]⟩
  | cons b bs ih =>
    rw [pushAll, pushOut_ok hs]
    cases k with
    | zero =>
      obtain rfl : bs = [] := List.eq_nil_of_length_eq_zero (by simpa using hl)
      exact ⟨emit b s, rfl, emit_frame b s, by simp [ha]⟩
    | succ k =>
      obtain ⟨u, hu, hf, he⟩ := ih k (emit b s) (by simp [hs, ha]) (by simp [emit, ha]) (by simpa using hl)
      exact ⟨u, hu, by rw [hf]; simp [emit], by rw [he]; simp⟩

/-- Settles O60: each action is one update of the streams. -/
theorem hostStreamActions : Obligations.HostStreamActions := by
  intro s bytes n ended
  refine ⟨fun he => ?_, fun he => ?_, rfl, rfl, rfl, rfl, fun k => ?_, fun hb => ?_, fun hb => ?_⟩
  · rw [hostTurn, he]; rfl
  · rw [hostTurn, he]; rfl
  · refine ⟨_, rfl, rfl, fun ph ho hl => ?_⟩
    exact pushAll_scheduled ph bytes k (scheduleOutErr (k + 1) s) ho rfl hl
  · simp [hostTurn, hb]
  · simp [hostTurn, hb]

/-! ## The encoder -/

/-- ENC_BYTE and ENC_EOF write the code of one symbol (R230, R231). -/
theorem exec_encode {s : State} {i : Instr} {sym : Sym}
    (h : (∃ b : Byte, i = .encByte b ∧ sym = b.zeroExtend 9) ∨ (i = .encEof ∧ sym = s.params.eofSym)) :
    exec i s = encodeSym sym s := by
  rcases h with ⟨b, rfl, rfl⟩ | ⟨rfl, rfl⟩ <;> rfl

theorem encodeSym_coded {s : State} {sym : Sym} (hc : s.codesValid = true) (hv : (codeAt s.code sym).valid = true) :
    encodeSym sym s = finish (putBits .bitEncode (codeAt s.code sym).pat (codeAt s.code sym).len.toNat s) := by
  rw [encodeSym, if_pos hc, if_pos hv]

/-- Settles O39: the packer appends the code's bits. -/
theorem encodingAppendsTheCode : Obligations.EncodingAppendsTheCode := by
  intro s i sym hi hc hv hp ho
  obtain ⟨out, t, hput, hf, hbits, hpad, hcnt, hquiet⟩ := putBits_ok .bitEncode (codeAt s.code sym).pat _ s hp ho
  refine ⟨out, t.wrRack, t.wrCnt, t.outErr, t.outErrAfter, complete t, congrArg complete hf, ?_, ?_, ?_, hpad, hquiet⟩
  · rw [exec_encode hi, encodeSym_coded hc hv, hput]; rfl
  · have := t.wrCnt.isLt
    omega
  · have hq : (complete t).outq = s.outq ++ out := by rw [hf]; rfl
    rw [writtenBits, hq, List.flatMap_append, List.append_assoc, writtenBits, List.append_assoc]
    exact congrArg _ hbits

/-- Settles O41: the packer stops at the byte OUT does not take. -/
theorem encodingIntoAFailedOut : Obligations.EncodingIntoAFailedOut := by
  intro s i sym n hi hc hv hp hf hn
  obtain ⟨out, rack, hput, hlen, hbits⟩ := putBits_failed .bitEncode (codeAt s.code sym).pat _ s n hp hn hf
  refine ⟨out, rack, ?_, hlen, hbits⟩
  rw [exec_encode hi, encodeSym_coded hc hv, hput]
  rfl

end Sys2Proof.Machine
end

section
/-! HDR_PARSE and DEC_SYMBOL where IN runs out, O35 and O46; DEC_SYMBOL of a whole code, O44; holding, O50. -/

namespace Sys2Proof.Machine

/-! ## HDR_PARSE -/

/-- HDR_PARSE over the pairs of a leaf list and whatever follows them (R211, R213). -/
theorem exec_hdrParse {s : State} {leaves : List LeafEntry} {rest : List Byte} (hl : leaves.length ≤ 256)
    (hok : ∀ l ∈ leaves, l.Ok) (hq : s.inq = leaves.flatMap (fun l => [l.weight.truncate 8, l.sym]) ++ rest) :
    exec .hdrParse s = .next (settleScan (scanHeader rest leaves (2 * leaves.length))
      { s with rdCnt := 0, tree := none, eos := false, leaves := [], leavesValid := false }) := by
  have hscan := scanHeader_pairs leaves [] rest 0 (by simpa using hl) hok
  rw [List.nil_append, Nat.zero_add] at hscan
  rw [exec, execHdrParse, hq, hscan]

/-- Settles O35: the loop stores the whole pairs, and then wants a count byte or a symbol byte. -/
theorem hdrParseOnACutHeader : Obligations.HdrParseOnACutHeader := by
  intro s leaves odd hl hok hodd hq
  rw [headerOf, List.dropLast_concat] at hq
  rw [exec_hdrParse hl hok hq]
  rcases hodd with rfl | ⟨hlt, c, hc, rfl⟩
  · rw [scanHeader_nil]
    refine ⟨fun hend => congrArg _ (starve_faulted _ _ ?_), fun hr he => ⟨.hdrCount (2 * leaves.length),
      congrArg _ (starve_waiting _ _ ?_ ?_), fun _ => rfl, nofun⟩⟩
    exacts [hend, hr, he]
  · rw [scanHeader_half _ hc hlt.ne]
    refine ⟨fun hend => congrArg _ (starve_faulted _ _ ?_), fun hr he => ⟨.hdrSym c (2 * leaves.length + 1),
      congrArg _ (starve_waiting _ _ ?_ ?_), nofun, fun d hd => by rw [List.head_eq_of_cons_eq hd]⟩⟩
    exacts [hend, hr, he]

/-! ## DEC_SYMBOL -/

theorem exec_decSymbol {s : State} {root : Tree} (ht : s.tree = some root) (he : s.eos = false) :
    exec .decSymbol s = symbolDone (walk .decSymbol root s) := by
  simp [exec, execDecSymbol, ht, he]

/-- DEC_SYMBOL at the end-of-stream symbol sets EOS (R250). -/
theorem symbolDone_eof {sym : Sym} {t : State} (h : sym = t.params.eofSym) :
    symbolDone (.ok sym t) = .next (complete { t with result0 := sym.zeroExtend 32, eos := true }) := by
  rw [symbolDone, if_pos h]

/-- DEC_SYMBOL at another symbol pushes its byte into an OUT that takes it (R250). -/
theorem symbolDone_pushed {sym : Sym} {t : State} (h : sym ≠ t.params.eofSym) (ho : t.outErr = false) :
    symbolDone (.ok sym t) = .next (complete (emit (symByte sym) { t with result0 := sym.zeroExtend 32 })) := by
  rw [symbolDone, if_neg h, pushOut, if_neg (by simp [ho]), finish]

/-- DEC_SYMBOL at another symbol with OUT in error (R250, R275). -/
theorem symbolDone_failed {sym : Sym} {t : State} (h : sym ≠ t.params.eofSym) (ho : t.outErr = true) :
    symbolDone (.ok sym t) = .next (raise .ioFailure .bitDecode { t with result0 := sym.zeroExtend 32 }) := by
  rw [symbolDone, if_neg h, pushOut, if_pos ho, finish]

/-- Settles O44: the walk reads the leaf's path, and its symbol goes to OUT or ends the stream. -/
theorem decSymbolReadsOneCode : Obligations.DecSymbolReadsOneCode := by
  intro s root sym path more ht he h8 hp hu
  obtain ⟨t, hwalk, ⟨hf, hmore, _, hpop⟩, hnil, hcons⟩ := walk_path .decSymbol root s sym path more h8 hp hu
  have hparams : t.params = s.params := by rw [hf]
  have houtErr : t.outErr = s.outErr := by rw [hf]
  rw [exec_decSymbol ht he, hwalk, ← hparams]
  refine ⟨t.rdByte, t.rdCnt, t.inq, fun hs => ?_, fun hs ho => ?_, fun hs ho => ?_, hmore, hpop, hcons, fun h => ?_⟩
  · rw [symbolDone_eof hs, hf]; rfl
  · refine ⟨_, _, ?_, emit_quiet (b := symByte sym)⟩
    rw [symbolDone_pushed hs (houtErr.trans ho), hf]; rfl
  · rw [symbolDone_failed hs (houtErr.trans ho), hf]; rfl
  · rw [hnil h]; exact ⟨rfl, rfl, rfl⟩

/-- Settles O46: the walk stops at the node where the bits run out. -/
theorem decSymbolOnACutCode : Obligations.DecSymbolOnACutCode := by
  intro s root node ht he h8 hn hl
  rw [exec_decSymbol ht he, walk_cut .decSymbol root node s h8 hn hl]
  refine ⟨fun hend => congrArg _ (starve_faulted _ _ ?_), fun hr hend => congrArg _ (starve_waiting _ _ ?_ ?_)⟩
  exacts [hend, hr, hend]

/-! ## Holding -/

theorem blockTurn_hdrCount {s : State} {n : Nat} (hb : s.busy = true) (hr : s.run = .hdrCount n) :
    blockTurn s = .next (settleScan (scanHeader s.inq s.leaves n) s) := by
  simp only [blockTurn, hb, hr, if_true, resumeHdrCount]

theorem blockTurn_hdrSym {s : State} {c : Byte} {n : Nat} (hb : s.busy = true) (hr : s.run = .hdrSym c n) :
    blockTurn s = resumeHdrSym c n s := by
  simp only [blockTurn, hb, hr, if_true]

theorem blockTurn_decSymbol {s : State} {node : Tree} (hb : s.busy = true) (hr : s.run = .decSymbol node) :
    blockTurn s = symbolDone (walk .decSymbol node s) := by
  simp only [blockTurn, hb, hr, if_true, resumeSymbol]

theorem blockTurn_streamNext {s : State} {root : Tree} (hb : s.busy = true) (hr : s.run = .streamNext)
    (ht : s.tree = some root) : blockTurn s = streamDone (walk .streamAt root s) := by
  simp only [blockTurn, hb, hr, if_true, resumeStreamNext, ht]

theorem blockTurn_streamAt {s : State} {node : Tree} (hb : s.busy = true) (hr : s.run = .streamAt node) :
    blockTurn s = streamDone (walk .streamAt node s) := by
  simp only [blockTurn, hb, hr, if_true, resumeStreamAt]

/-- A command that stands where it would hold is as it was. -/
theorem hold_self {s : State} (hb : s.busy = true) {p : Progress} (hr : s.run = p) : hold p s = s := by
  rw [hold, ← hb, ← hr]

/-- A decoder that waits at a node with no bit unread stays there (R78, R83). -/
theorem walk_waiting (mk : Tree → Progress) {node : Tree} {s : State} (hl : isLeaf node = false) (h0 : s.rdCnt = 0)
    (hq : s.inq = []) : walk mk node s = .stop (starve .bitDecode (mk node) s) := by
  cases node with
  | leaf sym w => cases hl
  | internal w c0 c1 =>
    have hu : unreadBits s = [] := by rw [unreadBits, h0, hq]; rfl
    rw [walk, getBit_empty hu]

/-- Settles O50: each waiting position finds nothing to pop and holds again. -/
theorem holdingChangesNothing : Obligations.HoldingChangesNothing := by
  intro s h hb hstart hnext hq he hr
  have hp := h.progress hb
  have hheld : ∀ ph p, s.run = p → starve ph p s = s := fun ph p hrun => by
    rw [starve_waiting ph p hr he, hold_self hb hrun]
  unfold ProgressOk at hp
  cases hrun : s.run <;> simp only [hrun] at hp
  case start => exact absurd hrun hstart
  case streamNext => exact absurd hrun hnext
  case hdrCount n =>
    rw [blockTurn_hdrCount hb hrun, hq, scanHeader_nil, settleScan, ← hq, hheld _ _ hrun]
  case hdrSym c n =>
    simp only [blockTurn_hdrSym hb hrun, resumeHdrSym, hq, hheld _ _ hrun]
  case decSymbol node =>
    obtain ⟨_, _, h0, hl, _⟩ := hp
    rw [blockTurn_decSymbol hb hrun, walk_waiting _ hl h0 hq, symbolDone, hheld _ _ hrun]
  case streamAt node =>
    obtain ⟨_, _, h0, hl, _⟩ := hp
    rw [blockTurn_streamAt hb hrun, walk_waiting _ hl h0 hq, streamDone, hheld _ _ hrun]

end Sys2Proof.Machine
end

section
/-! DEC_STREAM: its loop over whole codes, O48, and how it ends on a finite input, O49. -/

namespace Sys2Proof.Machine

/-! ## A row of bytes on OUT -/

/-- Each byte appended to OUT in turn, by pushes that do not fail (R79). -/
def emitAll (bs : List Byte) (s : State) : State := bs.foldl (fun t b => emit b t) s

@[simp] theorem emitAll_nil (s : State) : emitAll [] s = s := rfl
@[simp] theorem emitAll_cons (b : Byte) (bs : List Byte) (s : State) : emitAll (b :: bs) s = emitAll bs (emit b s) :=
  rfl

/-- Appending bytes changes the OUT stream and nothing else (R79). -/
theorem emitAll_frame (bs : List Byte) (s : State) :
    emitAll bs s = { s with
      outq := s.outq ++ bs, outErr := (emitAll bs s).outErr, outErrAfter := (emitAll bs s).outErrAfter } := by
  induction bs generalizing s with
  | nil => rw [List.append_nil, emitAll_nil]
  | cons b bs ih => rw [emitAll_cons, ih, List.append_cons]; rfl

/-- With no error scheduled, none arrives. -/
theorem emitAll_quiet (bs : List Byte) {s : State} (ha : s.outErrAfter = none) :
    (emitAll bs s).outErr = s.outErr ∧ (emitAll bs s).outErrAfter = none := by
  induction bs generalizing s with
  | nil => exact ⟨rfl, ha⟩
  | cons b bs ih =>
    obtain ⟨he, hn⟩ := emit_quiet (b := b) ha
    exact he ▸ ih hn

/-- An OUT that fails after n + 1 bytes fails after n once one is appended. -/
theorem OutFailsAfter.emit {n : Nat} {s : State} (b : Byte) (h : OutFailsAfter (n + 1) s) :
    OutFailsAfter n (emit b s) ∧ (n = 0 → (Machine.emit b s).outErrAfter = none) := by
  obtain ⟨hn, _⟩ | ⟨he, ha, _⟩ := h
  · cases hn
  · cases n with
    | zero => exact ⟨.inl ⟨rfl, by simp [ha]⟩, fun _ => by simp [Machine.emit, ha]⟩
    | succ n => exact ⟨.inr ⟨by simp [he, ha], by simp [Machine.emit, ha], n.succ_pos⟩, nofun⟩

/-- An OUT that fails after these bytes is in error once they are appended (R77). -/
theorem emitAll_failed (bs : List Byte) {s : State} (h : OutFailsAfter bs.length s) :
    (emitAll bs s).outErr = true ∧ (emitAll bs s).outErrAfter = if bs.length = 0 then s.outErrAfter else none := by
  induction bs generalizing s with
  | nil =>
    obtain ⟨_, he⟩ | ⟨_, _, h0⟩ := h
    · exact ⟨he, rfl⟩
    · cases h0
  | cons b bs ih =>
    obtain ⟨hf, hnone⟩ := h.emit b
    obtain ⟨he, ha⟩ := ih hf
    refine ⟨he, ha.trans ?_⟩
    split
    · next h0 => exact hnone h0
    · rfl

/-- An OUT that fails after n bytes takes n (R77). -/
theorem OutFailsAfter.accepts {n : Nat} {s : State} (h : OutFailsAfter n s) : OutAccepts n s := by
  intro hpos
  obtain ⟨rfl, _⟩ | ⟨he, ha, _⟩ := h
  · cases hpos
  · refine ⟨he, fun k hk => ?_⟩
    cases ha.symm.trans hk
    omega

/-- What is appended to OUT does not depend on the decoder's own elements. -/
theorem emitAll_decoder (bs : List Byte) (s : State) (x : Byte) (n : BitVec 4) (q : List Byte) (r : Word) (d : Nat)
    (b : Bool) (p : Progress) :
    emitAll bs { s with rdByte := x, rdCnt := n, inq := q, result0 := r, draws := d, busy := b, run := p } =
      { emitAll bs s with rdByte := x, rdCnt := n, inq := q, result0 := r, draws := d, busy := b, run := p } := by
  induction bs generalizing s with
  | nil => rfl
  | cons c bs ih => exact ih (emit c s)

/-! ## One turn of the loop -/

/-- The turn that decodes the end-of-stream symbol (R257). -/
theorem streamDone_eof {sym : Sym} {t : State} (h : sym = t.params.eofSym) :
    streamDone (.ok sym t) = .next (complete { t with eos := true }) := by
  rw [streamDone, if_pos h]

/-- The turn that decodes another symbol, into an OUT that takes it (R257). -/
theorem streamDone_pushed {sym : Sym} {t : State} (h : sym ≠ t.params.eofSym) (ho : t.outErr = false) :
    streamDone (.ok sym t) = .next (hold .streamNext (countOutput (emit (symByte sym) t))) := by
  rw [streamDone, if_neg h, pushOut_ok ho]

/-- The turn that decodes another symbol with OUT in error (R257, R275). -/
theorem streamDone_failed {sym : Sym} {t : State} (h : sym ≠ t.params.eofSym) (ho : t.outErr = true) :
    streamDone (.ok sym t) = .next (raise .ioFailure .bitDecode t) := by
  rw [streamDone, if_neg h, pushOut_failed ho]

/-- The count of output bytes, as long as it fits RESULT0 (R257). -/
theorem countOutput_fits {s : State} (h : s.result0.toNat + 1 < 2 ^ 32) :
    (countOutput s).result0 = s.result0 + 1 ∧ (countOutput s).draws = s.draws := by
  have hne : s.result0 ≠ BitVec.allOnes 32 := fun e => by rw [e] at h; simp at h
  rw [countOutput, if_neg hne]
  exact ⟨rfl, rfl⟩

theorem exec_decStream {s : State} {root : Tree} (ht : s.tree = some root) (he : s.eos = false) :
    exec .decStream s = streamDone (walk .streamAt root { s with result0 := 0 }) := by
  simp [exec, execDecStream, ht, he]

/-! ## The loop -/

/-- A turn of DEC_STREAM's loop from `s`, and then `n` turns of the block, lead to `t` (R257; log 8). -/
def StreamRun (root : Tree) (n : Nat) (s t : State) : Prop :=
  ∃ u, streamDone (walk .streamAt root s) = .next u ∧ blockTurns n u = .next t

/-- The run of a turn that ends the command or holds. -/
theorem StreamRun.last {root : Tree} {s t : State} (h : streamDone (walk .streamAt root s) = .next t) :
    StreamRun root 0 s t := ⟨t, h, rfl⟩

/-- The run of a turn that goes on to the next. -/
theorem StreamRun.pushed {root : Tree} {n : Nat} {s t v : State}
    (hs : streamDone (walk .streamAt root s) = .next (hold .streamNext v)) (ht : v.tree = some root)
    (h : StreamRun root n (hold .streamNext v) t) : StreamRun root (n + 1) s t := by
  obtain ⟨u, hu, hrest⟩ := h
  refine ⟨_, hs, ?_⟩
  rw [blockTurns, blockTurn_streamNext (s := hold .streamNext v) rfl rfl ht, hu]
  exact hrest

/-- `t` is `s` after DEC_STREAM decoded and pushed `bytes`, with `more` unread: OUT, the unpacker, IN, the count and the
command's position moved (R257). -/
structure Streamed (bytes : List Byte) (s : State) (more : List Bool) (t : State) : Prop where
  frame : t = { emitAll bytes s with
    rdByte := t.rdByte, rdCnt := t.rdCnt, inq := t.inq, result0 := t.result0, draws := t.draws, busy := t.busy,
    run := t.run }
  unread : unreadBits t = more
  inRange : t.rdCnt.toNat ≤ 8
  popped : Popped s t
  counted : s.result0.toNat + bytes.length < 2 ^ 32 →
    t.result0 = s.result0 + BitVec.ofNat 32 bytes.length ∧ t.draws = s.draws
  unchanged : bytes = [] → t = s

theorem Streamed.refl {s : State} (h8 : s.rdCnt.toNat ≤ 8) : Streamed [] s (unreadBits s) s where
  frame := rfl
  unread := rfl
  inRange := h8
  popped := .refl rfl rfl
  counted := fun _ => ⟨by simp, rfl⟩
  unchanged := fun _ => rfl

/-- The state after a turn that decoded and pushed a byte (R257). -/
theorem Streamed.byte {s v : State} {more : List Bool} (b : Byte) (h : Consumed s more v) :
    Streamed [b] s more (hold .streamNext (countOutput (emit b v))) := by
  obtain ⟨hf, hmore, h8, hpop⟩ := h
  have hc := countOutput_frame (emit b v)
  refine { frame := ?_, unread := ?_, inRange := ?_, popped := ?_, counted := fun hfit => ?_, unchanged := nofun }
  · rw [hc, hf]; rfl
  · rw [hc]; exact hmore
  · rw [hc]; exact h8
  · rw [hc]; exact hpop
  · have hr : (emit b v).result0 = s.result0 := by rw [hf]; rfl
    have hd : (emit b v).draws = s.draws := by rw [hf]; rfl
    rw [← hr, ← hd]
    exact countOutput_fits (hr ▸ hfit)

theorem Streamed.trans {b1 b2 : List Byte} {s t u : State} {m1 m2 : List Bool} (h1 : Streamed b1 s m1 t)
    (h2 : Streamed b2 t m2 u) : Streamed (b1 ++ b2) s m2 u where
  frame := by
    rw [h2.frame, h1.frame, emitAll_decoder]
    simp only [emitAll, List.foldl_append]
  unread := h2.unread
  inRange := h2.inRange
  popped := h1.popped.trans h2.popped
  counted := fun hfit => by
    rw [List.length_append] at hfit
    obtain ⟨r1, d1⟩ := h1.counted (by omega)
    have hlt : t.result0.toNat + b2.length < 2 ^ 32 := by
      rw [r1, BitVec.toNat_add, BitVec.toNat_ofNat]
      omega
    obtain ⟨r2, d2⟩ := h2.counted hlt
    rw [r2, r1, d2, d1, List.length_append, BitVec.ofNat_add, BitVec.add_assoc]
    exact ⟨rfl, rfl⟩
  unchanged := fun h => by
    obtain ⟨e1, e2⟩ := List.append_eq_nil_iff.mp h
    rw [h2.unchanged e2, h1.unchanged e1]

/-- The same state as an update of `s`, with the bytes on OUT. -/
theorem Streamed.state_eq {bytes : List Byte} {s t : State} {more : List Bool} (h : Streamed bytes s more t) :
    t = { s with
      rdByte := t.rdByte, rdCnt := t.rdCnt, inq := t.inq, outq := s.outq ++ bytes, outErr := t.outErr,
      outErrAfter := t.outErrAfter, result0 := t.result0, draws := t.draws, busy := t.busy, run := t.run } := by
  rw [h.frame, emitAll_frame]

/-- OUT's error state depends on the bytes pushed alone (R77). -/
theorem Streamed.outErr_eq {bytes : List Byte} {s t : State} {more : List Bool} (h : Streamed bytes s more t) :
    t.outErr = (emitAll bytes s).outErr ∧ t.outErrAfter = (emitAll bytes s).outErrAfter := by
  rw [h.frame]
  exact ⟨rfl, rfl⟩

/-- With no error scheduled, none arrives. -/
theorem Streamed.quiet {bytes : List Byte} {s t : State} {more : List Bool} (h : Streamed bytes s more t)
    (ha : s.outErrAfter = none) : t.outErr = s.outErr ∧ t.outErrAfter = none := by
  obtain ⟨herr, hafter⟩ := h.outErr_eq
  rw [herr, hafter]
  exact emitAll_quiet bytes ha

/-- The number of bytes a DEC_STREAM pushed since its start, as long as it fits (R257). -/
theorem Streamed.result0_eq {bytes : List Byte} {s t : State} {more : List Bool}
    (h : Streamed bytes { s with result0 := 0 } more t) (hfit : bytes.length < 2 ^ 32) :
    t.result0 = BitVec.ofNat 32 bytes.length ∧ t.draws = s.draws := by
  obtain ⟨hr, hd⟩ := h.counted ((Nat.zero_add _).trans_lt hfit)
  exact ⟨hr.trans (BitVec.zero_add _), hd⟩

/-- DEC_STREAM over unread bits that begin with the codes of `syms`, into an OUT that takes them: a turn a symbol, after
which it goes on from where they end (R257; log 8). -/
theorem streamRun_symbols {root : Tree} {more : List Bool} (syms : List (Sym × List Bool)) {s : State}
    (ht : s.tree = some root) (h8 : s.rdCnt.toNat ≤ 8) (ho : OutAccepts syms.length s)
    (hp : ∀ p ∈ syms, p ∈ treePaths root ∧ p.1 ≠ s.params.eofSym) (hu : unreadBits s = syms.flatMap (·.2) ++ more) :
    ∃ v, Streamed (syms.map fun p => symByte p.1) s more v ∧
      ∀ n t, StreamRun root n v t → StreamRun root (syms.length + n) s t := by
  induction syms generalizing s with
  | nil =>
    obtain rfl : unreadBits s = more := hu
    exact ⟨s, .refl h8, fun n t h => by rwa [List.length_nil, Nat.zero_add]⟩
  | cons p syms ih =>
    obtain ⟨sym, path⟩ := p
    obtain ⟨hpath, hsym⟩ := hp _ List.mem_cons_self
    rw [List.flatMap_cons, List.append_assoc] at hu
    obtain ⟨v, hwalk, hv, _⟩ := walk_path .streamAt root s sym path _ h8 hpath hu
    have hturn : streamDone (walk .streamAt root s) =
        .next (hold .streamNext (countOutput (emit (symByte sym) v))) := by
      rw [hwalk]
      refine streamDone_pushed ?_ ?_ <;> rw [hv.1]
      exacts [hsym, (ho (Nat.succ_pos _)).1]
    have hfirst := Streamed.byte (symByte sym) hv
    have htree := congrArg State.tree hfirst.state_eq
    have hparams := congrArg State.params hfirst.state_eq
    obtain ⟨herr, hafter⟩ := hfirst.outErr_eq
    obtain ⟨w, hw, hrun⟩ := ih (htree.trans ht) hfirst.inRange ((ho.emit (symByte sym)).congr herr hafter)
      (hparams ▸ fun q hq => hp q (List.mem_cons_of_mem _ hq)) hfirst.unread
    refine ⟨w, hfirst.trans hw, fun n t h => ?_⟩
    rw [List.length_cons, Nat.add_right_comm]
    exact .pushed hturn (htree.trans ht) (hrun n t h)

/-- A tree with a path of no branch is a leaf, and that is its only path. -/
theorem treePaths_of_nil_mem {root : Tree} {sym : Sym} (h : (sym, []) ∈ treePaths root) :
    isLeaf root = true ∧ treePaths root = [(sym, [])] := by
  cases root with
  | leaf s w => exact ⟨rfl, by simpa [treePaths, eq_comm] using h⟩
  | internal w c0 c1 => simp [treePaths] at h

/-- The loop over the codes of `syms` and then the end-of-stream code (R257). -/
theorem streamRun_end {root : Tree} {syms : List (Sym × List Bool)} {last more : List Bool} {s : State}
    (ht : s.tree = some root) (h8 : s.rdCnt.toNat ≤ 8) (ho : OutAccepts syms.length s)
    (hp : ∀ p ∈ syms, p ∈ treePaths root ∧ p.1 ≠ s.params.eofSym) (hlast : (s.params.eofSym, last) ∈ treePaths root)
    (hu : unreadBits s = syms.flatMap (·.2) ++ (last ++ more)) :
    ∃ v w, Streamed (syms.map fun p => symByte p.1) s (last ++ more) v ∧ Consumed v more w ∧ (last = [] → w = v) ∧
      (last ≠ [] → w.rdCnt.toNat ≤ 7) ∧ StreamRun root syms.length s (complete { w with eos := true }) := by
  obtain ⟨v, hv, hrun⟩ := streamRun_symbols syms ht h8 ho hp hu
  obtain ⟨w, hwalk, hw, hnil, hcons⟩ := walk_path .streamAt root v _ last more hv.inRange hlast hv.unread
  have hturn : streamDone (walk .streamAt root v) = .next (complete { w with eos := true }) := by
    rw [hwalk]
    refine streamDone_eof ?_
    rw [hw.1, hv.state_eq]
  exact ⟨v, w, hv, hw, hnil, hcons, hrun 0 _ (.last hturn)⟩

/-- The loop over the codes of `syms` where the bits then run out at the internal node `node` (R252, R257). -/
theorem streamRun_cut {root node : Tree} {syms : List (Sym × List Bool)} {more : List Bool} {s : State}
    (ht : s.tree = some root) (h8 : s.rdCnt.toNat ≤ 8) (ho : OutAccepts syms.length s)
    (hp : ∀ p ∈ syms, p ∈ treePaths root ∧ p.1 ≠ s.params.eofSym) (hu : unreadBits s = syms.flatMap (·.2) ++ more)
    (hn : nodeAt root more = some node) (hl : isLeaf node = false) :
    ∃ v, Streamed (syms.map fun p => symByte p.1) s more v ∧
      StreamRun root syms.length s (starve .bitDecode (.streamAt node)
        { v with rdByte := s.inq.getLastD s.rdByte, rdCnt := 0, inq := [] }) := by
  obtain ⟨v, hv, hrun⟩ := streamRun_symbols syms ht h8 ho hp hu
  obtain ⟨bytes, hq, hbyte⟩ := hv.popped
  refine ⟨v, hv, hrun 0 _ (.last ?_)⟩
  rw [walk_cut .streamAt root node v hv.inRange (hv.unread.symm ▸ hn) hl, streamDone, hbyte, ← getLastD_append, ← hq]

/-- The loop over the codes of `syms` and then that of `p`, where OUT fails after `syms` (R257, R275). -/
theorem streamRun_failed {root : Tree} {syms : List (Sym × List Bool)} {p : Sym × List Bool} {more : List Bool}
    {s : State} (ht : s.tree = some root) (h8 : s.rdCnt.toNat ≤ 8) (hf : OutFailsAfter syms.length s)
    (hp : ∀ q ∈ syms ++ [p], q ∈ treePaths root ∧ q.1 ≠ s.params.eofSym)
    (hu : unreadBits s = syms.flatMap (·.2) ++ (p.2 ++ more)) :
    ∃ v w, Streamed (syms.map fun q => symByte q.1) s (p.2 ++ more) v ∧ v.outErr = true ∧
      v.outErrAfter = (if syms.length = 0 then s.outErrAfter else none) ∧ Consumed v more w ∧
      (p.2 ≠ [] → w.rdCnt.toNat ≤ 7) ∧ StreamRun root syms.length s (raise .ioFailure .bitDecode w) := by
  obtain ⟨v, hv, hrun⟩ := streamRun_symbols syms ht h8 hf.accepts (fun q hq => hp q (List.mem_append_left _ hq)) hu
  obtain ⟨hpath, hsym⟩ := hp p (List.mem_append_right _ List.mem_cons_self)
  obtain ⟨w, hwalk, hw, _, hcons⟩ := walk_path .streamAt root v p.1 p.2 more hv.inRange hpath hv.unread
  obtain ⟨herr, hafter⟩ := hv.outErr_eq
  have hfail := emitAll_failed (syms.map fun q => symByte q.1) (s := s) (by rwa [List.length_map])
  rw [← herr, ← hafter, List.length_map] at hfail
  have hturn : streamDone (walk .streamAt root v) = .next (raise .ioFailure .bitDecode w) := by
    rw [hwalk]
    refine streamDone_failed ?_ ?_ <;> rw [hw.1]
    · rw [hv.state_eq]; exact hsym
    · exact hfail.1
  exact ⟨v, w, hv, hfail.1, hfail.2, hw, hcons, hrun 0 _ (.last hturn)⟩

/-- DEC_STREAM is a run from the root with RESULT0 = 0 (R257). -/
theorem StreamRun.exec {root : Tree} {n : Nat} {s t : State} (ht : s.tree = some root) (he : s.eos = false)
    (h : StreamRun root n { s with result0 := 0 } t) : ∃ u, exec .decStream s = .next u ∧ blockTurns n u = .next t := by
  obtain ⟨u, hu, hrest⟩ := h
  exact ⟨u, (exec_decStream ht he).trans hu, hrest⟩

/-- Settles O48: the loop over the symbols, and then the turn that decodes the end-of-stream symbol. -/
theorem decStreamDecodesToTheEnd : Obligations.DecStreamDecodesToTheEnd := by
  intro s root syms last more ht he h8 ho hp hlast hu
  obtain ⟨v, w, hv, ⟨hw, hmore, _, hpop⟩, hnil, hcons, hrun⟩ :=
    streamRun_end (s := { s with result0 := 0 }) ht h8 ho hp hlast hu
  obtain ⟨u, hfirst, hrest⟩ := hrun.exec ht he
  refine ⟨u, complete { w with eos := true }, hfirst, hrest, ?_, hmore, hv.popped.trans hpop, hcons, fun hl => ?_,
    fun hlen => ?_, fun ha => ?_, ?_⟩
  · rw [hw, hv.state_eq]; rfl
  · subst hl
    have hsyms : syms = [] := List.eq_nil_iff_forall_not_mem.mpr fun p hm => by
      obtain ⟨hpath, hne⟩ := hp p hm
      rw [(treePaths_of_nil_mem hlast).2] at hpath
      exact hne (by rw [List.mem_singleton.mp hpath])
    rw [hnil rfl, hv.unchanged (by rw [hsyms]; rfl)]
    exact ⟨rfl, rfl⟩
  · rw [hw]
    simpa using hv.result0_eq (by simpa using hlen)
  · rw [hw]
    exact hv.quiet ha
  · rw [hw, hv.state_eq]; rfl

/-! ## Its ends on a finite input -/

/-- An idle block stays as it is (R287). -/
theorem blockTurns_idle {s : State} (hb : s.busy = false) (n : Nat) : blockTurns n s = .next s := by
  induction n with
  | zero => rfl
  | succ n ih =>
    have hturn : blockTurn s = .next s := by simp [blockTurn, hb]
    rw [blockTurns, hturn]
    exact ih

/-- DEC_STREAM is running, at `node` or at the head of its loop (R257). -/
def StreamingFrom (node : Tree) (s : State) : Prop :=
  s.busy = true ∧ (s.run = .streamAt node ∨ (s.run = .streamNext ∧ s.tree = some node))

theorem StreamingFrom.blockTurn {node : Tree} {s : State} (h : StreamingFrom node s) :
    blockTurn s = streamDone (walk .streamAt node s) := by
  obtain ⟨hb, hr | ⟨hr, ht⟩⟩ := h
  · exact blockTurn_streamAt hb hr
  · exact blockTurn_streamNext hb hr ht

/-- DEC_STREAM in a state of the invariant goes on from some node, and that node is no leaf but the end-of-stream one of
an empty LEAVES (R175, R251). -/
theorem Inv.streamingFrom {s : State} (h : Inv s) (hb : s.busy = true)
    (hr : s.run = .streamNext ∨ ∃ node, s.run = .streamAt node) :
    ∃ node, StreamingFrom node s ∧ ∀ sym, (sym, []) ∈ treePaths node → sym = s.params.eofSym := by
  have hp := h.progress hb
  rcases hr with hr | ⟨node, hr⟩ <;> simp only [ProgressOk, hr] at hp
  · obtain ⟨root, ht⟩ := Option.isSome_iff_exists.mp hp.2.2
    refine ⟨root, ⟨hb, .inr ⟨hr, ht⟩⟩, fun sym hs => ?_⟩
    obtain ⟨_, rfl⟩ := h.treeBuilt root ht
    obtain ⟨hl, hpath⟩ := treePaths_of_nil_mem hs
    obtain ⟨_, _, _, _, _, hempty⟩ := buildTree_shape s.params.eofSym h.leavesLength h.leavesOk
    rw [hempty.mp hl] at hpath
    exact (congrArg Prod.fst (List.head_eq_of_cons_eq hpath)).symm
  · obtain ⟨_, _, _, hl, _⟩ := hp
    exact ⟨node, ⟨hb, .inl hr⟩, fun sym hs => nomatch hl.symm.trans (treePaths_of_nil_mem hs).1⟩

/-- A running DEC_STREAM with IN ended or in error takes one turn for every unread bit and one more at the most: each
turn that does not end it reads a bit or more (R256). -/
theorem decStream_ends (n : Nat) {s : State} (h : Inv s) (hb : s.busy = true)
    (hr : s.run = .streamNext ∨ ∃ node, s.run = .streamAt node) (hin : s.inEnd = true ∨ s.inErr = true)
    (hn : (unreadBits s).length < n) :
    ∃ t, blockTurns n s = .next t ∧ t.busy = false ∧ (t.eos = true ∨ t.fault = true) := by
  induction n generalizing s with
  | zero => cases hn
  | succ n ih =>
    obtain ⟨node, hfrom, hleaf⟩ := h.streamingFrom hb hr
    have hturn := hfrom.blockTurn
    suffices ∃ u, blockTurn s = .next u ∧ ((u.busy = false ∧ (u.eos = true ∨ u.fault = true)) ∨
        (u.busy = true ∧ u.run = .streamNext ∧ (u.inEnd = true ∨ u.inErr = true) ∧
          (unreadBits u).length < (unreadBits s).length)) by
      obtain ⟨u, hu, ⟨hub, hend⟩ | ⟨hub, hur, hui, hlt⟩⟩ := this
      · exact ⟨u, by rw [blockTurns, hu]; exact blockTurns_idle hub n, hub, hend⟩
      · obtain ⟨t, ht, hend⟩ := ih (blockTurn_inv h hu) hub (.inl hur) hui (by omega)
        exact ⟨t, by rw [blockTurns, hu]; exact ht, hend⟩
    rw [hturn]
    rcases path_or_cut node (unreadBits s) with ⟨sym, path, more, hpath, hu⟩ | ⟨below, hcut, hl⟩
    · obtain ⟨v, hwalk, ⟨hv, hmore, _, _⟩, _, _⟩ := walk_path .streamAt node s sym path more h.unread hpath hu
      rw [hwalk]
      by_cases hs : sym = v.params.eofSym
      · exact ⟨_, streamDone_eof hs, .inl ⟨rfl, .inl rfl⟩⟩
      · cases ho : v.outErr with
        | true => exact ⟨_, streamDone_failed hs ho, .inl ⟨rfl, .inr rfl⟩⟩
        | false =>
          have hpos : path ≠ [] := fun e => hs (by rw [hv]; exact hleaf sym (e ▸ hpath))
          refine ⟨_, streamDone_pushed hs ho, .inr ⟨rfl, rfl, ?_, ?_⟩⟩
          · rw [countOutput_frame, hv]; exact hin
          · have hless : more.length < (unreadBits s).length := by
              rw [hu, List.length_append]
              exact Nat.lt_add_of_pos_left (List.length_pos_iff.mpr hpos)
            rw [countOutput_frame]
            exact hmore ▸ hless
    · rw [walk_cut .streamAt node below s h.unread hcut hl]
      refine ⟨_, rfl, .inl ?_⟩
      rw [starve_faulted]
      exacts [⟨rfl, .inr rfl⟩, hin.symm]

/-- Settles O49: a turn reads a bit or is the last; past the whole codes the walk stops at an internal node, or OUT
fails the push of a symbol. -/
theorem decStreamEndsOnAFiniteInput : Obligations.DecStreamEndsOnAFiniteInput := by
  refine ⟨fun s h hb hr hin => decStream_ends _ h hb hr hin (Nat.lt_succ_self _),
    fun s root syms more ht he h8 hp hu => ⟨fun node hn hl ho => ?_, fun n hlt hf => ?_⟩⟩
  · obtain ⟨v, hv, hrun⟩ := streamRun_cut (s := { s with result0 := 0 }) ht h8 ho hp hu hn hl
    obtain ⟨u, hfirst, hrest⟩ := hrun.exec ht he
    refine ⟨u, _, v.outErr, v.outErrAfter, v.result0, v.draws, hfirst, hrest,
      fun hend => ?_, fun hr hend => ?_, fun hlen => ?_, hv.quiet⟩
    · rw [hv.state_eq]
      exact starve_faulted _ _ hend
    · rw [hv.state_eq]
      exact starve_waiting _ _ hr hend
    · simpa using hv.result0_eq (by simpa using hlen)
  · obtain ⟨front, p, back, rfl, rfl⟩ : ∃ front p back, syms = front ++ p :: back ∧ n = front.length :=
      ⟨syms.take n, syms[n], syms.drop (n + 1), by rw [← List.drop_eq_getElem_cons hlt, List.take_append_drop],
        (List.length_take_of_le hlt.le).symm⟩
    have hdrop : (front ++ p :: back).drop (front.length + 1) = back := by simp
    rw [List.take_left, hdrop]
    have hu' : unreadBits s = front.flatMap (·.2) ++ (p.2 ++ (back.flatMap (·.2) ++ more)) := by simp [hu]
    have hmem : ∀ q ∈ front ++ [p], q ∈ front ++ p :: back := fun q hq => by
      rw [List.append_cons]
      exact List.mem_append_left _ hq
    obtain ⟨v, w, hv, herr, hafter, ⟨hw, hmore, _, hpop⟩, hcons, hrun⟩ :=
      streamRun_failed (s := { s with result0 := 0 }) ht h8 hf (fun q hq => hp q (hmem q hq)) hu'
    obtain ⟨u, hfirst, hrest⟩ := hrun.exec ht he
    refine ⟨u, raise .ioFailure .bitDecode w, hfirst, hrest, fun hfit => ?_, hmore, hv.popped.trans hpop,
      fun hroot => hcons fun hnil => ?_, ?_⟩
    · rw [hw]
      simpa using hv.result0_eq (by simpa using hfit)
    · have hpath := (hp p (by simp)).1
      rw [← Prod.mk.eta (p := p), hnil] at hpath
      exact nomatch hroot.symm.trans (treePaths_of_nil_mem hpath).1
    · rw [hw, hv.state_eq, herr, hafter]
      rfl

end Sys2Proof.Machine
end

section
/-! O51: a command that holds, given more bytes, goes on as it would have with all of them at once (R80). -/

namespace Sys2Proof.Machine

/-! ## HDR_PARSE -/

/-- Where a scan ends, what LEAVES, IN and the running command were before does not matter (R211). -/
theorem settleScan_congr (r : HdrScan) (s : State) (q : List Byte) (ls : List LeafEntry) (b : Bool) (p : Progress) :
    settleScan r { s with inq := q, leaves := ls, busy := b, run := p } = settleScan r s := by
  cases r <;> rfl

/-- HDR_PARSE's loop that held goes on with the bytes supplied as with all of them (R80, R211). -/
theorem settleScan_resumes {q bytes : List Byte} {leaves : List LeafEntry} {n : Nat} {s : State} (he : s.inEnd = false)
    (hr : s.inErr = false) (hb : (settleScan (scanHeader q leaves n) s).busy = true) :
    blockTurn { settleScan (scanHeader q leaves n) s with inq := bytes } =
      .next (settleScan (scanHeader (q ++ bytes) leaves n) s) := by
  rw [scanHeader_more]
  cases hscan : scanHeader q leaves n <;> rw [hscan] at hb
  case sentinel ls m rest => cases hb
  case overflow ls rest => cases hb
  case wantCount ls m =>
    have hheld : settleScan (.wantCount ls m) s = hold (.hdrCount m) { s with inq := [], leaves := ls } :=
      starve_waiting _ _ hr he
    rw [hheld, blockTurn_hdrCount rfl rfl]
    exact congrArg _ (settleScan_congr _ _ _ _ _ _)
  case wantSym ls c m =>
    have hheld : settleScan (.wantSym ls c m) s = hold (.hdrSym c m) { s with inq := [], leaves := ls } :=
      starve_waiting _ _ hr he
    rw [hheld, blockTurn_hdrSym rfl rfl]
    cases bytes with
    | nil => exact congrArg _ (settleScan_congr (.wantSym ls c m) _ _ _ _ _)
    | cons sym rest => exact congrArg _ (settleScan_congr _ _ _ _ _ _)

/-- HDR_PARSE that waits for a symbol byte and holds again, or goes on and holds later, resumes alike (R80, R211). -/
theorem resumeHdrSym_resumes {c : Byte} {n : Nat} {s u : State} {bytes : List Byte} (he : s.inEnd = false)
    (hr : s.inErr = false) (hu : resumeHdrSym c n s = .next u) (hb : u.busy = true) :
    blockTurn { u with inq := bytes } = resumeHdrSym c n { s with inq := s.inq ++ bytes } := by
  cases hq : s.inq with
  | nil =>
    simp only [resumeHdrSym, hq, starve_waiting _ _ hr he] at hu
    cases hu
    rw [blockTurn_hdrSym rfl rfl]
    cases bytes with
    | nil => rfl
    | cons sym rest =>
      exact congrArg Host.Outcome.next ((settleScan_congr _ s (sym :: rest) s.leaves true (.hdrSym c n)).trans
        (settleScan_congr _ s (sym :: rest) s.leaves s.busy s.run).symm)
  | cons sym rest =>
    simp only [resumeHdrSym, hq] at hu
    cases hu
    rw [settleScan_resumes he hr hb]
    exact congrArg _ (settleScan_congr _ s _ s.leaves s.busy s.run).symm

/-! ## The decoders -/

/-- The same end of a piece, with the command standing at `p` where it goes on (R80). -/
def Flow.holding {α : Type} (p : Progress) : Flow α → Flow α
  | .ok a s => .ok a (hold p s)
  | .stop s => .stop s

/-- GetBit does not depend on where the command stands, and where it stops it sets that (R78, R83). -/
theorem getBit_hold (ph : Phase) (q p : Progress) (s : State) :
    getBit ph q (hold p s) = (getBit ph q s).holding p := by
  by_cases h0 : s.rdCnt = 0
  · have h0' : (hold p s).rdCnt = 0 := h0
    rw [getBit, getBit, if_pos h0, if_pos h0']
    cases hq : s.inq with
    | nil => rw [popIn_nil hq, popIn_nil (s := hold p s) hq]; rfl
    | cons b rest => rw [popIn_cons hq, popIn_cons (s := hold p s) hq]; rfl
  · have h0' : ¬ (hold p s).rdCnt = 0 := h0
    rw [getBit, getBit, if_neg h0, if_neg h0']
    rfl

theorem walk_hold (mk : Tree → Progress) (p : Progress) (node : Tree) (s : State) :
    walk mk node (hold p s) = (walk mk node s).holding p := by
  induction node generalizing s with
  | leaf sym w => rfl
  | internal w c0 c1 ih0 ih1 =>
    rw [walk, walk, getBit_hold]
    cases getBit .bitDecode (mk (.internal w c0 c1)) s with
    | stop t => rfl
    | ok x t => cases x <;> [exact ih0 t; exact ih1 t]

/-- DEC_SYMBOL after its walk ends the command wherever it stood. -/
theorem symbolDone_holding (p : Progress) (r : Flow Sym) : symbolDone (r.holding p) = symbolDone r := by
  cases r with
  | stop t => rfl
  | ok sym t =>
    rw [Flow.holding]
    by_cases hs : sym = t.params.eofSym
    · rw [symbolDone_eof hs, symbolDone_eof (t := hold p t) hs]; rfl
    · cases ho : t.outErr with
      | true => rw [symbolDone_failed hs ho, symbolDone_failed (t := hold p t) hs ho]; rfl
      | false => rw [symbolDone_pushed hs ho, symbolDone_pushed (t := hold p t) hs ho]; rfl

theorem countOutput_hold (p q : Progress) (s : State) : hold q (countOutput (hold p s)) = hold q (countOutput s) := by
  by_cases h : s.result0 = BitVec.allOnes 32
  · have h' : (hold p s).result0 = BitVec.allOnes 32 := h
    rw [countOutput, countOutput, if_pos h, if_pos h']; rfl
  · have h' : ¬ (hold p s).result0 = BitVec.allOnes 32 := h
    rw [countOutput, countOutput, if_neg h, if_neg h']; rfl

/-- DEC_STREAM after its walk stands at the head of its loop, or the command ends. -/
theorem streamDone_holding (p : Progress) (r : Flow Sym) : streamDone (r.holding p) = streamDone r := by
  cases r with
  | stop t => rfl
  | ok sym t =>
    rw [Flow.holding]
    by_cases hs : sym = t.params.eofSym
    · rw [streamDone_eof hs, streamDone_eof (t := hold p t) hs]; rfl
    · cases ho : t.outErr with
      | true => rw [streamDone_failed hs ho, streamDone_failed (t := hold p t) hs ho]; rfl
      | false =>
        rw [streamDone_pushed hs ho, streamDone_pushed (t := hold p t) hs ho]
        exact congrArg _ (countOutput_hold p .streamNext (emit (symByte sym) t))

/-- DEC_SYMBOL that held goes on with the bytes supplied as with all of them (R80). -/
theorem symbolDone_resumes {node : Tree} {s u : State} {bytes : List Byte} (he : s.inEnd = false)
    (hr : s.inErr = false) (hu : symbolDone (walk .decSymbol node s) = .next u) (hb : u.busy = true) :
    blockTurn { u with inq := bytes } = symbolDone (walk .decSymbol node { s with inq := s.inq ++ bytes }) := by
  cases hw : walk .decSymbol node s with
  | ok sym t =>
    rw [hw] at hu
    by_cases hs : sym = t.params.eofSym
    · rw [symbolDone_eof hs] at hu; cases hu; cases hb
    · cases ho : t.outErr with
      | true => rw [symbolDone_failed hs ho] at hu; cases hu; cases hb
      | false => rw [symbolDone_pushed hs ho] at hu; cases hu; cases hb
  | stop t =>
    rw [hw] at hu
    cases hu
    obtain ⟨below, v, rfl, _, hmore⟩ := (walk_more .decSymbol node s bytes he hr).2 _ hw
    rw [blockTurn_decSymbol rfl rfl, hmore]
    calc symbolDone (walk .decSymbol below (hold (.decSymbol below) { v with inq := bytes }))
        = symbolDone (walk .decSymbol below { v with inq := bytes }) := by rw [walk_hold, symbolDone_holding]

/-- DEC_STREAM that held goes on with the bytes supplied as with all of them (R80). -/
theorem streamDone_resumes {node : Tree} {s u : State} {bytes : List Byte} (he : s.inEnd = false)
    (hr : s.inErr = false) (hu : streamDone (walk .streamAt node s) = .next u) (hb : u.busy = true)
    (hrun : u.run ≠ .streamNext) :
    blockTurn { u with inq := bytes } = streamDone (walk .streamAt node { s with inq := s.inq ++ bytes }) := by
  cases hw : walk .streamAt node s with
  | ok sym t =>
    rw [hw] at hu
    by_cases hs : sym = t.params.eofSym
    · rw [streamDone_eof hs] at hu; cases hu; cases hb
    · cases ho : t.outErr with
      | true => rw [streamDone_failed hs ho] at hu; cases hu; cases hb
      | false => rw [streamDone_pushed hs ho] at hu; cases hu; exact absurd rfl hrun
  | stop t =>
    rw [hw] at hu
    cases hu
    obtain ⟨below, v, rfl, _, hmore⟩ := (walk_more .streamAt node s bytes he hr).2 _ hw
    rw [blockTurn_streamAt rfl rfl, hmore]
    calc streamDone (walk .streamAt below (hold (.streamAt below) { v with inq := bytes }))
        = streamDone (walk .streamAt below { v with inq := bytes }) := by rw [walk_hold, streamDone_holding]

/-! ## The commands that can hold -/

/-- A piece that writes leaves no command running (R79). -/
theorem finish_idle {ph : Phase} {s t : State} {r : Flow Unit} (hr : WritesOrFails ph s r) (ht : finish r = .next t) :
    t.busy = false := by
  rcases hr.cases with ⟨u, rfl, _⟩ | ⟨u, rfl, _⟩ <;> cases ht <;> rfl

theorem encodeSym_idle {sym : Sym} {s t : State} (ht : encodeSym sym s = .next t) : t.busy = false := by
  rw [encodeSym] at ht
  split at ht
  · split at ht
    · exact finish_idle (putBits_writes _ _ _ s) ht
    · cases ht; rfl
  · cases ht; rfl

/-- Only the commands that read IN can be running after their first step (R78, R80). -/
theorem reads_of_busy {i : Instr} {s u : State} (hu : exec i s = .next u) (hb : u.busy = true) :
    i = .hdrParse ∨ i = .decSymbol ∨ i = .decStream := by
  cases i with
  | hdrParse => exact .inl rfl
  | decSymbol => exact .inr (.inl rfl)
  | decStream => exact .inr (.inr rfl)
  | nop => cases hu; cases hb
  | softReset => cases hu; cases hb
  | freqClear => cases hu; cases hb
  | freqAccum b => cases hu; cases hb
  | freqRead b => cases hu; cases hb
  | treeRelease => cases hu; cases hb
  | treeBuild src =>
    cases src with
    | freq => cases hu; cases hb
    | hdr => rw [exec, execTreeBuild] at hu; split at hu <;> cases hu <;> cases hb
  | codeDerive =>
    rw [exec, execCodeDerive] at hu
    split at hu
    · cases hu; cases hb
    · split at hu <;> cases hu <;> cases hb
  | codeRead sym => rw [exec, execCodeRead] at hu; split at hu <;> cases hu <;> cases hb
  | leafRead b =>
    rw [exec, execLeafRead] at hu
    split at hu
    · split at hu <;> cases hu <;> cases hb
    · cases hu; cases hb
  | hdrEmit =>
    rw [exec, execHdrEmit] at hu
    split at hu
    · rcases (pushAll_writes .headerWrite (headerBytes (headerPairs s.freq)) s).cases with
        ⟨_, hr, _⟩ | ⟨_, hr, _⟩ <;> rw [hr] at hu <;> cases hu <;> cases hb
    · cases hu; cases hb
  | encByte b => exact nomatch hb.symm.trans (encodeSym_idle hu)
  | encEof => exact nomatch hb.symm.trans (encodeSym_idle hu)
  | encFlush =>
    rw [exec, execEncFlush] at hu
    split at hu
    · cases hu; cases hb
    · rcases (pushOut_writes .flush s.wrRack s).cases with ⟨_, hr, _⟩ | ⟨_, hr, _⟩ <;> rw [hr] at hu <;> cases hu <;>
        cases hb

/-- A first step that held goes on as the command does with all the bytes (R80). -/
theorem exec_resumes {i : Instr} {s u : State} {bytes : List Byte} (he : s.inEnd = false) (hr : s.inErr = false)
    (hu : exec i s = .next u) (hb : u.busy = true) (hrun : u.run ≠ .streamNext) :
    blockTurn { u with inq := bytes } = exec i { s with inq := s.inq ++ bytes } := by
  rcases reads_of_busy hu hb with rfl | rfl | rfl
  · cases hu
    rw [settleScan_resumes (s := { s with rdCnt := 0, tree := none, eos := false, leaves := [], leavesValid := false })
      he hr hb]
    exact congrArg _ (settleScan_congr _ _ _ [] s.busy s.run).symm
  · rw [exec, execDecSymbol] at hu
    split at hu
    · cases hu; cases hb
    · next root ht =>
      split at hu
      · cases hu; cases hb
      · next heos =>
        rw [symbolDone_resumes he hr hu hb]
        exact (exec_decSymbol (s := { s with inq := s.inq ++ bytes }) ht (by simpa using heos)).symm
  · rw [exec, execDecStream] at hu
    split at hu
    · cases hu; cases hb
    · next root ht =>
      split at hu
      · cases hu; cases hb
      · next heos =>
        rw [streamDone_resumes (s := { s with result0 := 0 }) he hr hu hb hrun]
        exact (exec_decStream (s := { s with inq := s.inq ++ bytes }) ht (by simpa using heos)).symm

/-- A later turn that held goes on as that turn does with all the bytes (R80). -/
theorem blockTurn_resumes {s u : State} {p : Progress} {bytes : List Byte} (he : s.inEnd = false) (hr : s.inErr = false)
    (hsb : s.busy = true) (hp : s.run = p) (hstart : p ≠ .start) (hu : blockTurn s = .next u) (hb : u.busy = true)
    (hrun : u.run ≠ .streamNext) :
    blockTurn { u with inq := bytes } = blockTurn { s with inq := s.inq ++ bytes } := by
  cases p with
  | start => exact absurd rfl hstart
  | hdrCount n =>
    rw [blockTurn_hdrCount hsb hp] at hu
    cases hu
    rw [blockTurn_hdrCount (s := { s with inq := s.inq ++ bytes }) hsb hp, settleScan_resumes he hr hb]
    exact congrArg _ (settleScan_congr _ s _ s.leaves s.busy s.run).symm
  | hdrSym c n =>
    rw [blockTurn_hdrSym hsb hp] at hu
    rw [blockTurn_hdrSym (s := { s with inq := s.inq ++ bytes }) hsb hp]
    exact resumeHdrSym_resumes he hr hu hb
  | decSymbol node =>
    rw [blockTurn_decSymbol hsb hp] at hu
    rw [blockTurn_decSymbol (s := { s with inq := s.inq ++ bytes }) hsb hp]
    exact symbolDone_resumes he hr hu hb
  | streamNext =>
    rcases Option.eq_none_or_eq_some s.tree with ht | ⟨root, ht⟩
    · simp [blockTurn, hsb, hp, resumeStreamNext, ht] at hu
    · rw [blockTurn_streamNext hsb hp ht] at hu
      rw [blockTurn_streamNext (s := { s with inq := s.inq ++ bytes }) hsb hp ht]
      exact streamDone_resumes he hr hu hb hrun
  | streamAt node =>
    rw [blockTurn_streamAt hsb hp] at hu
    rw [blockTurn_streamAt (s := { s with inq := s.inq ++ bytes }) hsb hp]
    exact streamDone_resumes he hr hu hb hrun

/-- Settles O51: HDR_PARSE's loop and the decoders' walk go on where they held. -/
theorem heldCommandsResumeWhereTheyStopped : Obligations.HeldCommandsResumeWhereTheyStopped := by
  intro s u bytes he hr hb hrun
  refine ⟨fun i hu => exec_resumes he hr hu hb hrun, fun hstart hu => ?_⟩
  by_cases hsb : s.busy = true
  · exact blockTurn_resumes he hr hsb rfl hstart hu hb hrun
  · rw [blockTurn, if_neg hsb] at hu
    cases hu
    exact absurd hb hsb

end Sys2Proof.Machine
end

section
/-! Commands issued by the host (R49, R140): a word decodes to the command it encodes, and a run that ends with no fault
recorded runs every command of it. -/

namespace Sys2Proof.Machine

/-! ## Words -/

theorem ofByte_code (op : Opcode) : Opcode.ofByte op.code = some op := by
  cases op <;> rfl

theorem decodeN_encodeN (op : Opcode) (i : Instr) : decodeN (encodeN op) i = .ok i := by
  have h0 : (encodeN op).extractLsb' 0 24 = 0 := by cases op <;> decide
  rw [decodeN, if_pos h0]

theorem decodeT_encodeT (op : Opcode) (mk : TreeSource → Instr) (src : TreeSource) :
    decodeT (encodeT op src) mk = .ok (mk src) := by
  have h0 : (encodeT op src).extractLsb' 1 23 = 0 := by cases src <;> cases op <;> decide
  have hsrc : srcField (encodeT op src) = src := by cases src <;> cases op <;> decide
  rw [decodeT, if_pos h0, hsrc]

theorem decodeB_encodeB (op : Opcode) (mk : Byte → Instr) (b : Byte) : decodeB (encodeB op b) mk = .ok (mk b) := by
  have h0 : (encodeB op b).extractLsb' 8 16 = 0 := by
    simp (disch := decide) only [encodeB, BitVec.extractLsb'_cast, BitVec.extractLsb'_append_eq_of_add_le,
      BitVec.extractLsb'_append_eq_of_le]
    simp
  have hb : byteField (encodeB op b) = b := by
    simp (disch := decide) only [byteField, encodeB, BitVec.extractLsb'_cast, BitVec.extractLsb'_append_eq_of_add_le]
    simp
  rw [decodeB, if_pos h0, hb]

theorem decodeS_encodeS (op : Opcode) (mk : Sym → Instr) {sym : Sym} (h : Sym.inTable sym = true) :
    decodeS (encodeS op sym) mk = .ok (mk sym) := by
  have h0 : (encodeS op sym).extractLsb' 9 15 = 0 := by
    simp (disch := decide) only [encodeS, BitVec.extractLsb'_cast, BitVec.extractLsb'_append_eq_of_add_le,
      BitVec.extractLsb'_append_eq_of_le]
    simp
  have hs : symField (encodeS op sym) = sym := by
    simp (disch := decide) only [symField, encodeS, BitVec.extractLsb'_cast, BitVec.extractLsb'_append_eq_of_add_le]
    simp
  rw [decodeS, if_pos h0, hs, if_pos h]

open Sys2Proof.Laws.OpcodeField in
/-- The word of a command decodes to it (R101, R107, R110). -/
theorem decode_encode (i : Instr) (h : i.wellFormed = true) : decode (encode i) = .ok i := by
  cases i <;> simp only [decode, encode, opcField_encodeN, opcField_encodeB, opcField_encodeS, opcField_encodeT,
    ofByte_code, decodeN_encodeN, decodeB_encodeB, decodeT_encodeT]
  case codeRead sym => exact decodeS_encodeS _ _ h

/-! ## Runs of commands -/

/-- A command that a fault stops: any but SOFT_RESET (R140, R277). -/
def Stoppable (i : Instr) : Prop := i.wellFormed = true ∧ i ≠ .softReset

/-- With no fault recorded an issued command runs (R49, R140). -/
theorem issue_eq {i : Instr} {s : State} (hi : i.wellFormed = true) (hf : s.fault = false) :
    issue i s = exec i (acceptCommand (encode i) s) :=
  blockTurn_of_decode rfl rfl (decode_encode i hi) (.inl hf)

/-- A command that goes on to a next state, and then the others. -/
theorem issueAll_cons {i : Instr} {is : List Instr} {s u : State} (hi : i.wellFormed = true) (hf : s.fault = false)
    (hu : exec i (acceptCommand (encode i) s) = .next u) : issueAll (i :: is) s = issueAll is u := by
  rw [issueAll, issue_eq hi hf, hu]

/-- With a fault recorded an issued command is discarded, unless it is SOFT_RESET (R140, R277). -/
theorem issue_faulted {i : Instr} {s : State} (hi : Stoppable i) (hf : s.fault = true) :
    issue i s = .next (complete (acceptCommand (encode i) s)) := by
  obtain ⟨hwf, hne⟩ := hi
  have hword : encode i ≠ softResetWord := fun h => hne <| by
    have := decode_encode i hwf
    rw [h, decode_softResetWord] at this
    exact (Except.ok.inj this).symm
  have hstop : ((acceptCommand (encode i) s).fault && (acceptCommand (encode i) s).curCmd != softResetWord) = true := by
    simpa [acceptCommand, hf] using hword
  have hb : (acceptCommand (encode i) s).busy = true := rfl
  rw [issue, blockTurn, if_pos hb]
  exact if_pos hstop

/-- A fault stays recorded (R277). -/
theorem issueAll_faulted {is : List Instr} {s t : State} (his : ∀ i ∈ is, Stoppable i) (hf : s.fault = true)
    (ht : issueAll is s = .next t) : t.fault = true := by
  induction is generalizing s with
  | nil => cases ht; exact hf
  | cons i is ih =>
    rw [issueAll, issue_faulted (his i List.mem_cons_self) hf] at ht
    exact ih (s := complete (acceptCommand (encode i) s)) (fun j hj => his j (List.mem_cons_of_mem _ hj)) hf ht

/-- From `s` to `t` the commands ran one after the other, and none left a fault recorded (R304, R315). -/
def Ran : List Instr → State → State → Prop
  | [], s, t => t = s
  | i :: is, s, t => ∃ u, exec i (acceptCommand (encode i) s) = .next u ∧ u.fault = false ∧ Ran is u t

/-- A run that ends with no fault recorded had none before. -/
theorem Ran.of_issueAll {is : List Instr} {s t : State} (his : ∀ i ∈ is, Stoppable i) (hs : s.fault = false)
    (ht : issueAll is s = .next t) (hf : t.fault = false) : Ran is s t := by
  induction is generalizing s with
  | nil => cases ht; rfl
  | cons i is ih =>
    rw [issueAll, issue_eq (his i List.mem_cons_self).1 hs] at ht
    have hrest : ∀ j ∈ is, Stoppable j := fun j hj => his j (List.mem_cons_of_mem _ hj)
    cases hu : exec i (acceptCommand (encode i) s) with
    | fault r => rw [hu] at ht; cases ht
    | refused r => rw [hu] at ht; cases ht
    | next u =>
      rw [hu] at ht
      cases huf : u.fault with
      | true => exact nomatch hf.symm.trans (issueAll_faulted hrest huf ht)
      | false => exact ⟨u, hu, huf, ih hrest huf ht⟩

theorem Ran.append {xs ys : List Instr} {s t : State} (h : Ran (xs ++ ys) s t) : ∃ u, Ran xs s u ∧ Ran ys u t := by
  induction xs generalizing s with
  | nil => exact ⟨s, rfl, h⟩
  | cons i xs ih =>
    obtain ⟨v, hv, hf, hrest⟩ := h
    obtain ⟨u, h1, h2⟩ := ih hrest
    exact ⟨u, ⟨v, hv, hf, h1⟩, h2⟩

end Sys2Proof.Machine
end

section
/-! O59: the expansion of a compressed file gives back its bytes (R304, R305). -/

namespace Sys2Proof.Machine

/-! ## The state of a clean block -/

/-- What the compressor's stages need of a state: no error on OUT is to come, and the rack is empty (R86, R315). -/
structure ReadyToWrite (p : Params) (out : List Byte) (s : State) : Prop where
  params : s.params = p
  outq : s.outq = out
  outErr : s.outErr = false
  outErrAfter : s.outErrAfter = none
  wrRack : s.wrRack = 0
  wrCnt : s.wrCnt = 0

theorem CleanLaunch.fault {p : Params} {input : List Byte} {s : State} (h : CleanLaunch p input s) :
    s.fault = false := (congrArg State.fault h.inReset).symm

theorem CleanLaunch.ovr {p : Params} {input : List Byte} {s : State} (h : CleanLaunch p input s) :
    s.ovr = false := (congrArg State.ovr h.inReset).symm

theorem CleanLaunch.readyToWrite {p : Params} {input : List Byte} {s : State} (h : CleanLaunch p input s) :
    ReadyToWrite p [] s :=
  ⟨h.params, h.outBytes, h.outErr, h.outErrAfter, (congrArg State.wrRack h.inReset).symm,
    (congrArg State.wrCnt h.inReset).symm⟩

/-- An OUT with no error and none scheduled takes any number of bytes (R77). -/
theorem outAccepts_of_quiet {s : State} (he : s.outErr = false) (ha : s.outErrAfter = none) (n : Nat) :
    OutAccepts n s := fun _ => ⟨he, fun _ hk => nomatch ha.symm.trans hk⟩

/-! ## The compression run -/

theorem compressRun_stoppable (bytes : List Byte) : ∀ i ∈ compressRun bytes, Stoppable i := by
  intro i hi
  simp only [compressRun, countPass, prepareEncode, emitPass, finishEncode, List.mem_cons, List.mem_append,
    List.mem_map, List.not_mem_nil, or_false] at hi
  rcases hi with rfl | ((⟨b, _, rfl⟩ | rfl | rfl | rfl | rfl) | ⟨b, _, rfl⟩) | rfl | rfl <;> exact ⟨rfl, nofun⟩

/-- FREQ_CLEAR and the counting pass touch only FREQ, whose entries stay in 0..255 (R34, R151). -/
theorem Ran.counted {p : Params} {out : List Byte} {bytes : List Byte} {s t : State} (h : Ran (countPass bytes) s t)
    (hw : ReadyToWrite p out s) (hc : ∀ c, (freqAt s.freq c).toNat ≤ 255) :
    ReadyToWrite p out t ∧ ∀ c, (freqAt t.freq c).toNat ≤ 255 := by
  induction bytes generalizing s with
  | nil => obtain rfl := h; exact ⟨hw, hc⟩
  | cons b bytes ih =>
    obtain ⟨u, hu, _, hrest⟩ := h
    cases hu
    exact ih hrest { hw with } (freqAt_countByte_le hc b)

/-- The state in which the encoding pass begins: the header is written and the codes of `root` are valid (R304). -/
structure Prepared (p : Params) (leaves : List LeafEntry) (s : State) : Prop where
  ready : ReadyToWrite p (headerOf leaves) s
  codesValid : s.codesValid = true
  code : s.code = deriveTable (buildTree p.eofSym leaves)
  depth : treeDepth (buildTree p.eofSym leaves) ≤ 32

/-- HDR_EMIT into an OUT that takes everything appends the header and keeps the tree (R210). -/
theorem exec_hdrEmit_ready {p : Params} {s t : State} (ht : exec .hdrEmit s = .next t) (hw : ReadyToWrite p [] s) :
    ReadyToWrite p (headerOf (freqLeaves s.freq)) t ∧ t.tree = s.tree := by
  obtain ⟨err, after, hpush, hquiet⟩ := pushAll_ok .headerWrite (headerOf (freqLeaves s.freq)) s
    (outAccepts_of_quiet hw.outErr hw.outErrAfter _)
  obtain ⟨rfl, rfl⟩ := hquiet hw.outErrAfter
  rw [exec, execHdrEmit, if_pos hw.wrCnt, headerBytes_eq, hpush] at ht
  cases ht
  exact ⟨{ hw with outq := by simp [hw.outq], outErrAfter := rfl }, rfl⟩

/-- CODE_DERIVE that does not fault writes the codes of a tree no deeper than 32 (R190, R194). -/
theorem exec_codeDerive_prepared {p : Params} {leaves : List LeafEntry} {s t : State}
    (ht : exec .codeDerive s = .next t) (hf : t.fault = false) (hw : ReadyToWrite p (headerOf leaves) s)
    (hr : s.tree = some (buildTree p.eofSym leaves)) : Prepared p leaves t := by
  rw [exec, execCodeDerive, hr] at ht
  by_cases hd : Config.maxCodeLen < treeDepth (buildTree p.eofSym leaves)
  · simp only [if_pos hd] at ht
    cases ht
    cases hf
  · simp only [if_neg hd] at ht
    cases ht
    exact ⟨{ hw with }, rfl, rfl, Nat.le_of_not_lt hd⟩

/-- PREPARE_ENCODE builds the tree of FREQ, writes the header and derives the codes (R112). -/
theorem Ran.prepared {p : Params} {s t : State} (h : Ran prepareEncode s t) (hw : ReadyToWrite p [] s) :
    Prepared p (freqLeaves s.freq) t := by
  obtain ⟨s1, h1, _, s2, h2, _, s3, h3, hf3, s4, h4, _, rfl⟩ := h
  cases h1
  obtain ⟨hready, htree⟩ := exec_hdrEmit_ready (p := p) h2 { hw with }
  have hprep := exec_codeDerive_prepared h3 hf3 { hready with }
    (htree.trans (congrArg (fun q : Params => some (buildTree q.eofSym (freqLeaves s.freq))) hw.params))
  cases h4
  exact { hprep with ready := { hprep.ready with } }

/-! ## The encoding pass -/

/-- Part of a payload is encoded: its bits follow the header, in OUT and the rack (R82, R122). -/
structure Encoding (p : Params) (code : Vector CodeEntry 257) (header : List Byte) (bits : List Bool) (s : State) :
    Prop where
  params : s.params = p
  codesValid : s.codesValid = true
  code : s.code = code
  padded : RackPadded s
  outErr : s.outErr = false
  outErrAfter : s.outErrAfter = none
  written : ∃ out, s.outq = header ++ out ∧ out.flatMap byteBits ++ rackBits s = bits

/-- Nothing is encoded before the pass. -/
theorem Prepared.encoding {p : Params} {leaves : List LeafEntry} {s : State} (h : Prepared p leaves s) :
    Encoding p (deriveTable (buildTree p.eofSym leaves)) (headerOf leaves) [] s where
  params := h.ready.params
  codesValid := h.codesValid
  code := h.code
  padded := fun k _ => by simp [h.ready.wrRack]
  outErr := h.ready.outErr
  outErrAfter := h.ready.outErrAfter
  written := ⟨[], by rw [h.ready.outq, List.append_nil], by simp [rackBits, h.ready.wrCnt]⟩

/-- Accepting a command word is no encoding. -/
theorem Encoding.accept {p : Params} {code : Vector CodeEntry 257} {header : List Byte} {bits : List Bool} {s : State}
    (h : Encoding p code header bits s) (w : Word) : Encoding p code header bits (acceptCommand w s) :=
  ⟨h.1, h.2, h.3, h.4, h.5, h.6, h.7⟩

/-- A symbol whose encoding does not fault has a code, and its bits follow (R230, R231). -/
theorem Encoding.symbol {p : Params} {code : Vector CodeEntry 257} {header : List Byte} {bits : List Bool} {sym : Sym}
    {s t : State} (h : Encoding p code header bits s) (ht : encodeSym sym s = .next t) (hf : t.fault = false) :
    (codeAt code sym).valid = true ∧ Encoding p code header (bits ++ entryBits (codeAt code sym)) t := by
  obtain ⟨rfl, hc, rfl, hp, he, ha, out, hq, hbits⟩ := h
  cases hv : (codeAt s.code sym).valid with
  | false =>
    rw [encodeSym, if_pos hc, hv] at ht
    cases ht
    cases hf
  | true =>
    obtain ⟨more, u, hput, hu, hmore, hpad, _, hquiet⟩ := putBits_ok .bitEncode (codeAt s.code sym).pat
      (codeAt s.code sym).len.toNat s hp (outAccepts_of_quiet he ha _)
    rw [encodeSym_coded hc hv, hput] at ht
    cases ht
    obtain ⟨hue, hua⟩ := hquiet ha
    refine ⟨rfl, ?_, ?_, ?_, hpad, hue.trans he, hua, out ++ more, ?_, ?_⟩
    · rw [hu]; rfl
    · rw [hu]; exact hc
    · rw [hu]; rfl
    · rw [hu, ← List.append_assoc, ← hq]; rfl
    · rw [List.flatMap_append, List.append_assoc, ← hbits, List.append_assoc]
      exact congrArg _ hmore

/-- The codes of `bytes` follow, and each of them has one (R230). -/
theorem Ran.encoded {p : Params} {code : Vector CodeEntry 257} {header : List Byte} {bits : List Bool}
    {bytes : List Byte} {s t : State} (h : Ran (emitPass bytes) s t) (hs : Encoding p code header bits s) :
    (∀ b ∈ bytes, (codeAt code (byteSym b)).valid = true) ∧
    Encoding p code header (bits ++ bytes.flatMap fun b => entryBits (codeAt code (byteSym b))) t := by
  induction bytes generalizing s bits with
  | nil =>
    obtain rfl := h
    exact ⟨nofun, by simpa using hs⟩
  | cons b bytes ih =>
    obtain ⟨u, hu, hf, hrest⟩ := h
    obtain ⟨hv, hstep⟩ := (hs.accept _).symbol (sym := byteSym b) hu hf
    obtain ⟨hvs, hall⟩ := ih hrest hstep
    refine ⟨List.forall_mem_cons.mpr ⟨hv, hvs⟩, ?_⟩
    rw [List.flatMap_cons, ← List.append_assoc]
    exact hall

/-- FINISH_ENCODE appends the end-of-stream code and zero bits up to a whole byte (R87, R122). -/
theorem Ran.finished {p : Params} {code : Vector CodeEntry 257} {header : List Byte} {bits : List Bool} {s t : State}
    (h : Ran finishEncode s t) (hs : Encoding p code header bits s) :
    (codeAt code p.eofSym).valid = true ∧ ∃ out pad, t.outq = header ++ out ∧
      out.flatMap byteBits = bits ++ (entryBits (codeAt code p.eofSym) ++ pad) := by
  obtain ⟨u, hu, hf, v, hv, _, rfl⟩ := h
  have hsym : (acceptCommand (encode .encEof) s).params.eofSym = p.eofSym := congrArg _ hs.params
  rw [exec, execEncEof, hsym] at hu
  obtain ⟨hvalid, hstep⟩ := (hs.accept _).symbol hu hf
  have henc := hstep.accept (encode .encFlush)
  generalize acceptCommand (encode .encFlush) u = w at hv henc
  obtain ⟨_, _, _, hp, he, _, out, hq, hbits⟩ := henc
  obtain ⟨hempty, hpartial, _⟩ := flushWritesThePaddedRack w
  refine ⟨hvalid, ?_⟩
  by_cases h0 : w.wrCnt = 0
  · cases hv.symm.trans (hempty h0)
    have hrack : rackBits w = [] := by rw [rackBits, h0]; rfl
    rw [hrack, List.append_nil] at hbits
    exact ⟨out, [], hq, by rw [List.append_nil, hbits]⟩
  · obtain ⟨_, _, hflush, hpad, _⟩ := hpartial h0 he hp
    cases hv.symm.trans hflush
    refine ⟨out ++ [w.wrRack], List.replicate (8 - w.wrCnt.toNat) false, by rw [hq, List.append_assoc], ?_⟩
    rw [List.flatMap_append, List.flatMap_singleton, hpad, ← List.append_assoc, hbits, List.append_assoc]

/-- The file of a compression run that succeeds: the header, and a payload of the codes of the bytes and of the
end-of-stream symbol, each of which has one (R120, R304). -/
theorem compressRun_writes_file {p : Params} {bytes : List Byte} {s t : State} (hs : CleanLaunch p [] s)
    (h : issueAll (compressRun bytes) s = .next t) (hf : t.fault = false) :
    ∃ leaves code out pad, leaves.length ≤ 256 ∧ (∀ l ∈ leaves, l.Ok) ∧
      code = deriveTable (buildTree p.eofSym leaves) ∧ treeDepth (buildTree p.eofSym leaves) ≤ 32 ∧
      (∀ b ∈ bytes, (codeAt code (byteSym b)).valid = true) ∧ (codeAt code p.eofSym).valid = true ∧
      t.outq = headerOf leaves ++ out ∧
      out.flatMap byteBits = bytes.flatMap (fun b => entryBits (codeAt code (byteSym b))) ++
        (entryBits (codeAt code p.eofSym) ++ pad) := by
  obtain ⟨s0, h0, _, hrun⟩ := Ran.of_issueAll (compressRun_stoppable bytes) hs.fault h hf
  obtain ⟨s3, hrun, hfinish⟩ := hrun.append
  obtain ⟨s2, hrun, hencode⟩ := hrun.append
  obtain ⟨s1, hcount, hprepare⟩ := hrun.append
  cases h0
  obtain ⟨hw, hc⟩ := hcount.counted (p := p) (out := []) { hs.readyToWrite with } (fun c => by simp)
  have hprep := hprepare.prepared hw
  obtain ⟨hvs, henc⟩ := hencode.encoded hprep.encoding
  obtain ⟨hv, out, pad, hq, hbits⟩ := hfinish.finished henc
  exact ⟨_, _, out, pad, freqLeaves_length s1.freq, freqLeaves_ok hc, rfl, hprep.depth, hvs, hv, hq, hbits⟩

/-! ## The expansion run -/

/-- The state in which DEC_STREAM begins to expand a payload (R305). -/
structure Expanding (p : Params) (leaves : List LeafEntry) (payload : List Byte) (s : State) : Prop where
  params : s.params = p
  tree : s.tree = some (buildTree p.eofSym leaves)
  eos : s.eos = false
  inq : s.inq = payload
  rdCnt : s.rdCnt = 0
  outq : s.outq = []
  outErr : s.outErr = false
  outErrAfter : s.outErrAfter = none
  succeeded : Succeeded s

/-- HDR_PARSE and TREE_BUILD read the header and build its tree, and DEC_STREAM begins at the payload (R305). -/
theorem expandRun_reaches_payload {p : Params} {leaves : List LeafEntry} {payload : List Byte} {u : State}
    (hu : CleanLaunch p (headerOf leaves ++ payload) u) (hl : leaves.length ≤ 256) (hok : ∀ l ∈ leaves, l.Ok) :
    ∃ s, Expanding p leaves payload s ∧ ∀ v, exec .decStream s = .next v →
      issueAll [.hdrParse, .treeBuild .hdr, .decStream] u = .next v := by
  have hq : (acceptCommand (encode .hdrParse) u).inq =
      leaves.flatMap (fun l => [l.weight.truncate 8, l.sym]) ++ 0 :: payload := by
    rw [acceptCommand_inq, hu.inBytes, headerOf, List.append_assoc]; rfl
  have hparse := exec_hdrParse hl hok hq
  rw [scanHeader_sentinel] at hparse
  obtain ⟨s1, hs1, hparse⟩ : ∃ s1, s1 = _ ∧ exec .hdrParse (acceptCommand (encode .hdrParse) u) = .next s1 :=
    ⟨_, rfl, hparse⟩
  have hbuild : exec (.treeBuild .hdr) (acceptCommand (encode (.treeBuild .hdr)) s1) =
      .next (complete (buildFrom (acceptCommand (encode (.treeBuild .hdr)) s1))) := by
    rw [exec, execTreeBuild]
    exact if_pos (by rw [hs1]; rfl)
  refine ⟨acceptCommand (encode .decStream) (complete (buildFrom (acceptCommand (encode (.treeBuild .hdr)) s1))), ?_,
    fun v hv => ?_⟩
  · rw [hs1]
    exact ⟨hu.params, congrArg (fun q : Params => some (buildTree q.eofSym leaves)) hu.params, rfl, rfl, rfl,
      hu.outBytes, hu.outErr, hu.outErrAfter, hu.fault, hu.ovr⟩
  · have hf : s1.fault = false := by rw [hs1]; exact hu.fault
    rw [issueAll_cons rfl hu.fault hparse, issueAll_cons rfl hf hbuild]
    exact issueAll_cons rfl hf hv

/-- The path of a symbol whose entry CODE_DERIVE made valid (R190, R192). -/
theorem entryBits_mem_treePaths {t : Tree} (hd : treeDepth t ≤ 32) (hs : ∀ p ∈ treePaths t, p.1.toNat < 257) {sym : Sym}
    (hv : (codeAt (deriveTable t) sym).valid = true) : (sym, entryBits (codeAt (deriveTable t) sym)) ∈ treePaths t := by
  cases hp : (treePaths t).reverse.find? (fun p => p.1 == sym) with
  | none =>
    rw [codeAt_deriveTable_of_find_none hs hp] at hv
    cases hv
  | some p =>
    have hm := List.mem_reverse.mp (List.mem_of_find?_eq_some hp)
    have hsym : p.1 = sym := by simpa using List.find?_some hp
    obtain ⟨_, _, hbits, _⟩ := pathEntry_records p.2 ((treePaths_depth t p hm).trans hd)
    rw [codeAt_deriveTable_of_find hs hp, hbits, ← hsym]
    exact hm

/-- A data byte is not the end-of-stream symbol: 256 is none, and 254 is none where it does not occur (R11). -/
theorem byteSym_ne_eofSym {p : Params} {bytes : List Byte} (h : p.eofMode = .wide ∨ (254 : Byte) ∉ bytes) {b : Byte}
    (hb : b ∈ bytes) : byteSym b ≠ p.eofSym := by
  intro he
  have hn := congrArg BitVec.toNat he
  rw [byteSym_toNat, Params.eofSym] at hn
  cases hm : p.eofMode <;> rw [hm] at h hn
  · obtain h | h := h
    · cases h
    · exact h ((BitVec.eq_of_toNat_eq hn : b = 254) ▸ hb)
  · exact absurd (hn ▸ b.isLt) (by decide)

theorem symByte_byteSym (b : Byte) : symByte (byteSym b) = b := by
  simp [symByte, byteSym]

/-- Settles O59: the expansion run finds the leaf list, and so the tree, of the compression run, and decodes its
codes. -/
theorem expandInvertsCompress : Obligations.ExpandInvertsCompress := by
  intro p bytes s t u hmode hs ht ⟨hf, _⟩ hu
  obtain ⟨leaves, code, out, pad, hl, hok, rfl, hd, hvs, hv, hq, hbits⟩ := compressRun_writes_file hs ht hf
  rw [hq] at hu
  obtain ⟨x, hx, hissue⟩ := expandRun_reaches_payload hu hl hok
  have hpath : ∀ sym, (codeAt (deriveTable (buildTree p.eofSym leaves)) sym).valid = true →
      (sym, entryBits (codeAt (deriveTable (buildTree p.eofSym leaves)) sym)) ∈ treePaths (buildTree p.eofSym leaves) :=
    fun sym => entryBits_mem_treePaths hd (treePaths_buildTree_lt p leaves)
  have hunread : unreadBits x = out.flatMap byteBits := by rw [unreadBits, hx.rdCnt, hx.inq]; rfl
  obtain ⟨v, w, hfirst, hrest, hout, _, _, _, _, _, _, hframe⟩ := decStreamDecodesToTheEnd x _
    (bytes.map fun b => (byteSym b, entryBits (codeAt (deriveTable (buildTree p.eofSym leaves)) (byteSym b))))
    (entryBits (codeAt (deriveTable (buildTree p.eofSym leaves)) p.eofSym)) pad hx.tree hx.eos
    (by rw [hx.rdCnt]; decide) (outAccepts_of_quiet hx.outErr hx.outErrAfter _)
    (by
      rw [hx.params]
      exact List.forall_mem_map.mpr fun b hb => ⟨hpath _ (hvs b hb), byteSym_ne_eofSym hmode hb⟩)
    (hx.params ▸ hpath _ hv) (by rw [hunread, hbits, List.flatMap_map])
  rw [List.length_map] at hrest
  refine ⟨v, w, hissue v hfirst, hrest, ?_, by rw [hframe], by rw [hframe], by rw [hframe]; exact hx.succeeded⟩
  rw [hout, hx.outq, List.nil_append, List.map_map]
  exact (List.map_congr_left fun b _ => symByte_byteSym b).trans (List.map_id _)

end Sys2Proof.Machine
end

section
/-! The decoder and the encoder, O1 to O4: the fields of a format make up its words (R101 to R105), so decoding and
encoding are inverse, and the decoder refuses exactly the words of R108. -/

namespace Sys2Proof.Machine

/-! ## The opcode map -/

/-- The map of R107 read backwards gives an opcode for its own code only. -/
theorem code_of_ofByte {b : Byte} {op : Opcode} (h : Opcode.ofByte b = some op) : op.code = b := by
  unfold Opcode.ofByte at h
  split at h <;> cases h <;> exact (BitVec.eq_of_toNat_eq ‹_›).symm

theorem code_injective {op1 op2 : Opcode} (h : op1.code = op2.code) : op1 = op2 :=
  Option.some.inj ((ofByte_code op1).symm.trans ((congrArg Opcode.ofByte h).trans (ofByte_code op2)))

/-! ## Words and their fields -/

/-- A word is its opcode byte and its lower 24 bits (R101). -/
theorem opcField_append_low (w : Word) : opcField w ++ w.extractLsb' 0 24 = w := by
  rw [opcField, BitVec.extractLsb'_append_extractLsb'_eq_extractLsb' (by decide)]
  exact BitVec.extractLsb'_eq_self

section
variable {op : Opcode} {w : Word} (hop : op.code = opcField w)
include hop

theorem encodeN_of_fields (h : w.extractLsb' 0 24 = 0) : encodeN op = w := by
  rw [encodeN, hop, ← h]
  exact opcField_append_low w

theorem encodeB_of_fields (h : w.extractLsb' 8 16 = 0) : encodeB op (byteField w) = w := by
  rw [encodeB, hop, ← h, byteField, BitVec.extractLsb'_append_extractLsb'_eq_extractLsb' (by decide : 8 = 0 + 8)]
  exact opcField_append_low w

theorem encodeS_of_fields (h : w.extractLsb' 9 15 = 0) : encodeS op (symField w) = w := by
  rw [encodeS, hop, ← h, symField, BitVec.extractLsb'_append_extractLsb'_eq_extractLsb' (by decide : 9 = 0 + 9)]
  exact opcField_append_low w

/-- The SRC operand is bit 0 itself (R105). -/
theorem encodeT_of_fields (h : w.extractLsb' 1 23 = 0) : encodeT op (srcField w) = w := by
  have hlow : (0 : BitVec 23) ++ BitVec.ofBool (w.getLsbD 0) = w.extractLsb' 0 24 := by
    rw [← h, ← BitVec.setWidth_one, BitVec.setWidth_eq_extractLsb' (by decide),
      BitVec.extractLsb'_append_extractLsb'_eq_extractLsb' (by decide : 1 = 0 + 1)]
  have hw := opcField_append_low w
  rw [← hop, ← hlow] at hw
  unfold encodeT srcField
  cases hb : w.getLsbD 0 <;> rw [hb] at hw <;> exact hw

end

/-! ## What each format decodes to -/

section
variable {p : Prop} [Decidable p] {i j : Instr} {e : DecodeError}

/-- What a check lets pass. -/
theorem check_eq_ok : (if p then .ok i else .error e : Except DecodeError Instr) = .ok j ↔ p ∧ i = j := by
  by_cases h : p <;> simp [h]

/-- What a check refuses. -/
theorem check_eq_error : (∃ d, (if p then .ok i else .error e : Except DecodeError Instr) = .error d) ↔ ¬ p := by
  by_cases h : p <;> simp [h]

end

theorem decodeS_eq_ok {w : Word} {mk : Sym → Instr} {j : Instr} :
    decodeS w mk = .ok j ↔ w.extractLsb' 9 15 = 0 ∧ Sym.inTable (symField w) = true ∧ mk (symField w) = j := by
  rw [decodeS]
  split
  · next h => rw [check_eq_ok]; exact (and_iff_right h).symm
  · next h => exact iff_of_false nofun fun h' => h h'.1

theorem decodeS_eq_error {w : Word} {mk : Sym → Instr} :
    (∃ e, decodeS w mk = .error e) ↔ w.extractLsb' 9 15 ≠ 0 ∨ 256 < (symField w).toNat := by
  rw [decodeS]
  split
  · next h => rw [check_eq_error, Sym.inTable, decide_eq_true_iff, Nat.not_le, or_iff_right (not_not.mpr h)]
  · next h => exact iff_of_true ⟨_, rfl⟩ (.inl h)

/-! ## The obligations -/

/-- Settles O1: each word is evaluated. -/
theorem wordsDecodeAsTabulated : Obligations.WordsDecodeAsTabulated := by
  unfold Obligations.WordsDecodeAsTabulated
  decide

/-- Settles O2: every format's decoder inverts its encoder. -/
theorem decodeOfEncode : Obligations.DecodeOfEncode := decode_encode

/-- Settles O3: the opcode byte names the row of the map, and the fields of its format make up the word. -/
theorem encodeOfDecode : Obligations.EncodeOfDecode := by
  intro w i h
  have hop := opcode_of_decode h
  have hcode := code_of_ofByte hop
  generalize i.opcode = op at hop hcode
  cases op <;> simp only [decode, hop, decodeN, decodeB, decodeT, check_eq_ok, decodeS_eq_ok] at h
  case freqAccum | freqRead | leafRead | encByte =>
    obtain ⟨h0, rfl⟩ := h
    exact ⟨rfl, encodeB_of_fields hcode h0⟩
  case codeRead =>
    obtain ⟨h0, hsym, rfl⟩ := h
    exact ⟨hsym, encodeS_of_fields hcode h0⟩
  case treeBuild =>
    obtain ⟨h0, rfl⟩ := h
    exact ⟨rfl, encodeT_of_fields hcode h0⟩
  all_goals
    obtain ⟨h0, rfl⟩ := h
    exact ⟨rfl, encodeN_of_fields hcode h0⟩

/-- A word of an opcode of the map is illegal by its format alone (R108, R110). -/
theorem illegalWord_of_code {w : Word} {op : Opcode} (hop : op.code = opcField w) :
    IllegalWord w ↔ (op.format = .N ∧ w.extractLsb' 0 24 ≠ 0) ∨ (op.format = .B ∧ w.extractLsb' 8 16 ≠ 0) ∨
      (op.format = .S ∧ (w.extractLsb' 9 15 ≠ 0 ∨ 256 < (symField w).toNat)) ∨
      (op.format = .T ∧ w.extractLsb' 1 23 ≠ 0) := by
  constructor
  · rintro (hno | ⟨op', hop', h⟩)
    · exact absurd hop (hno op)
    · exact code_injective (hop'.trans hop.symm) ▸ h
  · exact fun h => .inr ⟨op, hop, h⟩

/-- The decoder refuses exactly the illegal words (R108). -/
theorem illegalWord_iff_error (w : Word) : IllegalWord w ↔ ∃ e, decode w = .error e := by
  cases hop : Opcode.ofByte (opcField w) with
  | none =>
    have hno : ∀ op : Opcode, op.code ≠ opcField w := fun op h => by
      rw [← h, ofByte_code] at hop
      cases hop
    exact iff_of_true (.inl hno) ⟨.unassignedOpcode, by rw [decode, hop]⟩
  | some op =>
    rw [illegalWord_of_code (code_of_ofByte hop)]
    cases op <;> simp only [decode, hop, decodeN, decodeB, decodeT, check_eq_error, decodeS_eq_error] <;>
      simp [Opcode.format]

/-- An accepted word that does not decode raises ILLEGAL_COMMAND (R108, R140). -/
theorem blockTurn_of_error {s : State} {e : DecodeError} (hb : s.busy = true) (hr : s.run = .start)
    (hf : s.fault = false) (he : decode s.curCmd = .error e) :
    blockTurn s = .next (raise .illegalCommand .command s) := by
  rw [blockTurn, if_pos hb, hr]
  simp [dispatch, hf, he]

/-- Settles O4: an illegal word is one that does not decode, and its dispatch is the fault entry. -/
theorem illegalWordsRaiseIllegalCommand : Obligations.IllegalWordsRaiseIllegalCommand := by
  refine ⟨illegalWord_iff_error, fun s hb hr hf hw => ?_⟩
  obtain ⟨e, he⟩ := (illegalWord_iff_error _).mp hw
  exact blockTurn_of_error hb hr hf he

end Sys2Proof.Machine
end

section
/-! What the encoder's side writes: codes none of which begins another, O28; the header, O31; the payload, O43. -/

namespace Sys2Proof.Machine

/-! ## Codes -/

/-- Neither row of bits is a beginning of the other (R123). -/
def Apart (a b : List Bool) : Prop := ¬ a <+: b ∧ ¬ b <+: a

theorem Apart.symm {a b : List Bool} (h : Apart a b) : Apart b a := ⟨h.2, h.1⟩

theorem Apart.cons {a b : List Bool} (x : Bool) (h : Apart a b) : Apart (x :: a) (x :: b) := by
  simpa [Apart] using h

/-- The two subtrees' paths part at once (R123). -/
theorem apart_of_branches (a b : List Bool) : Apart (false :: a) (true :: b) := by
  simp [Apart]

/-- No leaf's path is a beginning of another's (R197). -/
theorem treePaths_apart (t : Tree) : (treePaths t).Pairwise fun p q => Apart p.2 q.2 := by
  induction t with
  | leaf s w => exact List.pairwise_singleton _ _
  | internal w c0 c1 ih0 ih1 =>
    rw [treePaths, List.pairwise_append, List.pairwise_map, List.pairwise_map]
    refine ⟨ih0.imp (.cons false), ih1.imp (.cons true), ?_⟩
    simp only [List.forall_mem_map]
    exact fun p _ q _ => apart_of_branches p.2 q.2

/-- CODE_DERIVE that makes the codes valid wrote those of a tree no deeper than 32 (R190, R194). -/
theorem exec_codeDerive_codesValid {s t : State} (h : exec .codeDerive s = .next t) (hv : t.codesValid = true) :
    ∃ root, s.tree = some root ∧ treeDepth root ≤ 32 ∧ t.code = deriveTable root := by
  rw [exec, execCodeDerive] at h
  cases hr : s.tree with
  | none => rw [hr] at h; cases h; cases hv
  | some root =>
    simp only [hr] at h
    split at h
    · cases h; cases hv
    · next hd => cases h; exact ⟨root, rfl, Nat.le_of_not_lt hd, rfl⟩

/-- Settles O28: a valid entry is the path of a leaf of its symbol, and other leaves' paths part from it. -/
theorem codesArePrefixFree : Obligations.CodesArePrefixFree := by
  refine ⟨treePaths_apart, fun s t hi ht hv a b hab ha hb => ?_⟩
  obtain ⟨root, hr, hd, hcode⟩ := exec_codeDerive_codesValid ht hv
  obtain ⟨_, rfl⟩ := hi.treeBuilt root hr
  rw [hcode] at ha hb ⊢
  have hs := treePaths_buildTree_lt s.params s.leaves
  have : Std.Symm fun p q : Sym × List Bool => Apart p.2 q.2 := ⟨fun _ _ => Apart.symm⟩
  exact ((treePaths_apart _).forall (entryBits_mem_treePaths hd hs ha) (entryBits_mem_treePaths hd hs hb)
    fun h => hab (congrArg Prod.fst h)).1

/-! ## The header -/

/-- Settles O31: HDR_EMIT pushes the header's bytes, and OUT takes them all. -/
theorem hdrEmitWritesTheHeader : Obligations.HdrEmitWritesTheHeader := by
  intro s h0 ho
  obtain ⟨err, after, hpush, hquiet⟩ := pushAll_ok .headerWrite (headerOf (freqLeaves s.freq)) s
    (by rwa [headerOf_length])
  have hlen : (headerPairs s.freq).length = (freqLeaves s.freq).length := by rw [headerPairs_eq, List.length_map]
  refine ⟨err, after, ?_, hquiet⟩
  rw [exec, execHdrEmit, if_pos h0, headerBytes_eq, hpush, hlen]
  rfl

/-! ## The payload -/

/-- `t` is `s` after `bits` were packed into a padded rack: they follow the bits the rack held, whole bytes of them in
`out`, and only OUT, the packer and the command's position changed (R82, R88). -/
structure Packs (bits : List Bool) (out : List Byte) (s t : State) : Prop where
  frame : t = { s with
    outq := s.outq ++ out, wrRack := t.wrRack, wrCnt := t.wrCnt, outErr := t.outErr, outErrAfter := t.outErrAfter,
    busy := t.busy, run := t.run }
  bits_eq : out.flatMap byteBits ++ rackBits t = rackBits s ++ bits
  padded : RackPadded t
  count : 8 * out.length + t.wrCnt.toNat = s.wrCnt.toNat + bits.length
  accepts : ∀ n, OutAccepts (n + out.length) s → OutAccepts n t
  quiet : s.outErrAfter = none → t.outErr = s.outErr ∧ t.outErrAfter = none

theorem Packs.refl {s : State} (h : RackPadded s) : Packs [] [] s s where
  frame := by rw [List.append_nil]
  bits_eq := (List.append_nil _).symm
  padded := h
  count := by simp
  accepts := fun _ hn => hn
  quiet := fun ha => ⟨rfl, ha⟩

theorem Packs.trans {b1 b2 : List Bool} {o1 o2 : List Byte} {s t u : State} (h1 : Packs b1 o1 s t)
    (h2 : Packs b2 o2 t u) : Packs (b1 ++ b2) (o1 ++ o2) s u where
  frame := by rw [h2.frame, h1.frame, List.append_assoc]
  bits_eq := by
    rw [List.flatMap_append, List.append_assoc, h2.bits_eq, ← List.append_assoc, h1.bits_eq, List.append_assoc]
  padded := h2.padded
  count := by
    have c1 := h1.count
    have c2 := h2.count
    simp only [List.length_append]
    omega
  accepts := fun n hn => h2.accepts n (h1.accepts _ (hn.mono (by simp only [List.length_append]; omega)))
  quiet := fun ha => by
    obtain ⟨e1, a1⟩ := h1.quiet ha
    obtain ⟨e2, a2⟩ := h2.quiet a1
    exact ⟨e2.trans e1, a2⟩

/-- The command's end is no packing. -/
theorem Packs.completed {bits : List Bool} {out : List Byte} {s t : State} (h : Packs bits out s t) :
    Packs bits out s (complete t) where
  frame := congrArg complete h.frame
  bits_eq := h.bits_eq
  padded := h.padded
  count := h.count
  accepts := h.accepts
  quiet := h.quiet

/-- An OUT that takes the whole bytes of these bits and `r` more takes those of the `r` that are left (R88). -/
theorem Packs.accepts_rest {bits : List Bool} {out : List Byte} {s t : State} (h : Packs bits out s t) {r : Nat}
    (ho : OutAccepts ((s.wrCnt.toNat + (bits.length + r)) / 8) s) : OutAccepts ((t.wrCnt.toNat + r) / 8) t := by
  have hc := h.count
  exact h.accepts _ (ho.mono (by omega))

/-- PutBits packs the low bits of the pattern, most significant first (R82). -/
theorem putBits_packs (ph : Phase) (pat : Word) (n : Nat) {s : State} (hp : RackPadded s)
    (ho : OutAccepts ((s.wrCnt.toNat + n) / 8) s) :
    ∃ out t, putBits ph pat n s = .ok () t ∧ Packs (lowBits pat n) out s t := by
  induction n generalizing s with
  | zero => exact ⟨[], s, rfl, .refl hp⟩
  | succ n ih =>
    obtain ⟨o1, t, hput, hf, hb, hp1, hc, ha, hq⟩ := putBit_ok ph (pat.getLsbD n) s hp (ho.mono (by omega))
    have h1 : Packs [pat.getLsbD n] o1 s t := ⟨by rw [hf], hb, hp1, hc, ha, hq⟩
    obtain ⟨o2, u, hrest, h2⟩ := ih hp1 (h1.accepts_rest (r := n) (ho.mono (by simp; omega)))
    exact ⟨o1 ++ o2, u, by simp only [putBits, hput, hrest], h1.trans h2⟩

/-- Encoding a symbol with a valid code packs the code (R230, R231). -/
theorem encodeSym_packs {s : State} {sym : Sym} (hc : s.codesValid = true) (hv : (codeAt s.code sym).valid = true)
    (hp : RackPadded s) (ho : OutAccepts ((s.wrCnt.toNat + (entryBits (codeAt s.code sym)).length) / 8) s) :
    ∃ out t, encodeSym sym s = .next t ∧ Packs (entryBits (codeAt s.code sym)) out s t := by
  rw [entryBits, lowBits_length] at ho
  obtain ⟨out, t, hput, h⟩ := putBits_packs .bitEncode (codeAt s.code sym).pat _ hp ho
  exact ⟨out, complete t, by rw [encodeSym_coded hc hv, hput]; rfl, h.completed⟩

/-- ENC_BYTE of each byte packs the codes in order, and the commands after it follow (R233). -/
theorem execAll_encByte_packs (bytes : List Byte) (rest : List Instr) {s : State} (hc : s.codesValid = true)
    (hv : ∀ b ∈ bytes, (codeAt s.code (byteSym b)).valid = true) (hp : RackPadded s)
    (ho : OutAccepts ((s.wrCnt.toNat + (bytes.flatMap fun b => entryBits (codeAt s.code (byteSym b))).length) / 8) s) :
    ∃ out t, execAll (bytes.map .encByte ++ rest) s = execAll rest t ∧
      Packs (bytes.flatMap fun b => entryBits (codeAt s.code (byteSym b))) out s t := by
  induction bytes generalizing s with
  | nil => exact ⟨[], s, rfl, .refl hp⟩
  | cons b bytes ih =>
    obtain ⟨hb, hbs⟩ := List.forall_mem_cons.mp hv
    rw [List.flatMap_cons, List.length_append] at ho
    obtain ⟨o1, t, hexec, h1⟩ := encodeSym_packs hc hb hp (ho.mono (by omega))
    have hcode : t.code = s.code := by rw [h1.frame]
    have hvalid : t.codesValid = s.codesValid := by rw [h1.frame]
    obtain ⟨o2, u, hrest, h2⟩ := ih (hvalid.trans hc) (hcode ▸ hbs) h1.padded (hcode ▸ h1.accepts_rest ho)
    refine ⟨o1 ++ o2, u, ?_, h1.trans (hcode ▸ h2)⟩
    rw [← hrest, List.map_cons, List.cons_append, execAll, exec, execEncByte, hexec]

/-- The codes of the bytes and of the end-of-stream symbol are packed before the flush (R122, R233). -/
theorem execAll_encoding_packs (bytes : List Byte) {s : State} (hc : s.codesValid = true)
    (hv : ∀ b ∈ bytes, (codeAt s.code (byteSym b)).valid = true) (he : (codeAt s.code s.params.eofSym).valid = true)
    (hp : RackPadded s) (ho : OutAccepts ((s.wrCnt.toNat + (payloadBits s bytes).length) / 8) s) :
    ∃ out t, execAll (bytes.map .encByte ++ [.encEof, .encFlush]) s = exec .encFlush t ∧
      Packs (payloadBits s bytes) out s t := by
  rw [payloadBits, List.length_append] at ho
  obtain ⟨o1, t, hbytes, h1⟩ := execAll_encByte_packs bytes [.encEof, .encFlush] hc hv hp (ho.mono (by omega))
  have hcode : t.code = s.code := by rw [h1.frame]
  have hvalid : t.codesValid = s.codesValid := by rw [h1.frame]
  have hparams : t.params = s.params := by rw [h1.frame]
  obtain ⟨o2, u, heof, h2⟩ := encodeSym_packs (sym := t.params.eofSym) (hvalid.trans hc)
    (by rw [hcode, hparams]; exact he) h1.padded (by rw [hcode, hparams]; exact h1.accepts_rest ho)
  refine ⟨o1 ++ o2, u, ?_, ?_⟩
  · rw [hbytes]
    simp only [execAll, exec, execEncEof, heof]
    cases execEncFlush u <;> rfl
  · rw [hcode, hparams] at h2
    exact h1.trans h2

/-- A padded rack that holds no bit is 0 (R40). -/
theorem RackPadded.wrRack_eq_zero {s : State} (h : RackPadded s) (h0 : s.wrCnt = 0) : s.wrRack = 0 := by
  apply BitVec.eq_of_getLsbD_eq
  intro k hk
  rw [h k (by rw [h0]; exact hk)]
  exact BitVec.getLsbD_zero.symm

/-- ENC_FLUSH pads the rack's bits with zeros to a whole byte, if there are any, and empties it (R87, R232). -/
theorem exec_encFlush_padded {s : State} (hp : RackPadded s) (ho : OutAccepts ((s.wrCnt.toNat + 7) / 8) s) :
    ∃ out t, exec .encFlush s = .next t ∧ t = { s with
        outq := s.outq ++ out, wrRack := 0, wrCnt := 0, outErr := t.outErr, outErrAfter := t.outErrAfter,
        busy := false, run := .start } ∧
      out.flatMap byteBits = rackBits s ++ List.replicate ((8 - s.wrCnt.toNat) % 8) false ∧
      out.length = (s.wrCnt.toNat + 7) / 8 ∧ (s.outErrAfter = none → t.outErr = s.outErr ∧ t.outErrAfter = none) := by
  obtain ⟨hempty, hpartial, _⟩ := flushWritesThePaddedRack s
  have hlt := s.wrCnt.isLt
  by_cases h0 : s.wrCnt = 0
  · refine ⟨[], complete s, hempty h0, ?_, ?_, ?_, fun ha => ⟨rfl, ha⟩⟩
    · rw [List.append_nil, ← hp.wrRack_eq_zero h0, ← h0]; rfl
    · simp [rackBits, h0]
    · simp [h0]
  · have hpos : s.wrCnt.toNat ≠ 0 := fun h => h0 (BitVec.eq_of_toNat_eq h)
    obtain ⟨err, after, hflush, hpad, hquiet⟩ := hpartial h0 (ho (by omega)).1 hp
    refine ⟨[s.wrRack], _, hflush, rfl, ?_, ?_, hquiet⟩
    · rw [List.flatMap_singleton, hpad, Nat.mod_eq_of_lt (by omega)]
    · simp only [List.length_singleton]; omega

/-- Settles O43: the pass packs the payload's bits, and the flush pads the last of them to a byte. -/
theorem encodingPassWritesThePayload : Obligations.EncodingPassWritesThePayload := by
  intro s bytes hc h0 hp hv he ho
  have hcnt : s.wrCnt.toNat = 0 := by rw [h0]; rfl
  have hrack : rackBits s = [] := by rw [rackBits, hcnt, List.take_zero]
  obtain ⟨o1, t, hpass, h⟩ := execAll_encoding_packs bytes hc hv he hp (ho.mono (by omega))
  obtain ⟨o2, u, hflush, hu, hbits, hlen, hquiet⟩ := exec_encFlush_padded h.padded
    (h.accepts_rest (r := 7) (ho.mono (by omega)))
  have hcount := h.count
  have hlt := t.wrCnt.isLt
  refine ⟨o1 ++ o2, u.outErr, u.outErrAfter, ?_, ?_, ?_, fun ha => ?_⟩
  · rw [hpass, hflush, hu, h.frame, List.append_assoc]
  · have hpad : (8 - t.wrCnt.toNat) % 8 = (8 - (payloadBits s bytes).length % 8) % 8 := by omega
    rw [List.flatMap_append, hbits, ← List.append_assoc, h.bits_eq, hrack, List.nil_append, hpad]
  · rw [List.length_append, hlen]; omega
  · obtain ⟨ht, hn⟩ := h.quiet ha
    obtain ⟨hu1, hu2⟩ := hquiet hn
    exact ⟨hu1.trans ht, hu2⟩

end Sys2Proof.Machine
end

section
/-! Control: the discard of words while a fault is recorded, O6; NOP, FREQ_CLEAR and FREQ_READ, O15. -/

namespace Sys2Proof.Machine

/-! ## Dispatch with a fault recorded -/

/-- With a fault recorded the accepted word is never decoded, unless it is SOFT_RESET's (R140, R277). -/
theorem dispatch_of_fault {s : State} (hf : s.fault = true) (hw : s.curCmd ≠ softResetWord) :
    dispatch s = .next (complete s) := by
  have hdiscard : (s.fault && s.curCmd != softResetWord) = true := by simp [hf, hw]
  rw [dispatch, if_pos hdiscard]

/-- Settles O6: the accepted word is dispatched, and the dispatch discards it before it is decoded. -/
theorem faultedBlockDiscardsCommands : Obligations.FaultedBlockDiscardsCommands := by
  intro s hb hr hf hw
  rw [blockTurn, if_pos hb, hr]
  exact dispatch_of_fault hf hw

/-! ## Commands that always complete -/

theorem exec_nop (s : State) : exec .nop s = .next (complete s) := rfl

theorem exec_freqClear (s : State) :
    exec .freqClear s = .next (complete { s with freq := Vector.replicate 256 0 }) := rfl

theorem exec_freqRead (b : Byte) (s : State) :
    exec (.freqRead b) s = .next (complete { s with result0 := freqAt s.freq b }) := rfl

/-- Settles O15: each of the three commands is one update of the state and completes; a cleared table holds 0
everywhere. -/
theorem nopFreqClearAndFreqReadComplete : Obligations.NopFreqClearAndFreqReadComplete := by
  intro s
  refine ⟨exec_nop s, ⟨Vector.replicate 256 0, ?_, exec_freqClear s⟩, fun b => exec_freqRead b s⟩
  exact fun _ hk => Vector.getElem_replicate hk

end Sys2Proof.Machine
end

section
/-! The frequency accumulator: one FREQ_ACCUM, O16; what counting a byte keeps, O17 and O18; the run of one byte, O19
(R151, R153, R154, R158). -/

namespace Sys2Proof.Machine

/-! ## FREQ_ACCUM -/

theorem countByte_scales {freq : Vector Word 256} {b : Byte} (h : freqAt freq b + 1 = 256) :
    countByte freq b = mapTable scaleCount (bump freq b) := if_pos (beq_iff_eq.mpr h)

theorem countByte_bumps {freq : Vector Word 256} {b : Byte} (h : freqAt freq b + 1 ≠ 256) :
    countByte freq b = bump freq b := if_neg fun e => h (beq_iff_eq.mp e)

/-- RESULT1 of FREQ_ACCUM is 1 when scaling fires and 0 otherwise (R151). -/
theorem scalingFlag_eq (freq : Vector Word 256) (b : Byte) :
    (flagBit (scalingFires freq b)).zeroExtend 32 = if freqAt freq b + 1 = 256 then (1 : Word) else 0 := by
  by_cases h : freqAt freq b + 1 = 256
  · rw [if_pos h, scalingFires, beq_iff_eq.mpr h]; rfl
  · rw [if_neg h, scalingFires, beq_eq_false_iff_ne.mpr h]; rfl

/-- FREQ_ACCUM completes in every state and writes FREQ and the two results (R151). -/
theorem exec_freqAccum (b : Byte) (s : State) :
    exec (.freqAccum b) s = .next (complete (setResults (freqAt (countByte s.freq b) b)
      (if freqAt s.freq b + 1 = 256 then 1 else 0) { s with freq := countByte s.freq b })) := by
  rw [← scalingFlag_eq]; rfl

/-- Settles O16: the command is one update of the state, and its table is read by whether scaling fires. -/
theorem freqAccumCountsAndRescales : Obligations.FreqAccumCountsAndRescales := by
  intro s b
  refine ⟨countByte s.freq b, _, exec_freqAccum b s, fun h => ⟨if_neg h, fun c => ?_⟩,
    fun h => ⟨if_pos h, ?_, fun c hc => ?_⟩⟩
  · rw [countByte_bumps h, freqAt_bump]
  · rw [countByte_scales h, freqAt_mapTable, freqAt_bump, if_pos rfl, h]; decide
  · rw [countByte_scales h, freqAt_mapTable, freqAt_bump, if_neg hc, scaleCount]

/-- The table and RESULT1 after a FREQ_ACCUM. -/
theorem freqAccum_writes {b : Byte} {s t : State} (h : exec (.freqAccum b) s = .next t) :
    t.freq = countByte s.freq b ∧ t.result1 = if freqAt s.freq b + 1 = 256 then 1 else 0 := by
  rw [exec_freqAccum] at h
  cases h
  exact ⟨rfl, rfl⟩

/-! ## Counts as numbers: nothing wraps (R156) -/

/-- A zero count stays 0 under the same formula as the others. -/
theorem scaleCount_toNat {c : Word} (h : c.toNat ≤ 256) : (scaleCount c).toNat = (c.toNat + 1) / 2 := by
  unfold scaleCount
  split
  · next h0 => rw [h0]; rfl
  · rw [BitVec.toNat_udiv, BitVec.toNat_add, show (1 : Word).toNat = 1 from rfl, show (2 : Word).toNat = 2 from rfl]
    omega

theorem bump_toNat {freq : Vector Word 256} {b : Byte} (hb : (freqAt freq b).toNat ≤ 255) (c : Byte) :
    (freqAt (bump freq b) c).toNat = if c = b then (freqAt freq c).toNat + 1 else (freqAt freq c).toNat := by
  rw [freqAt_bump]
  split
  · next h => subst h; bv_omega
  · rfl

theorem count_succ_eq_256_iff (freq : Vector Word 256) (b : Byte) :
    freqAt freq b + 1 = 256 ↔ (freqAt freq b).toNat = 255 := by
  constructor <;> intro h <;> bv_omega

/-- Each count after a byte is its bumped count, or half of it rounded up when the byte's count was 255. -/
theorem countByte_toNat {freq : Vector Word 256} {b c : Byte} (hb : (freqAt freq b).toNat ≤ 255)
    (hc : (freqAt freq c).toNat ≤ 255) : (freqAt (countByte freq b) c).toNat =
      if (freqAt freq b).toNat = 255 then ((freqAt (bump freq b) c).toNat + 1) / 2
      else (freqAt (bump freq b) c).toNat := by
  split
  · next h =>
    have hle : (freqAt (bump freq b) c).toNat ≤ 256 := by rw [bump_toNat hb]; split <;> omega
    rw [countByte_scales ((count_succ_eq_256_iff freq b).mpr h), freqAt_mapTable, scaleCount_toNat hle]
  · next h => rw [countByte_bumps fun e => h ((count_succ_eq_256_iff freq b).mp e)]

/-- Settles O17: the bound is the one the invariant keeps; a positive count is still positive after the increment, and
half of it, rounded up, is too. -/
theorem scalingKeepsCountsSmallAndPositive : Obligations.ScalingKeepsCountsSmallAndPositive := by
  intro s t b hle ht
  obtain ⟨hfreq, -⟩ := freqAccum_writes ht
  rw [hfreq]
  refine ⟨freqAt_countByte_le hle b, fun c hpos => ?_⟩
  have hbump : 0 < (freqAt (bump s.freq b) c).toNat := by rw [bump_toNat (hle b)]; split <;> omega
  rw [countByte_toNat (hle b) (hle c)]
  split <;> omega

/-- Settles O18: RESULT1 = 1 says that scaling fired, and halving with rounding up is monotone. -/
theorem scalingIsMonotone : Obligations.ScalingIsMonotone := by
  refine ⟨fun s t v a b hle ht hfired hab => ?_, by decide, by decide⟩
  obtain ⟨hfreq, hflag⟩ := freqAccum_writes ht
  have h255 : (freqAt s.freq v).toNat = 255 := by
    rw [← count_succ_eq_256_iff]
    by_contra hn
    rw [hfired, if_neg hn] at hflag
    exact absurd hflag (by decide)
  rw [BitVec.le_def] at hab ⊢
  rw [hfreq, countByte_toNat (hle v) (hle b), countByte_toNat (hle v) (hle a), if_pos h255, if_pos h255]
  omega

/-! ## Copies of one byte -/

/-- The count of a byte after `n` copies of it (R158). -/
def copiesCount (n : Nat) : Nat := if n < 256 then n else 128 + (n - 256) % 128

/-- How many of `n` copies of a byte made scaling fire (R158). -/
def copiesScalings (n : Nat) : Nat := if n < 256 then 0 else 1 + (n - 256) / 128

theorem copiesCount_low {n : Nat} (h : n < 256) : copiesCount n = n := if_pos h

theorem copiesCount_high (m : Nat) : copiesCount (256 + m) = 128 + m % 128 := by
  rw [copiesCount, if_neg (by omega), Nat.add_sub_cancel_left]

theorem copiesScalings_low {n : Nat} (h : n < 256) : copiesScalings n = 0 := if_pos h

theorem copiesScalings_high (m : Nat) : copiesScalings (256 + m) = 1 + m / 128 := by
  rw [copiesScalings, if_neg (by omega), Nat.add_sub_cancel_left]

theorem copiesCount_le (n : Nat) : copiesCount n ≤ 255 := by
  unfold copiesCount; split <;> omega

/-- The closed form and the number of scalings step together: below 255 by counting, at 255 by the first scaling, and
from then on with period 128. -/
theorem copies_succ (n : Nat) :
    copiesCount (n + 1) = (if copiesCount n = 255 then 128 else copiesCount n + 1) ∧
      copiesScalings (n + 1) = copiesScalings n + if copiesCount n = 255 then 1 else 0 := by
  obtain h | rfl | h : n < 255 ∨ n = 255 ∨ 256 ≤ n := by omega
  · have hn : n < 256 := by omega
    have hs : n + 1 < 256 := by omega
    rw [copiesCount_low hn, copiesCount_low hs, copiesScalings_low hn, copiesScalings_low hs, if_neg h.ne, if_neg h.ne]
    exact ⟨rfl, rfl⟩
  · decide
  · obtain ⟨m, rfl⟩ := Nat.exists_eq_add_of_le h
    rw [Nat.add_assoc, copiesCount_high, copiesCount_high, copiesScalings_high, copiesScalings_high]
    constructor <;> split <;> omega

/-- Scaling fires once for each copy that finds the count at 255. -/
theorem length_filter_copiesCount (n : Nat) :
    ((List.range n).filter fun k => copiesCount k = 255).length = copiesScalings n := by
  induction n with
  | zero => rfl
  | succ n ih =>
    rw [List.range_succ, List.filter_append, List.length_append, ih, (copies_succ n).2]
    by_cases h : copiesCount n = 255 <;> simp [h]

theorem execAll_singleton (i : Instr) (s : State) : execAll [i] s = exec i s := by
  unfold execAll
  cases exec i s <;> rfl

/-- A run goes on with one more command from the state it has reached. -/
theorem execAll_concat {is : List Instr} (i : Instr) {s t : State} (h : execAll is s = .next t) :
    execAll (is ++ [i]) s = exec i t := by
  induction is generalizing s with
  | nil => cases h; exact execAll_singleton i _
  | cons j is ih =>
    rw [List.cons_append, execAll]
    rw [execAll] at h
    cases hj : exec j s with
    | next u => rw [hj] at h; exact ih h
    | fault r => rw [hj] at h; cases h
    | refused r => rw [hj] at h; cases h

theorem execAll_replicate_succ {n : Nat} {i : Instr} {s t : State} (h : execAll (List.replicate n i) s = .next t) :
    execAll (List.replicate (n + 1) i) s = exec i t := by
  rw [List.replicate_succ', execAll_concat i h]

/-- One more copy steps the closed form, and RESULT1 tells whether the count stood at 255. -/
theorem exec_freqAccum_copy {v : Byte} {n : Nat} {s : State} (h : (freqAt s.freq v).toNat = copiesCount n) :
    ∃ t, exec (.freqAccum v) s = .next t ∧ (freqAt t.freq v).toNat = copiesCount (n + 1) ∧
      (t.result1 == 1) = decide (copiesCount n = 255) := by
  have hle : (freqAt s.freq v).toNat ≤ 255 := h ▸ copiesCount_le n
  refine ⟨_, exec_freqAccum v s, ?_, ?_⟩
  · change (freqAt (countByte s.freq v) v).toNat = _
    rw [countByte_toNat hle hle, bump_toNat hle, if_pos rfl, (copies_succ n).1, h]
    split <;> omega
  · change ((if freqAt s.freq v + 1 = 256 then (1 : Word) else 0) == 1) = _
    by_cases hn : copiesCount n = 255
    · rw [if_pos ((count_succ_eq_256_iff s.freq v).mpr (h.trans hn)), decide_eq_true hn]; rfl
    · rw [if_neg fun e => hn (h ▸ (count_succ_eq_256_iff s.freq v).mp e), decide_eq_false hn]; rfl

/-- The count after `n` copies from a count of 0. -/
theorem execAll_copies {v : Byte} {s : State} (h0 : freqAt s.freq v = 0) (n : Nat) :
    ∃ t, execAll (List.replicate n (.freqAccum v)) s = .next t ∧ (freqAt t.freq v).toNat = copiesCount n := by
  induction n with
  | zero => exact ⟨s, rfl, by rw [h0]; rfl⟩
  | succ n ih =>
    obtain ⟨t, ht, hn⟩ := ih
    obtain ⟨u, hu, hcount, -⟩ := exec_freqAccum_copy hn
    exact ⟨u, (execAll_replicate_succ ht).trans hu, hcount⟩

/-- RESULT1 of copy number `n + 1`. -/
theorem execAll_copies_result1 {v : Byte} {s : State} (h0 : freqAt s.freq v = 0) (n : Nat) :
    ∃ u, execAll (List.replicate (n + 1) (.freqAccum v)) s = .next u ∧
      (u.result1 == 1) = decide (copiesCount n = 255) := by
  obtain ⟨t, ht, hn⟩ := execAll_copies h0 n
  obtain ⟨u, hu, -, hflag⟩ := exec_freqAccum_copy hn
  exact ⟨u, (execAll_replicate_succ ht).trans hu, hflag⟩

/-- Settles O19: the count follows the closed form, and copy `k + 1` reports scaling when the form stood at 255. -/
theorem repeatedByteClosedForm : Obligations.RepeatedByteClosedForm := by
  intro s v n h0
  obtain ⟨t, ht, hcount⟩ := execAll_copies (h0 v) n
  refine ⟨t, ht, hcount, ?_⟩
  rw [← copiesScalings, ← length_filter_copiesCount]
  congr 1
  refine List.filter_congr fun k _ => ?_
  obtain ⟨u, hu, hflag⟩ := execAll_copies_result1 (h0 v) k
  rw [hu]
  exact hflag

end Sys2Proof.Machine
end

section
/-! The tree builder: FreqLeaves, O20; ExtractMin, O22; TREE_BUILD and TREE_RELEASE, O21 and O25; the trees of one symbol
and of none, O24; the round trip of the leaf list and the tree through the header, O36. -/

namespace Sys2Proof.Machine

/-! ## FreqLeaves and ExtractMin -/

/-- Settles O20: the members, their order and their range are the three laws of FreqLeaves. -/
theorem freqLeavesAscend : Obligations.FreqLeavesAscend := by
  intro freq
  exact ⟨mem_freqLeaves freq, freqLeaves_ascending freq, freqLeaves_ok⟩

/-- Settles O22: ExtractMin permutes the queue, and what it takes comes before the rest. -/
theorem extractMinTakesTheLeastKey : Obligations.ExtractMinTakesTheLeastKey := by
  intro e m q rest h
  have hperm := extractMin_perm e q
  have hleast := extractMin_least e q
  rw [h] at hperm hleast
  exact ⟨hperm, fun hd x hx => (QEntry.before_iff m x).mp (hleast hd x hx)⟩

/-! ## TREE_BUILD and TREE_RELEASE -/

/-- TREE_BUILD from FREQ builds on FreqLeaves, in every state (R170). -/
theorem exec_treeBuild_freq (s : State) : exec (.treeBuild .freq) s =
    .next (complete (buildFrom { s with leaves := freqLeaves s.freq, leavesValid := true })) := rfl

/-- TREE_BUILD from complete LEAVES (R170). -/
theorem exec_treeBuild_hdr {s : State} (hl : s.leavesValid = true) :
    exec (.treeBuild .hdr) s = .next (complete (buildFrom s)) := if_pos hl

/-- TREE_BUILD from incomplete LEAVES is a fault (R170). -/
theorem exec_treeBuild_hdr_invalid {s : State} (hl : s.leavesValid = false) :
    exec (.treeBuild .hdr) s = .next (raise .sequenceError .treeBuild s) :=
  if_neg (Bool.eq_false_iff.mp hl)

/-- Settles O21: a build writes the tree, a cleared CODE and the results, and a fault is the fault entry. -/
theorem treeBuildCompletes : Obligations.TreeBuildCompletes := by
  intro s
  exact ⟨Vector.replicate 257 CodeEntry.cleared, fun _ hk => Vector.getElem_replicate hk, exec_treeBuild_freq s,
    exec_treeBuild_hdr, exec_treeBuild_hdr_invalid⟩

theorem exec_treeRelease (s : State) : exec .treeRelease s = .next (complete { s with tree := none }) := rfl

/-- Settles O25: the release is one update of the state and completes. -/
theorem treeReleaseOnlyReleases : Obligations.TreeReleaseOnlyReleases := exec_treeRelease

/-! ## The trees of one data symbol and of none (R175, R176) -/

/-- The first entry of the initial queue of one data symbol (R172). -/
def symbolEntry (l : LeafEntry) : QEntry := { seq := 0, tree := leafNode l }

/-- The last entry of that queue, the end-of-stream node (R172). -/
def eofEntry (eof : Sym) : QEntry := { seq := 1, tree := eofNode eof }

/-- One merge makes the tree of one data symbol; the entry extracted first is its left child (R172). -/
theorem buildTree_singleton (eof : Sym) (l : LeafEntry) : buildTree eof [l] =
    if (symbolEntry l).before (eofEntry eof) then .internal (l.weight + 1) (leafNode l) (eofNode eof)
    else .internal (1 + l.weight) (eofNode eof) (leafNode l) := by
  change mergeLoop 1 2 (symbolEntry l) [eofEntry eof] = _
  by_cases h : (symbolEntry l).before (eofEntry eof)
  · have hmin : extractMin (symbolEntry l) [eofEntry eof] = (symbolEntry l, [eofEntry eof]) := if_pos h
    rw [mergeLoop, hmin, if_pos h]; rfl
  · have hmin : extractMin (symbolEntry l) [eofEntry eof] = (eofEntry eof, [symbolEntry l]) := if_neg h
    rw [mergeLoop, hmin, if_neg h]; rfl

/-- The data symbol is extracted before the end-of-stream node, of weight 1, only on a tie (R173, R176). -/
theorem symbolEntry_before_iff {l : LeafEntry} (eof : Sym) (h : 1 ≤ l.weight.toNat) :
    (symbolEntry l).before (eofEntry eof) = true ↔ l.weight = 1 := by
  rw [QEntry.before_iff]
  change l.weight.toNat < 1 ∨ (l.weight = 1 ∧ 0 < 1) ↔ l.weight = 1
  constructor
  · rintro (hlt | ⟨heq, -⟩)
    · omega
    · exact heq
  · exact fun heq => .inr ⟨heq, Nat.one_pos⟩

/-- The paths of a node with two leaves are one bit long. -/
theorem treePaths_two_leaves {w w0 w1 : Word} {a b : Sym} :
    ∀ p ∈ treePaths (.internal w (.leaf a w0) (.leaf b w1)), p.2.length = 1 := by
  simp [treePaths]

/-- Settles O24: the tie rule decides which of the two leaves is extracted first. -/
theorem oneSymbolTree : Obligations.OneSymbolTree := by
  intro eof l h1 _
  have hbefore := symbolEntry_before_iff eof h1
  refine ⟨fun hgt => ?_, fun heq => ?_, ?_, rfl⟩
  · have hne : l.weight ≠ 1 := fun e => by rw [e] at hgt; exact absurd hgt (by decide)
    rw [buildTree_singleton, if_neg (mt hbefore.mp hne), BitVec.add_comm]; rfl
  · have hw : l.weight = 1 := BitVec.eq_of_toNat_eq heq
    rw [buildTree_singleton, if_pos (hbefore.mpr hw), leafNode, hw]; rfl
  · rw [buildTree_singleton]
    split
    · exact treePaths_two_leaves
    · exact treePaths_two_leaves

/-! ## The round trip through the header (R177, R215) -/

/-- A row of PushOuts that goes on has appended every byte (R88). -/
theorem pushAll_outq {ph : Phase} {bs : List Byte} {s t : State} (h : pushAll ph bs s = .ok () t) :
    t.outq = s.outq ++ bs := by
  induction bs generalizing s with
  | nil => cases h; exact (List.append_nil _).symm
  | cons b bs ih =>
    rw [pushAll] at h
    cases he : s.outErr with
    | true => rw [pushOut_failed he] at h; cases h
    | false =>
      rw [pushOut_ok he] at h
      rw [ih h]
      exact List.append_assoc ..

/-- HDR_EMIT that records no fault has appended the whole header to OUT (R210). -/
theorem hdrEmit_outq {s t : State} (h : exec .hdrEmit s = .next t) (hf : t.fault = false) :
    t.outq = s.outq ++ headerOf (freqLeaves s.freq) := by
  rw [exec, execHdrEmit, headerBytes_eq] at h
  split at h
  · obtain ⟨u, hu, _⟩ | ⟨u, hu, _⟩ := (pushAll_writes .headerWrite (headerOf (freqLeaves s.freq)) s).cases
    · have hout := pushAll_outq hu
      rw [hu] at h
      cases h
      exact hout
    · rw [hu] at h
      cases h
      cases hf
  · cases h
    cases hf

/-- HDR_PARSE of a whole header stores its leaf list and leaves in IN what follows the sentinel (R211). -/
theorem exec_hdrParse_headerOf {s : State} {leaves : List LeafEntry} {rest : List Byte} (hl : leaves.length ≤ 256)
    (hok : ∀ l ∈ leaves, l.Ok) (hq : s.inq = headerOf leaves ++ rest) :
    exec .hdrParse s = .next (complete (setResults (BitVec.ofNat 32 leaves.length)
      (BitVec.ofNat 32 (2 * leaves.length + 1)) { s with
        inq := rest, leaves := leaves, leavesValid := true, rdCnt := 0, tree := none, eos := false })) := by
  rw [headerOf, List.append_assoc] at hq
  rw [exec_hdrParse hl hok hq, List.singleton_append, scanHeader_sentinel]
  rfl

/-- The end-of-stream symbol depends on the mode alone (R11). -/
theorem eofSym_congr {p q : Params} (h : p.eofMode = q.eofMode) : p.eofSym = q.eofSym := by
  rw [Params.eofSym, Params.eofSym, h]

/-- What CODE_DERIVE leaves in CODE and CODES_VALID depends on TREE and CODE alone (R190, R194). -/
theorem codeDerive_congr {a b c d : State} (htree : a.tree = b.tree) (hcode : a.code = b.code)
    (hc : exec .codeDerive a = .next c) (hd : exec .codeDerive b = .next d) :
    c.code = d.code ∧ c.codesValid = d.codesValid := by
  rw [exec, execCodeDerive] at hc hd
  rw [← htree] at hd
  cases ht : a.tree with
  | none =>
    rw [ht] at hc hd
    cases hc
    cases hd
    exact ⟨hcode, rfl⟩
  | some root =>
    rw [ht] at hc hd
    by_cases hdeep : Config.maxCodeLen < treeDepth root
    · simp only [if_pos hdeep] at hc hd
      cases hc
      cases hd
      exact ⟨hcode, rfl⟩
    · simp only [if_neg hdeep] at hc hd
      cases hc
      cases hd
      exact ⟨rfl, rfl⟩

/-- Settles O36: HDR_PARSE reads back the header HDR_EMIT appended, so both sides build on one leaf list with one
end-of-stream symbol. -/
theorem headerRoundTrip : Obligations.HeaderRoundTrip := by
  intro s t u v rest hs hmode hemit hf hq hparse
  rw [hdrEmit_outq hemit hf, List.drop_left] at hq
  rw [exec_hdrParse_headerOf (freqLeaves_length s.freq) (freqLeaves_ok hs.counts) hq] at hparse
  cases hparse
  have htree : some (buildTree s.params.eofSym (freqLeaves s.freq)) =
      some (buildTree u.params.eofSym (freqLeaves s.freq)) := by rw [eofSym_congr hmode]
  exact ⟨rfl, rfl, rfl, _, _, exec_treeBuild_freq s, exec_treeBuild_hdr rfl, htree,
    fun _ _ => codeDerive_congr htree rfl⟩

end Sys2Proof.Machine
end

section
/-! The code table: the Kraft equality, O29; CODE_DERIVE's faults, O27; CODE_READ, O30 (R190, R191, R194, R198). -/

namespace Sys2Proof.Machine

/-! ## The Kraft equality (R198) -/

/-- Adding a branch to every path below a node leaves each of them the share it had, out of twice the total. -/
theorem sum_map_branch (b : Bool) (n : Nat) (ps : List (Sym × List Bool)) :
    ((ps.map fun p => (p.1, b :: p.2)).map fun p => 2 ^ (n + 1 - p.2.length)).sum =
      (ps.map fun p => 2 ^ (n - p.2.length)).sum := by
  simp [Function.comp_def]

/-- The leaves of a tree share out `2 ^ n` exactly, for any `n` no smaller than its depth: each internal node halves
what it has between its two children (R198). -/
theorem treePaths_kraft {t : Tree} {n : Nat} (hd : treeDepth t ≤ n) :
    ((treePaths t).map fun p => 2 ^ (n - p.2.length)).sum = 2 ^ n := by
  induction t generalizing n with
  | leaf s w => simp [treePaths]
  | internal w c0 c1 ih0 ih1 =>
    rw [treeDepth] at hd
    obtain ⟨m, rfl⟩ : ∃ m, n = m + 1 := Nat.exists_eq_add_one.mpr (by omega)
    rw [treePaths, List.map_append, List.sum_append, sum_map_branch, sum_map_branch, ih0 (by omega), ih1 (by omega),
      Nat.pow_succ, Nat.mul_two]

/-- Where the leaves have distinct labels, each leaf's path is the entry of its label (R192; R196 is the other
case). -/
theorem codeAt_deriveTable_of_mem {t : Tree} (hs : ∀ p ∈ treePaths t, p.1.toNat < 257)
    (hn : ((treePaths t).map (·.1)).Nodup) {p : Sym × List Bool} (hp : p ∈ treePaths t) :
    codeAt (deriveTable t) p.1 = pathEntry p.2 := by
  cases hq : (treePaths t).reverse.find? (fun q => q.1 == p.1) with
  | some q =>
    have hm : q ∈ treePaths t := List.mem_reverse.mp (List.mem_of_find?_eq_some hq)
    have hsym : q.1 = p.1 := by simpa using List.find?_some hq
    rw [codeAt_deriveTable_of_find hs hq, List.inj_on_of_nodup_map hn hm hp hsym]
  | none => exact absurd (beq_self_eq_true p.1) (List.find?_eq_none.mp hq p (List.mem_reverse.mpr hp))

/-- The share of `2 ^ 32` a table entry takes: none where it is not valid (R198). -/
def kraftShare (e : CodeEntry) : Nat := if e.valid then 2 ^ (32 - e.len.toNat) else 0

/-- An entry that records a path takes that path's share. -/
theorem kraftShare_of_records {e : CodeEntry} {path : List Bool} (h : Records e path) :
    kraftShare e = 2 ^ (32 - path.length) := by
  obtain ⟨hv, hlen, -, -⟩ := h
  rw [kraftShare, if_pos hv, hlen]

/-- The sum of a function over a list without repetitions is its sum over any longer one where it is 0 off the
first. -/
theorem sum_map_of_subset {l m : List Nat} (f : Nat → Nat) (hl : l.Nodup) (hm : m.Nodup) (hsub : l ⊆ m)
    (h0 : ∀ k ∈ m, k ∉ l → f k = 0) : (m.map f).sum = (l.map f).sum := by
  rw [← List.sum_toFinset f hl, ← List.sum_toFinset f hm]
  refine (Finset.sum_subset (fun k hk => ?_) fun k hk hkl => ?_).symm
  · exact List.mem_toFinset.mpr (hsub (List.mem_toFinset.mp hk))
  · exact h0 k (List.mem_toFinset.mp hk) (mt List.mem_toFinset.mpr hkl)

/-- The valid entries of a derived table share out what the leaves of the tree do, if their labels are distinct
(R192). -/
theorem kraftShare_deriveTable {t : Tree} (hd : treeDepth t ≤ 32) (hs : ∀ p ∈ treePaths t, p.1.toNat < 257)
    (hn : ((treePaths t).map (·.1)).Nodup) :
    ((List.range 257).map fun k => kraftShare (codeAt (deriveTable t) (BitVec.ofNat 9 k))).sum =
      ((treePaths t).map fun p => 2 ^ (32 - p.2.length)).sum := by
  have hlabels : ((treePaths t).map fun p => p.1.toNat).Nodup := by
    simpa [Function.comp_def] using hn.map BitVec.toNat_injective
  rw [sum_map_of_subset _ hlabels List.nodup_range, List.map_map]
  · refine congrArg List.sum (List.map_congr_left fun p hp => ?_)
    rw [Function.comp_apply, BitVec.ofNat_toNat, BitVec.setWidth_eq, codeAt_deriveTable_of_mem hs hn hp]
    exact kraftShare_of_records (pathEntry_records p.2 ((treePaths_depth t p hp).trans hd))
  · intro k hk
    obtain ⟨p, hp, rfl⟩ := List.mem_map.mp hk
    exact List.mem_range.mpr (hs p hp)
  · intro k hk hno
    refine if_neg fun hv => hno ?_
    obtain ⟨p, hp, hsym⟩ := (codeAt_deriveTable_valid hs _).mp hv
    have hk' : k < 257 := List.mem_range.mp hk
    refine List.mem_map.mpr ⟨p, hp, ?_⟩
    rw [hsym, BitVec.toNat_ofNat, Nat.mod_eq_of_lt (by omega)]

/-- Settles O29: the leaves share out the whole, and a derived table's valid entries are the leaves' paths. -/
theorem kraftEquality : Obligations.KraftEquality := by
  refine ⟨fun _ => treePaths_kraft le_rfl, fun s t root hr hs hn ht hv => ?_⟩
  obtain ⟨root', hr', hd, hcode⟩ := exec_codeDerive_codesValid ht hv
  obtain rfl : root = root' := Option.some.inj (hr.symm.trans hr')
  rw [hcode]
  exact (kraftShare_deriveTable hd (fun p hp => Nat.lt_succ_of_le (hs p hp)) hn).trans (treePaths_kraft hd)

/-! ## CODE_DERIVE's faults -/

/-- CODE_DERIVE with no tree is a fault (R190). -/
theorem exec_codeDerive_none {s : State} (hr : s.tree = none) :
    exec .codeDerive s = .next (raise .sequenceError .codeDerive s) := by
  rw [exec, execCodeDerive, hr]

/-- CODE_DERIVE of a tree deeper than 32 is a fault (R194). -/
theorem exec_codeDerive_deep {s : State} {root : Tree} (hr : s.tree = some root) (hd : 32 < treeDepth root) :
    exec .codeDerive s = .next (raise .unsupportedDistribution .codeDerive s) := by
  rw [exec, execCodeDerive, hr]
  exact if_pos hd

/-- Settles O27: both faults are the fault entry, which leaves CODE as it is. -/
theorem codeDeriveRefusesWithoutWriting : Obligations.CodeDeriveRefusesWithoutWriting :=
  fun _ => ⟨exec_codeDerive_none, fun _ => exec_codeDerive_deep⟩

/-! ## CODE_READ -/

/-- CODE_READ of a symbol of the table (R191). -/
theorem exec_codeRead {s : State} {sym : Sym} (h : sym.toNat ≤ 256) : exec (.codeRead sym) s =
    .next (complete (setResults (codeAt s.code sym).pat (codeInfoWord (codeAt s.code sym)) s)) :=
  if_pos (decide_eq_true h)

/-- A symbol of the table reads its own entry (R38). -/
theorem codeAt_eq_getElem (code : Vector CodeEntry 257) {sym : Sym} (h : sym.toNat < 257) :
    codeAt code sym = code[sym.toNat] := dif_pos h

/-- The bits of RESULT1 after CODE_READ (R191). -/
theorem codeInfoWord_getLsbD (e : CodeEntry) (i : Nat) : (codeInfoWord e).getLsbD i =
    if i < 31 then if i < 6 then e.len.getLsbD i else false else (flagBit e.valid).getLsbD (i - 31) := by
  rw [codeInfoWord, BitVec.getLsbD_cast, BitVec.getLsbD_append, BitVec.getLsbD_append, BitVec.ofNat_eq_ofNat,
    BitVec.getLsbD_zero]

/-- The fields of RESULT1 after CODE_READ (R191). -/
theorem codeInfoWord_fields (e : CodeEntry) : (codeInfoWord e).getLsbD 31 = e.valid ∧
    (codeInfoWord e).extractLsb' 6 25 = 0 ∧ (codeInfoWord e).extractLsb' 0 6 = e.len := by
  refine ⟨?_, ?_, ?_⟩
  · rw [codeInfoWord_getLsbD]
    exact BitVec.getLsbD_ofBool ..
  · ext i hi
    have h31 : 6 + i < 31 := by omega
    simp [codeInfoWord_getLsbD, h31]
  · ext i hi
    have h31 : i < 31 := by omega
    simp [codeInfoWord_getLsbD, h31, hi]

/-- Settles O30: the two results are the entry's pattern and its information word. -/
theorem codeReadReadsTheEntry : Obligations.CodeReadReadsTheEntry := by
  intro s sym h
  have hread := exec_codeRead (s := s) h
  rw [codeAt_eq_getElem s.code (Nat.lt_succ_of_le h)] at hread
  exact ⟨_, hread, codeInfoWord_fields _⟩

end Sys2Proof.Machine
end

section
/-! The header codec: HDR_EMIT's faults, O32; the count bytes, O37; HDR_PARSE of a whole and of a too long header, O33
and O34; LEAF_READ, O38. -/

namespace Sys2Proof.Machine

/-! ## HDR_EMIT (R210, R216) -/

/-- HDR_EMIT with bits in the rack is a fault, and pushes nothing (R86, R210). -/
theorem exec_hdrEmit_unaligned {s : State} (h0 : s.wrCnt ≠ 0) :
    exec .hdrEmit s = .next (raise .sequenceError .headerWrite s) := if_neg h0

/-- HDR_EMIT into an OUT that fails below the header's length: the bytes before the failure are on OUT (R210, R275). -/
theorem exec_hdrEmit_failed {s : State} {n : Nat} (h0 : s.wrCnt = 0) (hn : n < 2 * (freqLeaves s.freq).length + 1)
    (hf : OutFailsAfter n s) : exec .hdrEmit s = .next (raise .ioFailure .headerWrite { s with
      outq := s.outq ++ (headerOf (freqLeaves s.freq)).take n, outErr := true,
      outErrAfter := if n = 0 then s.outErrAfter else none }) := by
  rw [← headerOf_length] at hn
  rw [exec, execHdrEmit, if_pos h0, headerBytes_eq, pushAll_failed .headerWrite _ s n hn hf]

/-- Settles O32: both faults are the fault entry, the second in the state with the pushed bytes on OUT. -/
theorem hdrEmitFaults : Obligations.HdrEmitFaults :=
  fun _ => ⟨exec_hdrEmit_unaligned, fun _ => exec_hdrEmit_failed⟩

/-- The count byte of a weight in 1..255 is the whole weight (R212). -/
theorem LeafEntry.Ok.count_toNat {l : LeafEntry} (h : l.Ok) :
    (l.weight.truncate 8 : Byte).toNat = l.weight.toNat := by
  obtain ⟨_, h255⟩ := h
  rw [BitVec.truncate_eq_setWidth, BitVec.toNat_setWidth]
  exact Nat.mod_eq_of_lt (Nat.lt_succ_of_le h255)

/-- Settles O37: a pair of the header is an entry of FreqLeaves, whose weight is in 1..255. -/
theorem headerCountsAreNeverTheSentinel : Obligations.HeaderCountsAreNeverTheSentinel := by
  intro s hcounts
  refine ⟨headerBytes_eq s.freq, fun p hp => ?_⟩
  rw [headerPairs_eq] at hp
  obtain ⟨l, hl, rfl⟩ := List.mem_map.mp hp
  have hok : l.Ok := freqLeaves_ok hcounts l hl
  have hweight : l.weight = freqAt s.freq l.sym := ((mem_freqLeaves s.freq l).mp hl).1
  refine ⟨hok.count.1, ?_⟩
  rw [← hweight, hok.count_toNat]

/-! ## HDR_PARSE (R211) -/

/-- Settles O33: the loop stores the pairs and stops at the sentinel. -/
theorem hdrParseReadsAHeader : Obligations.HdrParseReadsAHeader :=
  fun _ _ _ hl hok hq => exec_hdrParse_headerOf hl hok hq

/-- Settles O34: the loop stores 256 pairs, and the next count byte finds LEAVES full. -/
theorem hdrParseOverflows : Obligations.HdrParseOverflows := by
  intro s leaves c rest hl hok hc hq
  rw [headerOf, List.dropLast_concat] at hq
  rw [exec_hdrParse hl.le hok hq, scanHeader_full rest _ hc hl]
  rfl

/-! ## LEAF_READ (R214) -/

/-- LEAF_READ of an index of the list. -/
theorem exec_leafRead_entry {s : State} {i : Byte} (hi : i.toNat < s.leaves.length) (hv : s.leavesValid = true) :
    exec (.leafRead i) s = .next (complete (setResults s.leaves[i.toNat].weight
      (s.leaves[i.toNat].sym.zeroExtend 32) s)) := by
  rw [exec, execLeafRead, if_pos hv, leafAt, List.getElem?_eq_getElem hi]

/-- LEAF_READ of an index past the end. -/
theorem exec_leafRead_past {s : State} {i : Byte} (hi : s.leaves.length ≤ i.toNat) (hv : s.leavesValid = true) :
    exec (.leafRead i) s = .next (complete (setResults 0 0 s)) := by
  rw [exec, execLeafRead, if_pos hv, leafAt, List.getElem?_eq_none hi]

/-- LEAF_READ with no complete leaf list is a fault. -/
theorem exec_leafRead_invalid {s : State} {i : Byte} (hv : s.leavesValid = false) :
    exec (.leafRead i) s = .next (raise .sequenceError .headerRead s) := if_neg (ne_true_of_eq_false hv)

/-- Settles O38: the list is complete and the index in it, complete and the index past its end, or not complete. -/
theorem leafReadReadsTheList : Obligations.LeafReadReadsTheList :=
  fun _ _ => ⟨exec_leafRead_entry, exec_leafRead_past, exec_leafRead_invalid⟩

end Sys2Proof.Machine
end

section
/-! The encoder streamer: the preconditions of ENC_BYTE and ENC_EOF, O40 (R230, R231, R274). -/

namespace Sys2Proof.Machine

/-- With no valid codes, writing any symbol's code is a fault (R230). -/
theorem encodeSym_sequenceError {s : State} (sym : Sym) (hc : s.codesValid = false) :
    encodeSym sym s = .next (raise .sequenceError .bitEncode s) := if_neg (ne_true_of_eq_false hc)

/-- With valid codes, a symbol without one is a fault (R230). -/
theorem encodeSym_symbolNotInTree {s : State} {sym : Sym} (hc : s.codesValid = true)
    (hv : (codeAt s.code sym).valid = false) :
    encodeSym sym s = .next (raise .symbolNotInTree .bitEncode s) := by
  rw [encodeSym, if_pos hc, if_neg (ne_true_of_eq_false hv)]

/-- Settles O40: CODES_VALID is checked first, and the symbol's entry only when it is set. -/
theorem encodingPreconditions : Obligations.EncodingPreconditions := by
  intro s i sym hi h
  rw [exec_encode hi]
  cases hc : s.codesValid with
  | false => exact encodeSym_sequenceError sym hc
  | true =>
    have hv : (codeAt s.code sym).valid = false := h.resolve_left (ne_false_of_eq_true hc)
    exact encodeSym_symbolNotInTree hc hv

end Sys2Proof.Machine
end

section
/-! The decoder streamer: the preconditions of DEC_SYMBOL and DEC_STREAM, O45; the bytes a decoding turn writes in
compatibility mode, O47 (R250, R254, R257, R274). -/

namespace Sys2Proof.Machine

/-! ## The preconditions -/

/-- DEC_SYMBOL with no tree, or after the end of the stream, is a fault (R250). -/
theorem exec_decSymbol_refused {s : State} (h : s.tree = none ∨ s.eos = true) :
    exec .decSymbol s = .next (raise .sequenceError .bitDecode s) := by
  rw [exec, execDecSymbol]
  cases ht : s.tree with
  | none => rfl
  | some root => exact if_pos (h.resolve_left (ht ▸ Option.some_ne_none root))

/-- DEC_STREAM with no tree, or after the end of the stream, is a fault (R257). -/
theorem exec_decStream_refused {s : State} (h : s.tree = none ∨ s.eos = true) :
    exec .decStream s = .next (raise .sequenceError .bitDecode s) := by
  rw [exec, execDecStream]
  cases ht : s.tree with
  | none => rfl
  | some root => exact if_pos (h.resolve_left (ht ▸ Option.some_ne_none root))

/-- Settles O45: both decoders check the tree and EOS before they take a bit. -/
theorem decodingPreconditions : Obligations.DecodingPreconditions := by
  rintro s i (rfl | rfl) h
  · exact exec_decSymbol_refused h
  · exact exec_decStream_refused h

/-! ## The label a walk ends at -/

/-- The root is a node of the tree. -/
theorem nodeAt_root {s : State} {root : Tree} (ht : s.tree = some root) :
    ∃ r, s.tree = some r ∧ ∃ bits, nodeAt r bits = some root := ⟨root, ht, [], by rw [nodeAt]⟩

/-- A leaf below a node of the tree is a leaf of the tree. -/
theorem mem_treePaths_of_nodeAt {root node : Tree} {bits path : List Bool} {sym : Sym}
    (hn : nodeAt root bits = some node) (hp : (sym, path) ∈ treePaths node) :
    (sym, bits ++ path) ∈ treePaths root := by
  induction bits generalizing root with
  | nil =>
    obtain rfl : root = node := by simpa [nodeAt] using hn
    exact hp
  | cons b bits ih =>
    cases root with
    | leaf a w => simp [nodeAt] at hn
    | internal w c0 c1 =>
      cases b with
      | false => exact List.mem_append_left _ (List.mem_map.mpr ⟨_, ih hn, rfl⟩)
      | true => exact List.mem_append_right _ (List.mem_map.mpr ⟨_, ih hn, rfl⟩)

/-- PopIn with nothing to pop leaves OUT as it is (R78). -/
theorem starve_outq (ph : Phase) (p : Progress) (s : State) : (starve ph p s).outq = s.outq := by
  rcases starve_cases ph p s with ⟨_, e⟩ | ⟨_, _, e⟩ | ⟨_, _, e⟩ <;> rw [e]
  · exact raise_outq _ _ _
  · exact raise_outq _ _ _
  · exact hold_outq _ _

/-- A walk ends at the label of a leaf below its node, or it stops for want of a byte, and it writes nothing (R251,
R252). -/
theorem walk_label (mk : Tree → Progress) (node : Tree) {s : State} (h8 : s.rdCnt.toNat ≤ 8) :
    (∃ sym path t, walk mk node s = .ok sym t ∧ (sym, path) ∈ treePaths node ∧ t.outq = s.outq ∧
      t.params = s.params) ∨
    (∃ t, walk mk node s = .stop t ∧ t.outq = s.outq) := by
  rcases path_or_cut node (unreadBits s) with ⟨sym, path, more, hp, hu⟩ | ⟨below, hn, hl⟩
  · obtain ⟨t, hw, ⟨hf, _⟩, _⟩ := walk_path mk node s sym path more h8 hp hu
    exact .inl ⟨sym, path, t, hw, hp, by rw [hf], by rw [hf]⟩
  · exact .inr ⟨_, walk_cut mk node below s h8 hn hl, starve_outq _ _ _⟩

/-! ## What a decoding turn writes -/

/-- From `s` to `t` nothing was written, or the byte of one leaf of TREE whose label is not the end-of-stream symbol
(R250, R257). -/
def WritesALabel (s t : State) : Prop :=
  t.outq = s.outq ∨ ∃ root, s.tree = some root ∧ ∃ p ∈ treePaths root, p.1 ≠ s.params.eofSym ∧
    t.outq = s.outq ++ [symByte p.1]

theorem symbolDone_outq {sym : Sym} {t u : State} (h : symbolDone (.ok sym t) = .next u) :
    u.outq = t.outq ∨ (sym ≠ t.params.eofSym ∧ u.outq = t.outq ++ [symByte sym]) := by
  by_cases hs : sym = t.params.eofSym
  · rw [symbolDone_eof hs] at h
    cases h; exact .inl rfl
  · cases ho : t.outErr with
    | false => rw [symbolDone_pushed hs ho] at h; cases h; exact .inr ⟨hs, rfl⟩
    | true => rw [symbolDone_failed hs ho] at h; cases h; exact .inl rfl

theorem countOutput_outq (s : State) : (countOutput s).outq = s.outq := by rw [countOutput_frame]

theorem streamDone_outq {sym : Sym} {t u : State} (h : streamDone (.ok sym t) = .next u) :
    u.outq = t.outq ∨ (sym ≠ t.params.eofSym ∧ u.outq = t.outq ++ [symByte sym]) := by
  by_cases hs : sym = t.params.eofSym
  · rw [streamDone_eof hs] at h
    cases h; exact .inl rfl
  · cases ho : t.outErr with
    | false => rw [streamDone_pushed hs ho] at h; cases h; exact .inr ⟨hs, countOutput_outq _⟩
    | true => rw [streamDone_failed hs ho] at h; cases h; exact .inl rfl

/-- What DecodeOne's end writes is the label the walk reached. -/
theorem writesALabel_of_walk {mk : Tree → Progress} {done : Flow Sym → Host.Outcome State Fault Refusal}
    {node : Tree} {s u : State} (hstop : ∀ t, done (.stop t) = .next t)
    (hdone : ∀ {sym t}, done (.ok sym t) = .next u →
      u.outq = t.outq ∨ (sym ≠ t.params.eofSym ∧ u.outq = t.outq ++ [symByte sym]))
    (hn : ∃ root, s.tree = some root ∧ ∃ bits, nodeAt root bits = some node) (h8 : s.rdCnt.toNat ≤ 8)
    (h : done (walk mk node s) = .next u) : WritesALabel s u := by
  rcases walk_label mk node h8 with ⟨sym, path, t, hw, hp, ho, hparams⟩ | ⟨t, hw, ho⟩ <;> rw [hw] at h
  · rcases hdone h with hu | ⟨hs, hu⟩
    · exact .inl (hu.trans ho)
    · obtain ⟨root, ht, bits, hb⟩ := hn
      exact .inr ⟨root, ht, _, mem_treePaths_of_nodeAt hb hp, hparams ▸ hs, ho ▸ hu⟩
  · rw [hstop] at h
    cases h; exact .inl ho

/-- The first step of DEC_SYMBOL (R250). -/
theorem exec_decSymbol_writesALabel {s t : State} (h8 : s.rdCnt.toNat ≤ 8) (h : exec .decSymbol s = .next t) :
    WritesALabel s t := by
  by_cases hr : s.tree = none ∨ s.eos = true
  · rw [exec_decSymbol_refused hr] at h
    cases h; exact .inl rfl
  · obtain ⟨hne, he⟩ := not_or.mp hr
    obtain ⟨root, ht⟩ := Option.ne_none_iff_exists'.mp hne
    rw [exec_decSymbol ht (eq_false_of_ne_true he)] at h
    exact writesALabel_of_walk (fun _ => rfl) symbolDone_outq (nodeAt_root ht) h8 h

/-- The first step of DEC_STREAM (R257). -/
theorem exec_decStream_writesALabel {s t : State} (h8 : s.rdCnt.toNat ≤ 8) (h : exec .decStream s = .next t) :
    WritesALabel s t := by
  by_cases hr : s.tree = none ∨ s.eos = true
  · rw [exec_decStream_refused hr] at h
    cases h; exact .inl rfl
  · obtain ⟨hne, he⟩ := not_or.mp hr
    obtain ⟨root, ht⟩ := Option.ne_none_iff_exists'.mp hne
    rw [exec_decStream ht (eq_false_of_ne_true he)] at h
    exact writesALabel_of_walk (s := { s with result0 := 0 }) (fun _ => rfl) streamDone_outq (nodeAt_root ht) h8 h

/-- HDR_PARSE leaves OUT as it is (R211). -/
theorem settleScan_outq (r : HdrScan) (s : State) : (settleScan r s).outq = s.outq := by
  cases r with
  | sentinel leaves n rest => rfl
  | overflow leaves rest => rfl
  | wantCount leaves n => exact starve_outq _ _ _
  | wantSym leaves c n => exact starve_outq _ _ _

theorem resumeHdrSym_outq {c : Byte} {n : Nat} {s t : State} (h : resumeHdrSym c n s = .next t) :
    t.outq = s.outq := by
  rw [resumeHdrSym] at h
  split at h <;> cases h
  · exact starve_outq _ _ _
  · exact settleScan_outq _ _

/-- A later turn of a command in progress (R80). -/
theorem blockTurn_writesALabel {s t : State} (hi : Inv s) (hb : s.busy = true) (hstart : s.run ≠ .start)
    (h : blockTurn s = .next t) : WritesALabel s t := by
  have hp := hi.progress hb
  unfold ProgressOk at hp
  cases hr : s.run <;> simp only [hr] at hp
  case start => exact absurd hr hstart
  case hdrCount n =>
    rw [blockTurn_hdrCount hb hr] at h
    cases h; exact .inl (settleScan_outq _ _)
  case hdrSym c n =>
    rw [blockTurn_hdrSym hb hr] at h
    exact .inl (resumeHdrSym_outq h)
  case decSymbol node =>
    rw [blockTurn_decSymbol hb hr] at h
    exact writesALabel_of_walk (fun _ => rfl) symbolDone_outq hp.decoding.inTree hi.unread h
  case streamNext =>
    obtain ⟨_, _, htree⟩ := hp
    obtain ⟨root, ht⟩ := Option.isSome_iff_exists.mp htree
    rw [blockTurn_streamNext hb hr ht] at h
    exact writesALabel_of_walk (fun _ => rfl) streamDone_outq (nodeAt_root ht) hi.unread h
  case streamAt node =>
    rw [blockTurn_streamAt hb hr] at h
    exact writesALabel_of_walk (fun _ => rfl) streamDone_outq hp.decoding.inTree hi.unread h

/-! ## Byte 254 -/

/-- In compatibility mode every label of TREE is a byte (R172, R187). -/
theorem Inv.label_lt {s : State} {root : Tree} (h : Inv s) (hm : s.params.eofMode = .compat) (ht : s.tree = some root)
    {p : Sym × List Bool} (hp : p ∈ treePaths root) : p.1.toNat < 256 := by
  obtain ⟨_, rfl⟩ := h.treeBuilt root ht
  have hlt := treePaths_buildTree_lt s.params s.leaves p hp
  have hne : p.1.toNat ≠ 256 := fun e =>
    treePaths_buildTree_ne_256 hm s.leaves ⟨p, hp, BitVec.eq_of_toNat_eq e⟩
  omega

/-- Of the labels that are bytes, only 254 is written as byte 254. -/
theorem eq_254_of_symByte {sym : Sym} (hlt : sym.toNat < 256) (h : symByte sym = 254) : sym = 254 := by
  have hb := congrArg BitVec.toNat h
  rw [symByte, BitVec.truncate_eq_setWidth, BitVec.toNat_setWidth, Nat.mod_eq_of_lt hlt] at hb
  exact BitVec.eq_of_toNat_eq hb

/-- A label written in compatibility mode is not byte 254: the label 254 is the end-of-stream symbol (R187, R254). -/
theorem WritesALabel.not_mem_254 {s t : State} {out : List Byte} (h : WritesALabel s t) (hi : Inv s)
    (hm : s.params.eofMode = .compat) (ho : t.outq = s.outq ++ out) : (254 : Byte) ∉ out := by
  rcases h with hsame | ⟨root, ht, p, hp, hne, hpush⟩
  · obtain rfl : out = [] := List.append_right_eq_self.mp (ho.symm.trans hsame)
    exact List.not_mem_nil
  · obtain rfl : out = [symByte p.1] := List.append_cancel_left (ho.symm.trans hpush)
    intro hmem
    have h254 : p.1 = 254 := eq_254_of_symByte (hi.label_lt hm ht hp) (List.mem_singleton.mp hmem).symm
    exact hne (by rw [h254, Params.eofSym, hm])

/-- Settles O47: a decoding turn writes at most one byte, of a label that is not the end-of-stream symbol 254. -/
theorem compatibilityDecoderNeverWrites254 : Obligations.CompatibilityDecoderNeverWrites254 := by
  intro s t out hi hm hstep ho
  have hw : WritesALabel s t := by
    rcases hstep with h | h | ⟨hb, hstart, h⟩
    · exact exec_decSymbol_writesALabel hi.unread h
    · exact exec_decStream_writesALabel hi.unread h
    · exact blockTurn_writesALabel hi hb hstart h
  exact hw.not_mem_254 hi hm ho

end Sys2Proof.Machine
end

section
/-! Faults and the machine as a whole: no step ends in a fault of the machine, O58; what a recorded fault keeps, O53; the
kind and the phase of a fault and what it leaves, O52 (R271, R272, R276, R277). -/

namespace Sys2Proof.Machine

/-! ## Every command has an effect -/

theorem finish_total (r : Flow Unit) : ∃ t, finish r = .next t := by
  cases r <;> exact ⟨_, rfl⟩

theorem encodeSym_total (sym : Sym) (s : State) : ∃ t, encodeSym sym s = .next t := by
  rw [encodeSym]
  split
  · split
    · exact finish_total _
    · exact ⟨_, rfl⟩
  · exact ⟨_, rfl⟩

theorem symbolDone_total (r : Flow Sym) : ∃ t, symbolDone r = .next t := by
  cases r with
  | stop t => exact ⟨_, rfl⟩
  | ok sym t =>
    rw [symbolDone]
    split
    · exact ⟨_, rfl⟩
    · exact finish_total _

theorem streamDone_total (r : Flow Sym) : ∃ t, streamDone r = .next t := by
  cases r with
  | stop t => exact ⟨_, rfl⟩
  | ok sym t =>
    rw [streamDone]
    split
    · exact ⟨_, rfl⟩
    · split <;> exact ⟨_, rfl⟩

/-- Every command has a next state, whatever the state it starts in (R276). -/
theorem exec_total (i : Instr) (s : State) : ∃ t, exec i s = .next t := by
  cases i with
  | nop => exact ⟨_, rfl⟩
  | softReset => exact ⟨_, rfl⟩
  | freqClear => exact ⟨_, rfl⟩
  | freqAccum b => exact ⟨_, rfl⟩
  | freqRead b => exact ⟨_, rfl⟩
  | treeBuild src =>
    cases src with
    | freq => exact ⟨_, rfl⟩
    | hdr => rw [exec, execTreeBuild]; split <;> exact ⟨_, rfl⟩
  | treeRelease => exact ⟨_, rfl⟩
  | codeDerive =>
    rw [exec, execCodeDerive]
    split
    · exact ⟨_, rfl⟩
    · split <;> exact ⟨_, rfl⟩
  | codeRead sym => rw [exec, execCodeRead]; split <;> exact ⟨_, rfl⟩
  | hdrEmit =>
    rw [exec, execHdrEmit]
    split
    · split <;> exact ⟨_, rfl⟩
    · exact ⟨_, rfl⟩
  | hdrParse => exact ⟨_, rfl⟩
  | leafRead b =>
    rw [exec, execLeafRead]
    split
    · split <;> exact ⟨_, rfl⟩
    · exact ⟨_, rfl⟩
  | encByte b => exact encodeSym_total _ s
  | encEof => exact encodeSym_total _ s
  | encFlush =>
    rw [exec, execEncFlush]
    split
    · exact ⟨_, rfl⟩
    · split <;> exact ⟨_, rfl⟩
  | decSymbol =>
    rw [exec, execDecSymbol]
    split
    · exact ⟨_, rfl⟩
    · split
      · exact ⟨_, rfl⟩
      · exact symbolDone_total _
  | decStream =>
    rw [exec, execDecStream]
    split
    · exact ⟨_, rfl⟩
    · split
      · exact ⟨_, rfl⟩
      · exact streamDone_total _

theorem dispatch_total (s : State) : ∃ t, dispatch s = .next t := by
  rw [dispatch]
  split
  · exact ⟨_, rfl⟩
  · split
    · exact ⟨_, rfl⟩
    · exact exec_total _ s

/-- A turn of the block has a next state: DEC_STREAM that goes on has its tree (R57, R80). -/
theorem blockTurn_total {s : State} (h : Inv s) : ∃ t, blockTurn s = .next t := by
  cases hb : s.busy with
  | false => exact ⟨s, by simp [blockTurn, hb]⟩
  | true =>
    cases hr : s.run with
    | start => rw [blockTurn, if_pos hb, hr]; exact dispatch_total s
    | hdrCount n => exact ⟨_, blockTurn_hdrCount hb hr⟩
    | hdrSym c n => rw [blockTurn_hdrSym hb hr, resumeHdrSym]; split <;> exact ⟨_, rfl⟩
    | decSymbol node => rw [blockTurn_decSymbol hb hr]; exact symbolDone_total _
    | streamNext =>
      obtain ⟨node, hfrom, _⟩ := h.streamingFrom hb (.inl hr)
      rw [hfrom.blockTurn]; exact streamDone_total _
    | streamAt node => rw [blockTurn_streamAt hb hr]; exact streamDone_total _

/-- A bus access that is not refused reaches a register (R71, R72). -/
theorem busAccess_cases (addr width : Nat) (f : Nat → State → State) (s : State) :
    (∃ offset, busAccess addr width f s = .next (f offset s)) ∨ ∃ r, busAccess addr width f s = .refused r := by
  rw [busAccess]
  split
  · split
    · exact .inl ⟨_, rfl⟩
    · exact .inr ⟨_, rfl⟩
  · exact .inr ⟨_, rfl⟩

theorem busAccess_ne_fault (addr width : Nat) (f : Nat → State → State) (s : State) (r : Fault) :
    busAccess addr width f s ≠ .fault r := by
  rcases busAccess_cases addr width f s with ⟨_, e⟩ | ⟨_, e⟩ <;> rw [e] <;> nofun

/-- A host action has a next state or is refused (R72, R76, R303). -/
theorem hostTurn_ne_fault (a : HostAction) (s : State) (r : Fault) : hostTurn a s ≠ .fault r := by
  cases a with
  | read addr width => exact busAccess_ne_fault _ _ _ s r
  | write addr width data => exact busAccess_ne_fault _ _ (writeRegister · data) s r
  | appendIn bytes => rw [hostTurn]; split <;> nofun
  | endIn => nofun
  | errIn => nofun
  | takeOut n => nofun
  | errOut n => nofun
  | giveIn bytes ended => rw [hostTurn]; split <;> nofun
  | giveOut => rw [hostTurn]; split <;> nofun
  | resetInput => nofun

/-- Settles O58: a turn of the block has a next state, and a host action has one or is refused. -/
theorem stepNeverFaults : Obligations.StepNeverFaults := by
  intro s h
  have hturn : ∀ ag, ∃ t, blockTurn { s with agenda := ag } = .next t :=
    fun ag => blockTurn_total (h.host _ _ _ _ _ _ _ _ ag _)
  refine ⟨fun r => ?_, fun r => ?_⟩
  · rw [step, turn]
    split
    · obtain ⟨t, ht⟩ := blockTurn_total h
      rw [ht]; nofun
    · next rest _ =>
      obtain ⟨t, ht⟩ := hturn rest
      rw [ht]; nofun
    · exact hostTurn_ne_fault _ _ r
  · obtain ⟨t, ht⟩ := blockTurn_total h
    rw [ht]; nofun

/-! ## A recorded fault stays -/

/-- The fault record and the elements of R32 that a faulted block keeps: all but BUSY and OVR (R277). -/
def stickyElements (s : State) :=
  (s.fault, s.fcode, s.fphase, s.fopc, s.freq, s.leaves, s.leavesValid, s.tree, s.code, s.codesValid, s.wrRack, s.wrCnt,
    s.rdByte, s.rdCnt, s.eos, s.result0, s.result1)

/-- No command is in progress while a fault is recorded: a running one would stand where FAULT = 0 (R56, R276). -/
theorem Inv.run_of_fault {s : State} (h : Inv s) (hf : s.fault = true) (hb : s.busy = true) : s.run = .start := by
  have hp := h.progress hb
  unfold ProgressOk at hp
  cases hr : s.run <;> simp only [hr] at hp
  case start => rfl
  case hdrCount n => exact nomatch hf.symm.trans hp.1.1
  case hdrSym c n => exact nomatch hf.symm.trans hp.1.1
  case decSymbol node => exact nomatch hf.symm.trans hp.1
  case streamNext => exact nomatch hf.symm.trans hp.1
  case streamAt node => exact nomatch hf.symm.trans hp.1

/-- A faulted block is idle or discards the word it accepted, unless that is SOFT_RESET's (R140, R277). -/
theorem blockTurn_sticky {s t : State} (h : Inv s) (hf : s.fault = true)
    (hw : ¬ (s.busy = true ∧ s.curCmd = softResetWord)) (ht : blockTurn s = .next t) :
    stickyElements t = stickyElements s := by
  rw [blockTurn] at ht
  split at ht
  · next hb =>
    simp only [h.run_of_fault hf hb, dispatch_of_fault hf fun e => hw ⟨hb, e⟩] at ht
    cases ht; rfl
  · cases ht; rfl

/-- A register read has no side effect on the block (R73). -/
theorem readRegister_sticky (offset : Nat) (s : State) : stickyElements (readRegister offset s) = stickyElements s := by
  have hpick : ∀ f w, stickyElements (if s.busy then drawRead f s else returnRead w s) = stickyElements s :=
    fun f w => by split <;> rfl
  unfold readRegister
  split
  exacts [rfl, rfl, hpick _ _, hpick _ _, hpick _ _, hpick _ _, rfl]

/-- A register write accepts a word, sets OVR or is ignored (R49, R54). -/
theorem writeRegister_sticky (offset : Nat) (w : Word) (s : State) :
    stickyElements (writeRegister offset w s) = stickyElements s := by
  unfold writeRegister writeCommand
  split
  · split <;> rfl
  · rfl

theorem busAccess_sticky {addr width : Nat} {f : Nat → State → State} {s t : State}
    (hf : ∀ offset, stickyElements (f offset s) = stickyElements s) (ht : busAccess addr width f s = .next t) :
    stickyElements t = stickyElements s := by
  rcases busAccess_cases addr width f s with ⟨_, e⟩ | ⟨_, e⟩ <;> cases e.symm.trans ht
  exact hf _

/-- No host action but the reset input writes the block's elements (R57, R73). -/
theorem hostTurn_sticky {a : HostAction} {s t : State} (ha : a ≠ .resetInput) (ht : hostTurn a s = .next t) :
    stickyElements t = stickyElements s := by
  cases a with
  | read addr width => exact busAccess_sticky (readRegister_sticky · s) ht
  | write addr width data => exact busAccess_sticky (writeRegister_sticky · data s) ht
  | appendIn bytes => rw [hostTurn] at ht; split at ht <;> cases ht; rfl
  | endIn => cases ht; rfl
  | errIn => cases ht; rfl
  | takeOut n => cases ht; rfl
  | errOut n => cases n <;> cases ht <;> rfl
  | giveIn bytes ended => rw [hostTurn] at ht; split at ht <;> cases ht; rfl
  | giveOut => rw [hostTurn] at ht; split at ht <;> cases ht; rfl
  | resetInput => exact absurd rfl ha

/-- Settles O53: neither a discarded word nor a host action but the reset input writes what a fault keeps. -/
theorem faultIsStickyUntilReset : Obligations.FaultIsStickyUntilReset := by
  intro s t h hf ht hreset hw
  suffices hkeep : stickyElements t = stickyElements s by
    simpa only [stickyElements, Prod.mk.injEq, hf] using hkeep
  rw [step, turn] at ht
  split at ht
  · exact blockTurn_sticky h hf hw ht
  · next rest _ => exact blockTurn_sticky (s := { s with agenda := rest }) (h.host _ _ _ _ _ _ _ _ _ _) hf hw ht
  · next a rest hag =>
    have ha : a ≠ .resetInput := fun e => hreset (by rw [hag, e]; rfl)
    exact hostTurn_sticky (s := { s with agenda := rest }) ha ht

/-! ## The faults of a command -/

/-- The faults a command can raise once its preconditions are met (R272, R274). -/
def laterFaults (i : Instr) : List FaultKind := (mayRaise i.opcode).filter (· ≠ .sequenceError)

/-- `t` is the fault entry (R276) of one of the kinds `ks` in phase `ph`, from a state that `work` allows. -/
def RaisedAfter (ks : List FaultKind) (ph : Phase) (work : State → Prop) (t : State) : Prop :=
  ∃ k ∈ ks, ∃ u, work u ∧ t = raise k ph u

theorem RaisedAfter.mono {ks ks' : List FaultKind} {ph : Phase} {work work' : State → Prop} {t : State}
    (h : RaisedAfter ks ph work t) (hk : ks ⊆ ks') (hw : ∀ u, work u → work' u) : RaisedAfter ks' ph work' t := by
  obtain ⟨k, hmem, u, hu, ht⟩ := h
  exact ⟨k, hk hmem, u, hw u hu, ht⟩

/-- `u` is `s` after HDR_PARSE's loop popped bytes into LEAVES (R211). -/
def Parsed (s u : State) : Prop := ∃ rest ls, u = { s with inq := rest, leaves := ls }

/-- `u` is `s` after a decoder took bits and set RESULT0 (R83, R250). -/
def TookBits (s u : State) : Prop :=
  ∃ byte cnt rest r0, u = { s with rdByte := byte, rdCnt := cnt, inq := rest, result0 := r0 }

theorem Unpacked.tookBits {s u : State} (h : Unpacked s u) (r0 : Word) : TookBits s { u with result0 := r0 } := by
  obtain ⟨byte, cnt, rest, rfl, _, _⟩ := h
  exact ⟨byte, cnt, rest, r0, rfl⟩

theorem Unpacked.fault_eq {s u : State} (h : Unpacked s u) : u.fault = s.fault := by
  obtain ⟨_, _, _, rfl, _, _⟩ := h
  rfl

/-! ### The pieces of a command, from a state with no fault -/

section
variable {s t : State} (hf : s.fault = false) (hft : t.fault = true)
include hf hft

/-- PopIn faults with IO_FAILURE or TRUNCATED (R78). -/
theorem starve_raised {ph : Phase} {p : Progress} {ks : List FaultKind} {work : State → Prop}
    (hk : [.ioFailure, .truncated] ⊆ ks) (hw : work s) (ht : starve ph p s = t) : RaisedAfter ks ph work t := by
  obtain rfl := ht
  rcases starve_cases ph p s with ⟨_, e⟩ | ⟨_, _, e⟩ | ⟨_, _, e⟩ <;> rw [e] at hft ⊢
  · exact ⟨.ioFailure, hk (by decide), s, hw, rfl⟩
  · exact ⟨.truncated, hk (by decide), s, hw, rfl⟩
  · exact nomatch hf.symm.trans hft

/-- A piece that writes faults with IO_FAILURE (R79, R275). -/
theorem finish_raised {ph : Phase} {r : Flow Unit} (hr : WritesOrFails ph s r) (ht : finish r = .next t) :
    ∃ u, Written s u ∧ t = raise .ioFailure ph u := by
  rcases hr.cases with ⟨u, rfl, ⟨_, _, _, _, _, rfl⟩, _⟩ | ⟨u, rfl, hw⟩ <;> cases ht
  · exact nomatch hf.symm.trans hft
  · exact ⟨u, hw, rfl⟩

/-- HDR_PARSE's loop faults for want of a byte or of room (R211). -/
theorem settleScan_raised {r : HdrScan} (ht : settleScan r s = t) :
    RaisedAfter (laterFaults .hdrParse) .headerRead (Parsed s) t := by
  cases r with
  | sentinel ls n rest => cases ht; exact nomatch hf.symm.trans hft
  | overflow ls rest => exact ⟨.headerOverflow, by decide, _, ⟨rest, ls, rfl⟩, ht.symm⟩
  | wantCount ls n => exact starve_raised (s := { s with inq := [], leaves := ls }) hf hft (by decide) ⟨[], ls, rfl⟩ ht
  | wantSym ls c n => exact starve_raised (s := { s with inq := [], leaves := ls }) hf hft (by decide) ⟨[], ls, rfl⟩ ht

theorem resumeHdrSym_raised {c : Byte} {n : Nat} (ht : resumeHdrSym c n s = .next t) :
    RaisedAfter (laterFaults .hdrParse) .headerRead (Parsed s) t := by
  rw [resumeHdrSym] at ht
  split at ht <;> injection ht with ht
  · exact starve_raised hf hft (by decide) ⟨s.inq, s.leaves, rfl⟩ ht
  · exact settleScan_raised hf hft ht

/-- DEC_SYMBOL past its walk faults when OUT fails (R250). -/
theorem symbolDone_raised {sym : Sym} (ht : symbolDone (.ok sym s) = .next t) :
    ∃ r0, t = raise .ioFailure .bitDecode { s with result0 := r0 } := by
  by_cases hs : sym = s.params.eofSym
  · rw [symbolDone_eof hs] at ht
    cases ht; exact nomatch hf.symm.trans hft
  · by_cases ho : s.outErr = true
    · rw [symbolDone_failed hs ho] at ht
      cases ht; exact ⟨_, rfl⟩
    · rw [symbolDone_pushed hs (eq_false_of_ne_true ho)] at ht
      cases ht; exact nomatch hf.symm.trans hft

/-- DEC_STREAM past its walk faults when OUT fails (R257). -/
theorem streamDone_raised {sym : Sym} (ht : streamDone (.ok sym s) = .next t) :
    ∃ r0, t = raise .ioFailure .bitDecode { s with result0 := r0 } := by
  by_cases hs : sym = s.params.eofSym
  · rw [streamDone_eof hs] at ht
    cases ht; exact nomatch hf.symm.trans hft
  · by_cases ho : s.outErr = true
    · rw [streamDone_failed hs ho] at ht
      cases ht; exact ⟨s.result0, rfl⟩
    · rw [streamDone_pushed hs (eq_false_of_ne_true ho)] at ht
      cases ht
      rw [hold_fault, countOutput_frame] at hft
      exact nomatch hf.symm.trans hft

/-- A decoder's turn faults for want of a byte or when OUT fails (R79, R252). -/
theorem walk_raised {mk : Tree → Progress} {done : Flow Sym → Host.Outcome State Fault Refusal} {node : Tree}
    {ks : List FaultKind} (hk : [.ioFailure, .truncated] ⊆ ks) (hstop : ∀ u, done (.stop u) = .next u)
    (hdone : ∀ {u : State}, u.fault = false → t.fault = true → ∀ {sym}, done (.ok sym u) = .next t →
      ∃ r0, t = raise .ioFailure .bitDecode { u with result0 := r0 })
    (ht : done (walk mk node s) = .next t) : RaisedAfter ks .bitDecode (TookBits s) t := by
  rcases (walk_ends mk node s).cases with ⟨sym, u, hw, hu⟩ | ⟨below, u, hw, hu, _⟩ <;> rw [hw] at ht
  · obtain ⟨r0, hr⟩ := hdone (hu.fault_eq.trans hf) hft ht
    exact ⟨.ioFailure, hk (by decide), _, hu.tookBits r0, hr⟩
  · rw [hstop] at ht
    injection ht with ht
    exact starve_raised (hu.fault_eq.trans hf) hft hk (hu.tookBits u.result0) ht

end

/-! ### The first step -/

/-- The state in which HDR_PARSE's loop starts: unread bits, the tree and the leaf list are gone (R211). -/
def headerLoopStart (s : State) : State :=
  { s with rdCnt := 0, tree := none, eos := false, leaves := [], leavesValid := false }

theorem exec_hdrParse_eq (s : State) :
    exec .hdrParse s = .next (settleScan (scanHeader s.inq [] 0) (headerLoopStart s)) := rfl

/-- What a command has done when its first step faults: it wrote, HDR_PARSE filled LEAVES, or a decoder took bits
(R275). -/
inductive FaultWork (s : State) : Instr → State → Prop
  | wrote {i : Instr} {u : State} (h : Written s u) : FaultWork s i u
  | parsed {u : State} (h : Parsed (headerLoopStart s) u) : FaultWork s .hdrParse u
  | decoded {i : Instr} {u : State} (hi : i = .decSymbol ∨ i = .decStream) (h : TookBits s u) : FaultWork s i u

/-- A fault that comes before the command changes anything (R274, R275). -/
theorem raisedAfter_nothing {i : Instr} {k : FaultKind} (s : State) (hk : k ∈ mayRaise i.opcode) :
    RaisedAfter (mayRaise i.opcode) (opcodePhase i.opcode) (FaultWork s i) (raise k (opcodePhase i.opcode) s) :=
  ⟨k, hk, s, .wrote (.refl s), rfl⟩

theorem laterFaults_subset (i : Instr) : laterFaults i ⊆ mayRaise i.opcode := fun _ => List.mem_of_mem_filter

theorem encodeSym_raised {s t : State} {sym : Sym} (hf : s.fault = false) (hft : t.fault = true)
    (ht : encodeSym sym s = .next t) : RaisedAfter (mayRaise .encByte) .bitEncode (Written s) t := by
  rw [encodeSym] at ht
  split at ht
  · split at ht
    · obtain ⟨u, hw, hu⟩ := finish_raised hf hft (putBits_writes _ _ _ s) ht
      exact ⟨.ioFailure, by decide, u, hw, hu⟩
    · cases ht; exact ⟨.symbolNotInTree, by decide, s, .refl s, rfl⟩
  · cases ht; exact ⟨.sequenceError, by decide, s, .refl s, rfl⟩

/-- A command whose first step faults raises one of its own faults in its own phase (R271, R272). -/
theorem exec_raised {i : Instr} {s t : State} (hi : i.wellFormed = true) (hf : s.fault = false) (hft : t.fault = true)
    (ht : exec i s = .next t) :
    RaisedAfter (mayRaise i.opcode) (opcodePhase i.opcode) (FaultWork s i) t := by
  cases i with
  | nop => cases ht; exact nomatch hf.symm.trans hft
  | softReset => cases ht; cases hft
  | freqClear => cases ht; exact nomatch hf.symm.trans hft
  | freqAccum b => cases ht; exact nomatch hf.symm.trans hft
  | freqRead b => cases ht; exact nomatch hf.symm.trans hft
  | treeBuild src =>
    cases src with
    | freq => cases ht; exact nomatch hf.symm.trans hft
    | hdr =>
      rw [exec, execTreeBuild] at ht
      split at ht <;> cases ht
      · exact nomatch hf.symm.trans hft
      · exact raisedAfter_nothing s (by decide)
  | treeRelease => cases ht; exact nomatch hf.symm.trans hft
  | codeDerive =>
    rw [exec, execCodeDerive] at ht
    split at ht
    · cases ht; exact raisedAfter_nothing s (by decide)
    · split at ht <;> cases ht
      · exact raisedAfter_nothing s (by decide)
      · exact nomatch hf.symm.trans hft
  | codeRead sym =>
    have hin : Sym.inTable sym = true := hi
    rw [exec, execCodeRead, if_pos hin] at ht
    cases ht; exact nomatch hf.symm.trans hft
  | hdrEmit =>
    rw [exec, execHdrEmit] at ht
    split at ht
    · rcases (pushAll_writes .headerWrite (headerBytes (headerPairs s.freq)) s).cases with
        ⟨u, hr, ⟨_, _, _, _, _, rfl⟩, _⟩ | ⟨u, hr, hw⟩ <;> rw [hr] at ht <;> cases ht
      · exact nomatch hf.symm.trans hft
      · exact ⟨.ioFailure, by decide, u, .wrote hw, rfl⟩
    · cases ht; exact raisedAfter_nothing s (by decide)
  | hdrParse =>
    rw [exec_hdrParse_eq] at ht
    injection ht with ht
    exact (settleScan_raised (s := headerLoopStart s) hf hft ht).mono (laterFaults_subset _) fun _ => .parsed
  | leafRead b =>
    rw [exec, execLeafRead] at ht
    split at ht
    · split at ht <;> cases ht <;> exact nomatch hf.symm.trans hft
    · cases ht; exact raisedAfter_nothing s (List.mem_singleton.mpr rfl)
  | encByte b => exact (encodeSym_raised hf hft ht).mono (List.Subset.refl _) fun _ => .wrote
  | encEof => exact (encodeSym_raised hf hft ht).mono (List.Subset.refl _) fun _ => .wrote
  | encFlush =>
    rw [exec, execEncFlush] at ht
    split at ht
    · cases ht; exact nomatch hf.symm.trans hft
    · rcases (pushOut_writes .flush s.wrRack s).cases with ⟨u, hr, ⟨_, _, _, _, _, rfl⟩, _⟩ | ⟨u, hr, hw⟩ <;>
        rw [hr] at ht <;> cases ht
      · exact nomatch hf.symm.trans hft
      · exact ⟨.ioFailure, by decide, u, .wrote hw, rfl⟩
  | decSymbol =>
    rw [exec, execDecSymbol] at ht
    split at ht
    · cases ht; exact raisedAfter_nothing s (by decide)
    · split at ht
      · cases ht; exact raisedAfter_nothing s (by decide)
      · exact (walk_raised hf hft (by decide) (fun _ => rfl) symbolDone_raised ht).mono (List.Subset.refl _)
          fun _ => .decoded (.inl rfl)
  | decStream =>
    rw [exec, execDecStream] at ht
    split at ht
    · cases ht; exact raisedAfter_nothing s (by decide)
    · split at ht
      · cases ht; exact raisedAfter_nothing s (by decide)
      · refine (walk_raised (s := { s with result0 := 0 }) hf hft (by decide) (fun _ => rfl) streamDone_raised ht).mono
          (List.Subset.refl _) fun _ hu => .decoded (.inr rfl) ?_
        obtain ⟨byte, cnt, rest, r0, rfl⟩ := hu
        exact ⟨byte, cnt, rest, r0, rfl⟩

/-- What the first step leaves when it faults (R276, R211). -/
theorem FaultWork.kept {i : Instr} {s u : State} (h : FaultWork s i u) :
    u.freq = s.freq ∧ u.code = s.code ∧ u.ovr = s.ovr ∧ u.params = s.params ∧ u.curCmd = s.curCmd ∧
    (i ≠ .hdrParse → u.eos = s.eos ∧ u.leaves = s.leaves) ∧
    (i ≠ .decSymbol → i ≠ .decStream → u.rdByte = s.rdByte) := by
  cases h with
  | wrote h => obtain ⟨_, _, _, _, _, rfl⟩ := h; simp
  | parsed h => obtain ⟨_, _, rfl⟩ := h; simp [headerLoopStart]
  | decoded hi h => obtain ⟨_, _, _, _, rfl⟩ := h; rcases hi with rfl | rfl <;> simp

/-! ### A later turn -/

/-- What a later turn of a command in progress has done when it faults (R80). -/
inductive LaterWork (s : State) : Instr → State → Prop
  | parsed {u : State} (h : Parsed s u) : LaterWork s .hdrParse u
  | decoded {i : Instr} {u : State} (hi : i ≠ .hdrParse) (h : TookBits s u) : LaterWork s i u

/-- A later turn that faults raises one of the faults its command has left, in the command's phase (R80, R271, R272). -/
theorem blockTurn_raised {i : Instr} {s t : State} (h : Inv s) (hb : s.busy = true) (hc : s.run.command = some i)
    (hft : t.fault = true) (ht : blockTurn s = .next t) :
    RaisedAfter (laterFaults i) (opcodePhase i.opcode) (LaterWork s i) t := by
  have hf : s.fault = false := by
    cases hf : s.fault with
    | false => rfl
    | true => rw [h.run_of_fault hf hb] at hc; cases hc
  cases hr : s.run <;> rw [hr] at hc <;> cases hc
  case hdrCount n =>
    rw [blockTurn_hdrCount hb hr] at ht
    injection ht with ht
    exact (settleScan_raised hf hft ht).mono (List.Subset.refl _) fun _ => .parsed
  case hdrSym c n =>
    rw [blockTurn_hdrSym hb hr] at ht
    exact (resumeHdrSym_raised hf hft ht).mono (List.Subset.refl _) fun _ => .parsed
  case decSymbol node =>
    rw [blockTurn_decSymbol hb hr] at ht
    exact (walk_raised hf hft (by decide) (fun _ => rfl) symbolDone_raised ht).mono (List.Subset.refl _)
      fun _ => .decoded nofun
  case streamNext =>
    obtain ⟨node, hfrom, _⟩ := h.streamingFrom hb (.inl hr)
    rw [hfrom.blockTurn] at ht
    exact (walk_raised hf hft (by decide) (fun _ => rfl) streamDone_raised ht).mono (List.Subset.refl _)
      fun _ => .decoded nofun
  case streamAt node =>
    rw [blockTurn_streamAt hb hr] at ht
    exact (walk_raised hf hft (by decide) (fun _ => rfl) streamDone_raised ht).mono (List.Subset.refl _)
      fun _ => .decoded nofun

/-- What a later turn leaves when it faults (R276). -/
theorem LaterWork.kept {i : Instr} {s u : State} (h : LaterWork s i u) :
    u.curCmd = s.curCmd ∧ u.freq = s.freq ∧ u.code = s.code ∧ u.ovr = s.ovr ∧ u.params = s.params ∧ u.eos = s.eos ∧
    u.wrRack = s.wrRack ∧ u.wrCnt = s.wrCnt ∧ u.result1 = s.result1 ∧
    (i = .hdrParse → u.rdByte = s.rdByte ∧ u.result0 = s.result0 ∧ u.outq = s.outq) ∧
    (i ≠ .hdrParse → u.leaves = s.leaves) := by
  cases h with
  | parsed h => obtain ⟨_, _, rfl⟩ := h; simp
  | decoded hi h => obtain ⟨_, _, _, _, rfl⟩ := h; simp [hi]

/-- Settles O52: the fault entry records the command, and what the command did before it leaves the rest; a later turn
belongs to the command CUR_CMD holds. -/
theorem faultsAreTheCommandsOwn : Obligations.FaultsAreTheCommandsOwn := by
  refine ⟨fun i s t hi hf ht hft => ?_, fun i s t h hb hc ht hft => ?_⟩
  · obtain ⟨k, hk, u, hu, rfl⟩ := exec_raised hi hf hft ht
    obtain ⟨hfreq, hcode, hovr, hparams, hcmd, hrest⟩ := hu.kept
    exact ⟨⟨k, hk, rfl⟩, rfl, congrArg opcField hcmd, rfl, rfl, rfl, rfl, hfreq, hcode, hovr, hparams, hrest⟩
  · obtain ⟨k, hk, u, hu, rfl⟩ := blockTurn_raised h hb hc hft ht
    obtain ⟨hmem, hne⟩ := List.mem_filter.mp hk
    obtain ⟨hcmd, hrest⟩ := hu.kept
    have hopc : opcField u.curCmd = i.opcode.code :=
      hcmd ▸ (code_of_ofByte (opcode_of_decode (h.command hb i hc))).symm
    exact ⟨⟨k, hmem, of_decide_eq_true hne, rfl⟩, rfl, hopc, rfl, rfl, rfl, rfl, hrest⟩

end Sys2Proof.Machine
end

section
/-! Reset: O14 (R142, R300, R301). -/

namespace Sys2Proof.Machine

/-- Reset leaves nothing for the end of a command to clear (R142). -/
@[simp] theorem complete_applyReset (s : State) : complete (applyReset s) = applyReset s := rfl

/-- SOFT_RESET is the block's reset, in every state (R142). -/
theorem exec_softReset (s : State) : exec .softReset s = .next (applyReset s) := by
  rw [exec, execSoftReset, complete_applyReset]

/-- The hardware reset input is the block's reset, in every state (R300). -/
theorem hostTurn_resetInput (s : State) : hostTurn .resetInput s = .next (applyReset s) := rfl

/-- STATUS reads 0 after reset (R301). -/
@[simp] theorem statusWord_applyReset (s : State) : statusWord (applyReset s) = 0 := by
  simp [statusWord, leafCount, treeValid, flagBit]

/-- FAULTINFO reads 0 after reset (R301). -/
@[simp] theorem faultInfoWord_applyReset (s : State) : faultInfoWord (applyReset s) = 0 := by
  simp [faultInfoWord]

/-- Settles O14: both resets are `applyReset`, whatever ran before. -/
theorem bothResetsClearTheBlock : Obligations.BothResetsClearTheBlock := by
  intro s
  refine ⟨(applyReset s).freq, (applyReset s).code, s.curCmd, fun _ hk => ?_, fun _ hk => ?_, applyReset s, rfl,
    exec_softReset s, hostTurn_resetInput s, statusWord_applyReset s, faultInfoWord_applyReset s⟩
  · exact Vector.getElem_replicate hk
  · exact Vector.getElem_replicate hk

end Sys2Proof.Machine
end
